-- ==== Sys2Proof/Word.lean ====
section
/-! DEFINITION. The word types of the Dense7 codec core (spec/00_scope.md R3, spec/10_state.md R11 to R13). -/

namespace Sys2Proof

/-- A symbol: a logical 7-bit value (R3 `SYM_W`, R65). -/
abbrev Sym := BitVec 7

/-- A byte on the wire, format PBYTE8 (R67). -/
abbrev Byte := BitVec 8

/-- A UTF-16 code unit, format UNIT16 (R3 `UNIT_W`, R64). -/
abbrev CodeUnit := BitVec 16

/-- A counter, a length or a host-readable register (R3 `LEN_W`, R11). -/
abbrev Reg32 := BitVec 32

/-- A command word, format CMD (R3 `CMD_W`, R60). -/
abbrev CmdWord := BitVec 36

end Sys2Proof
end

