-- ==== Sys2Proof/Config.lean ====
section
/-! DEFINITION. What an implementation of the core fixes (the three open capacities of spec/00_scope.md R3 and
spec/92_eei_decisions.md D7) and the values the spec leaves free (spec/93_implementation_defined.md U1, U10).

The free values have no body: nothing can evaluate one or prove anything of it, so a claim holds for every
value. Each is applied to the draw counter of the state, so that two reads of one element may differ (U1). -/

namespace Sys2Proof

/-- The open parameters of R3: the capacity of each buffer in elements, `none` for unbounded. They are fixed for a
machine; the state carries them so that one step function serves every choice (log entry 9). -/
structure Caps where
  /-- `ENC_SCR_CAP`, in symbols. -/
  encScr : Option Nat
  /-- `ENC_OUT_CAP`, in bytes. -/
  encOut : Option Nat
  /-- `DEC_OUT_CAP`, in code units. -/
  decOut : Option Nat
  deriving DecidableEq, Repr

/-- The defaults of R3: all three unbounded. -/
def Caps.default : Caps := { encScr := none, encOut := none, decOut := none }

/-- The unspecified content of element `i` of `ENC.SCR` at draw `n` (R41, U10; log entry 7). -/
opaque Config.freeSym (n i : Nat) : Sym

/-- The unspecified value of a host read of element `i` of `ENC.OUT` at draw `n` (R46, U1; log entry 7). -/
opaque Config.freeByte (n i : Nat) : Byte

/-- The unspecified value of a host read of element `i` of `DEC.OUT` at draw `n` (R46, U1; log entry 7). -/
opaque Config.freeUnit (n i : Nat) : CodeUnit

end Sys2Proof
end

