-- ==== Sys2Proof/Syntax.lean ====
section
/-! DEFINITION. The instructions: one constructor per mnemonic of spec/opcode_table.json.

The table's 61 rows carry 27 mnemonics; rows that share a mnemonic are the `part`s of one class whose values are not
one aligned block (spec/30_encoding.md, opening). Operands are the table's fields. -/

namespace Sys2Proof

/-- The two blocks of the core (R1). Bit 35 of a command word tells the block (R60). -/
inductive Block where
  /-- The encoder `ENC`. -/
  | enc
  /-- The decoder `DEC`. -/
  | dec
  deriving DecidableEq, Repr

/-- What the classifier decodes a code unit into: the ten classes of R64 with the fields of the opcode table. -/
inductive UnitOp where
  | nul
  | ovl (raw : Sym)
  | bel
  | bs
  | ctl (ch : Sym)
  | lit (sym : Sym)
  | two (hi : BitVec 4) (lo : Sym)
  | three (hi : BitVec 2) (mid lo : Sym)
  | high (payload : BitVec 10)
  | low (payload : BitVec 10)
  deriving DecidableEq, Repr

/-- What the accumulator decodes a symbol into: the nine value classes of R65, and the trailer of R77 that every
symbol is while `dec.rem > 0`. -/
inductive SymOp where
  | lead2 (h : BitVec 4)
  | lead3 (h : BitVec 2)
  | lead4
  | invalid (sym : Sym)
  | ctl (sym : Sym)
  | bs
  | bel
  | lit (sym : Sym)
  | nul
  | trail (payload : Sym)
  deriving DecidableEq, Repr

/-- The instructions of the opcode table. The six commands are format CMD; `e…` are the classes of format UNIT16,
`d…` those of format SYM7, `pbyte` is format PBYTE8. Log entry 3 says what running a class means. -/
inductive Instr where
  /-- `ENC_BEGIN` (R100). -/
  | encBegin
  /-- `ENC_UNIT u` (R101). -/
  | encUnit (u : CodeUnit)
  /-- `ENC_END` (R130). -/
  | encEnd
  /-- `DEC_PREPARE n` (R150). -/
  | decPrepare (n : Reg32)
  /-- `DEC_BYTE b, fin` (R152). -/
  | decByte (b : Byte) (fin : Bool)
  /-- `DEC_FINISH` (R185). -/
  | decFinish
  /-- `E.NUL`, the unit 0x0000 (R105). -/
  | eNul
  /-- `E.OVL`, the overlong control `raw = u[6:0]` (R108). -/
  | eOvl (raw : Sym)
  /-- `E.BEL`, the unit 0x0007 (R106). -/
  | eBel
  /-- `E.BS`, the unit 0x0008 (R107). -/
  | eBs
  /-- `E.CTL`, the shifted control `ch = u[6:0]` (R104). -/
  | eCtl (ch : Sym)
  /-- `E.LIT`, the printable `sym = u[6:0]` (R103). -/
  | eLit (sym : Sym)
  /-- `E.TWO`, `hi = u[10:7]`, `lo = u[6:0]` (R109). -/
  | eTwo (hi : BitVec 4) (lo : Sym)
  /-- `E.THREE`, `hi = u[15:14]`, `mid = u[13:7]`, `lo = u[6:0]` (R110). -/
  | eThree (hi : BitVec 2) (mid lo : Sym)
  /-- `E.HIGH`, a high surrogate, `payload = u[9:0]` (R111). -/
  | eHigh (payload : BitVec 10)
  /-- `E.LOW`, a low surrogate, `payload = u[9:0]` (R112). -/
  | eLow (payload : BitVec 10)
  /-- `D.LEAD2`, `h = s[3:0]` (R177). -/
  | dLead2 (h : BitVec 4)
  /-- `D.LEAD3`, `h = s[1:0]` (R178). -/
  | dLead3 (h : BitVec 2)
  /-- `D.LEAD4`, the symbol 0x14 (R179). -/
  | dLead4
  /-- `D.INVALID` (R180). -/
  | dInvalid (sym : Sym)
  /-- `D.CTL` (R173). -/
  | dCtl (sym : Sym)
  /-- `D.BS`, the symbol 0x1E (R176). -/
  | dBs
  /-- `D.BEL`, the symbol 0x1F (R175). -/
  | dBel
  /-- `D.LIT` (R172). -/
  | dLit (sym : Sym)
  /-- `D.NUL`, the symbol 0x7F (R174). -/
  | dNul
  /-- `D.TRAIL`, `payload = s[6:0]` (R181). -/
  | dTrail (payload : Sym)
  /-- `PBYTE`, a byte on the wire, `hb` its bit 7 and `sym` its bits 6:0 (R67). -/
  | pbyte (hb : Bool) (sym : Sym)
  deriving DecidableEq, Repr

/-- A class of units as an instruction. -/
def UnitOp.toInstr : UnitOp → Instr
  | .nul => .eNul
  | .ovl raw => .eOvl raw
  | .bel => .eBel
  | .bs => .eBs
  | .ctl ch => .eCtl ch
  | .lit sym => .eLit sym
  | .two hi lo => .eTwo hi lo
  | .three hi mid lo => .eThree hi mid lo
  | .high payload => .eHigh payload
  | .low payload => .eLow payload

/-- A class of symbols as an instruction. -/
def SymOp.toInstr : SymOp → Instr
  | .lead2 h => .dLead2 h
  | .lead3 h => .dLead3 h
  | .lead4 => .dLead4
  | .invalid sym => .dInvalid sym
  | .ctl sym => .dCtl sym
  | .bs => .dBs
  | .bel => .dBel
  | .lit sym => .dLit sym
  | .nul => .dNul
  | .trail payload => .dTrail payload

end Sys2Proof
end

