-- ==== Sys2Proof/WellFormed.lean ====
section
/-! DEFINITION. Which operand values an instruction of the opcode table can carry: the value ranges of
spec/30_encoding.md R64 and R65. An operand outside its range belongs to another class. -/

namespace Sys2Proof

/-- The printable ASCII range 0x20 to 0x7E (R64 `E.LIT`, R65 `D.LIT`). -/
def isPrintable (x : Sym) : Bool := 0x20 ≤ x.toNat && x.toNat ≤ 0x7E

/-- The shifted controls 0x09 to 0x0D (R64 `E.CTL`). -/
def isShiftedControl (x : Sym) : Bool := 0x09 ≤ x.toNat && x.toNat ≤ 0x0D

/-- The overlong controls 0x01 to 0x06, 0x0E to 0x1F and 0x7F (R64 `E.OVL`). -/
def isOverlongControl (x : Sym) : Bool :=
  (0x01 ≤ x.toNat && x.toNat ≤ 0x06) || (0x0E ≤ x.toNat && x.toNat ≤ 0x1F) || x.toNat == 0x7F

/-- The symbols 0x19 to 0x1D (R65 `D.CTL`). -/
def isControlSymbol (x : Sym) : Bool := 0x19 ≤ x.toNat && x.toNat ≤ 0x1D

/-- The symbols 0x15 to 0x18 (R65 `D.INVALID`). -/
def isInvalidSymbol (x : Sym) : Bool := 0x15 ≤ x.toNat && x.toNat ≤ 0x18

/-- The unit `{hi, lo}` is at least 0x0080 (R64 `E.TWO`); its upper end 0x07FF is the fields' own. -/
def isTwoSymbol (hi : BitVec 4) : Bool := hi != 0

/-- The unit `{hi, mid, lo}` is at least 0x0800 and no surrogate (R64 `E.THREE`). -/
def isThreeSymbol (hi : BitVec 2) (mid lo : Sym) : Bool :=
  let n := hi.toNat * 16384 + mid.toNat * 128 + lo.toNat
  0x0800 ≤ n && (n < 0xD800 || 0xDFFF < n)

/-- The operand checks, one instruction a line; the ones left out admit every value of their fields. -/
def Instr.wf : Instr → Bool
  | .encBegin => true
  | .encUnit _ => true
  | .encEnd => true
  | .decPrepare _ => true
  | .decByte _ _ => true
  | .decFinish => true
  | .eNul => true
  | .eOvl raw => isOverlongControl raw
  | .eBel => true
  | .eBs => true
  | .eCtl ch => isShiftedControl ch
  | .eLit sym => isPrintable sym
  | .eTwo hi _ => isTwoSymbol hi
  | .eThree hi mid lo => isThreeSymbol hi mid lo
  | .eHigh _ => true
  | .eLow _ => true
  | .dLead2 _ => true
  | .dLead3 _ => true
  | .dLead4 => true
  | .dInvalid sym => isInvalidSymbol sym
  | .dCtl sym => isControlSymbol sym
  | .dBs => true
  | .dBel => true
  | .dLit sym => isPrintable sym
  | .dNul => true
  | .dTrail _ => true
  | .pbyte _ _ => true

end Sys2Proof
end

