-- ==== Sys2Proof/Decode.lean ====
section
/-! DEFINITION. The decoders and the encoder of the four formats of spec/30_encoding.md: CMD (R60 to R63), UNIT16
(R64), SYM7 (R65, R77) and PBYTE8 (R67). -/

namespace Sys2Proof

/-! ### The numbers of the format (R3) -/

/-- `CTL_OFFSET`. -/
def ctlOffset : Sym := 0x10
/-- `SYM_NUL`. -/
def symNul : Sym := 0x7F
/-- `SYM_BEL`. -/
def symBel : Sym := 0x1F
/-- `SYM_BS`. -/
def symBs : Sym := 0x1E
/-- `SYM_OVL`. -/
def symOvl : Sym := 0x00
/-- `TAG2`, the base of the two-symbol leads (the spec's D1). -/
def tag2 : Sym := 0x00
/-- `TAG3`, the base of the three-symbol leads (the spec's D1). -/
def tag3 : Sym := 0x10
/-- `TAG4`, the four-symbol lead (the spec's D1). -/
def tag4 : Sym := 0x14

/-! ### What the core decodes -/

/-- One thing a decoder of the core is given: a word on a block's command port, a code unit, a symbol together with
the one mode that changes its decoding (`inside` is `dec.rem > 0`, R77), or a byte on the wire. -/
inductive Item where
  | cmd (blk : Block) (w : CmdWord)
  | unit16 (u : CodeUnit)
  | sym7 (inside : Bool) (s : Sym)
  | pbyte8 (b : Byte)
  deriving DecidableEq, Repr

/-- Why a command word has no meaning (R63). -/
inductive DecodeError where
  /-- The `op` is reserved on the block it was sent to; an `op` of the other block is. -/
  | reservedOp
  /-- A "must be 0" bit of `arg` is 1. -/
  | nonzeroMustBeZero
  deriving DecidableEq, Repr

/-! ### Format CMD -/

/-- Bits 35:32 of a command word (R60). -/
def cmdOp (w : CmdWord) : BitVec 4 := w.extractLsb' 32 4

/-- Bits 31:0 of a command word (R60). -/
def cmdArg (w : CmdWord) : Reg32 := w.extractLsb' 0 32

/-- A command word from its two fields (R60). -/
def cmdWord (op : BitVec 4) (arg : Reg32) : CmdWord := op ++ arg

/-- The block that bit 35 of a word names (R60). -/
def cmdBlock (w : CmdWord) : Block := if w.getLsbD 35 then .dec else .enc

/-- An instruction if the "must be 0" bits are 0 (R63). -/
def mustBeZero (ok : Bool) (i : Instr) : Except DecodeError Instr :=
  if ok then .ok i else .error .nonzeroMustBeZero

/-- The commands of an `ENC` instance (R61, R63). -/
def decodeEncCmd (op : BitVec 4) (arg : Reg32) : Except DecodeError Instr :=
  match op.toNat with
  | 0x0 => mustBeZero (arg == 0) .encBegin
  | 0x1 => mustBeZero (arg.extractLsb' 16 16 == 0) (.encUnit (arg.extractLsb' 0 16))
  | 0x2 => mustBeZero (arg == 0) .encEnd
  | _ => .error .reservedOp

/-- The commands of a `DEC` instance (R62, R63). -/
def decodeDecCmd (op : BitVec 4) (arg : Reg32) : Except DecodeError Instr :=
  match op.toNat with
  | 0x8 => .ok (.decPrepare arg)
  | 0x9 => mustBeZero (arg.extractLsb' 9 23 == 0) (.decByte (arg.extractLsb' 0 8) (arg.getLsbD 8))
  | 0xA => mustBeZero (arg == 0) .decFinish
  | _ => .error .reservedOp

/-- The command a block takes from a word on its command port (R61 to R63). -/
def decodeCmd (blk : Block) (w : CmdWord) : Except DecodeError Instr :=
  match blk with
  | .enc => decodeEncCmd (cmdOp w) (cmdArg w)
  | .dec => decodeDecCmd (cmdOp w) (cmdArg w)

/-! ### Format UNIT16 -/

/-- The class of a code unit and its fields, by the ranges of R64. -/
def decodeUnit (u : CodeUnit) : UnitOp :=
  let n := u.toNat
  let lo : Sym := u.extractLsb' 0 7
  if n = 0x0000 then .nul
  else if n = 0x0007 then .bel
  else if n = 0x0008 then .bs
  else if 0x0009 ≤ n ∧ n ≤ 0x000D then .ctl lo
  else if 0x0020 ≤ n ∧ n ≤ 0x007E then .lit lo
  else if n < 0x0080 then .ovl lo
  else if n ≤ 0x07FF then .two (u.extractLsb' 7 4) lo
  else if 0xD800 ≤ n ∧ n ≤ 0xDBFF then .high (u.extractLsb' 0 10)
  else if 0xDC00 ≤ n ∧ n ≤ 0xDFFF then .low (u.extractLsb' 0 10)
  else .three (u.extractLsb' 14 2) (u.extractLsb' 7 7) lo

/-- The code unit a class and its fields stand for (R64). -/
def encodeUnit : UnitOp → CodeUnit
  | .nul => 0x0000
  | .ovl raw => 0#9 ++ raw
  | .bel => 0x0007
  | .bs => 0x0008
  | .ctl ch => 0#9 ++ ch
  | .lit sym => 0#9 ++ sym
  | .two hi lo => 0#5 ++ hi ++ lo
  | .three hi mid lo => hi ++ mid ++ lo
  | .high payload => 0b110110#6 ++ payload
  | .low payload => 0b110111#6 ++ payload

/-- A low surrogate, 0xDC00 to 0xDFFF (R76). -/
def isLowSurrogate (u : CodeUnit) : Bool := 0xDC00 ≤ u.toNat && u.toNat ≤ 0xDFFF

/-- A high surrogate, 0xD800 to 0xDBFF (R76). -/
def isHighSurrogate (u : CodeUnit) : Bool := 0xD800 ≤ u.toNat && u.toNat ≤ 0xDBFF

/-! ### Format SYM7 -/

/-- The class of a symbol and its fields, by the ranges of R65; inside a code point every symbol is a trailer (R77). -/
def decodeSym (inside : Bool) (s : Sym) : SymOp :=
  let n := s.toNat
  if inside then .trail s
  else if n ≤ 0x0F then .lead2 (s.extractLsb' 0 4)
  else if n ≤ 0x13 then .lead3 (s.extractLsb' 0 2)
  else if n = 0x14 then .lead4
  else if n ≤ 0x18 then .invalid s
  else if n ≤ 0x1D then .ctl s
  else if n = 0x1E then .bs
  else if n = 0x1F then .bel
  else if n ≤ 0x7E then .lit s
  else .nul

/-- The symbol a class and its fields stand for (R65). -/
def encodeSym : SymOp → Sym
  | .lead2 h => 0b000#3 ++ h
  | .lead3 h => 0b00100#5 ++ h
  | .lead4 => tag4
  | .invalid sym => sym
  | .ctl sym => sym
  | .bs => symBs
  | .bel => symBel
  | .lit sym => sym
  | .nul => symNul
  | .trail payload => payload

/-! ### Format PBYTE8 -/

/-- Bit 7 of a byte, the stolen bit (R67). -/
def pbyteHb (b : Byte) : Bool := b.getLsbD 7

/-- Bits 6:0 of a byte, the direct symbol (R67). -/
def pbyteSym (b : Byte) : Sym := b.extractLsb' 0 7

/-- A byte from its two fields (R67). -/
def encodePbyte (hb : Bool) (sym : Sym) : Byte := BitVec.cons hb sym

/-! ### The decoder and the encoder -/

/-- The instruction of any item; only a command word can be rejected, and then by name (R63). -/
def decode : Item → Except DecodeError Instr
  | .cmd blk w => decodeCmd blk w
  | .unit16 u => .ok (decodeUnit u).toInstr
  | .sym7 inside s => .ok (decodeSym inside s).toInstr
  | .pbyte8 b => .ok (.pbyte (pbyteHb b) (pbyteSym b))

/-- The item a well-formed instruction is written as (R61, R62, R64, R65, R67). -/
def encode : Instr → Item
  | .encBegin => .cmd .enc (cmdWord 0x0 0)
  | .encUnit u => .cmd .enc (cmdWord 0x1 (0#16 ++ u))
  | .encEnd => .cmd .enc (cmdWord 0x2 0)
  | .decPrepare n => .cmd .dec (cmdWord 0x8 n)
  | .decByte b fin => .cmd .dec (cmdWord 0x9 (0#23 ++ (BitVec.cons fin b)))
  | .decFinish => .cmd .dec (cmdWord 0xA 0)
  | .eNul => .unit16 (encodeUnit .nul)
  | .eOvl raw => .unit16 (encodeUnit (.ovl raw))
  | .eBel => .unit16 (encodeUnit .bel)
  | .eBs => .unit16 (encodeUnit .bs)
  | .eCtl ch => .unit16 (encodeUnit (.ctl ch))
  | .eLit sym => .unit16 (encodeUnit (.lit sym))
  | .eTwo hi lo => .unit16 (encodeUnit (.two hi lo))
  | .eThree hi mid lo => .unit16 (encodeUnit (.three hi mid lo))
  | .eHigh payload => .unit16 (encodeUnit (.high payload))
  | .eLow payload => .unit16 (encodeUnit (.low payload))
  | .dLead2 h => .sym7 false (encodeSym (.lead2 h))
  | .dLead3 h => .sym7 false (encodeSym (.lead3 h))
  | .dLead4 => .sym7 false (encodeSym .lead4)
  | .dInvalid sym => .sym7 false (encodeSym (.invalid sym))
  | .dCtl sym => .sym7 false (encodeSym (.ctl sym))
  | .dBs => .sym7 false (encodeSym .bs)
  | .dBel => .sym7 false (encodeSym .bel)
  | .dLit sym => .sym7 false (encodeSym (.lit sym))
  | .dNul => .sym7 false (encodeSym .nul)
  | .dTrail payload => .sym7 true (encodeSym (.trail payload))
  | .pbyte hb sym => .pbyte8 (encodePbyte hb sym)

/-- The item that `nbits` bits of the opcode table with value `w` stand for: more than 16 bits is a command word on
the block its bit 35 names, 9 to 16 bits a code unit, 8 bits or fewer a symbol met with `dec.rem = 0`, or a byte where
bit 7 is 1 (log entry 4). -/
def tableItem (nbits w : Nat) : Option Item :=
  if 16 < nbits then
    if w < 2 ^ 36 then some (.cmd (cmdBlock (BitVec.ofNat 36 w)) (BitVec.ofNat 36 w)) else none
  else if 8 < nbits then
    if w < 2 ^ 16 then some (.unit16 (BitVec.ofNat 16 w)) else none
  else if w < 2 ^ 7 then some (.sym7 false (BitVec.ofNat 7 w))
  else if w < 2 ^ 8 then some (.pbyte8 (BitVec.ofNat 8 w))
  else none

/-- The instruction the decoder reads from the bits of a row of the opcode table. -/
def decodeTableWord (nbits w : Nat) : Option Instr :=
  match tableItem nbits w with
  | none => none
  | some item => (decode item).toOption

/-! ### The opcode table's rows

A value `v` belongs to a row when `v &&& mask = pat` (spec/30_encoding.md, opening). The decoders above follow the
ranges of R64 and R65; these rows are the table's own, so that a statement can compare the two. -/

/-- The ten classes of format UNIT16 without their fields. -/
inductive UnitClass where
  | nul | ovl | bel | bs | ctl | lit | two | three | high | low
  deriving DecidableEq, Repr

/-- The nine value classes of format SYM7 without their fields. -/
inductive SymClass where
  | lead2 | lead3 | lead4 | invalid | ctl | bs | bel | lit | nul | trail
  deriving DecidableEq, Repr

/-- One row of the opcode table. -/
structure Row (w : Nat) (cls : Type) where
  cls : cls
  mask : BitVec w
  pat : BitVec w
  deriving DecidableEq, Repr

/-- Whether a value belongs to a row. -/
def Row.matches {w : Nat} {cls : Type} (r : Row w cls) (v : BitVec w) : Bool := v &&& r.mask == r.pat

/-- The UNIT16 rows of spec/opcode_table.json. -/
def unitRows : List (Row 16 UnitClass) :=
  [⟨.nul, 0xFFFF, 0x0000⟩,
   ⟨.ovl, 0xFFFF, 0x0001⟩, ⟨.ovl, 0xFFFE, 0x0002⟩, ⟨.ovl, 0xFFFE, 0x0004⟩, ⟨.ovl, 0xFFFF, 0x0006⟩,
   ⟨.ovl, 0xFFFE, 0x000E⟩, ⟨.ovl, 0xFFF0, 0x0010⟩, ⟨.ovl, 0xFFFF, 0x007F⟩,
   ⟨.bel, 0xFFFF, 0x0007⟩, ⟨.bs, 0xFFFF, 0x0008⟩,
   ⟨.ctl, 0xFFFF, 0x0009⟩, ⟨.ctl, 0xFFFE, 0x000A⟩, ⟨.ctl, 0xFFFE, 0x000C⟩] ++
  [⟨.lit, 0xFFE0, 0x0020⟩, ⟨.lit, 0xFFE0, 0x0040⟩, ⟨.lit, 0xFFF0, 0x0060⟩, ⟨.lit, 0xFFF8, 0x0070⟩,
   ⟨.lit, 0xFFFC, 0x0078⟩, ⟨.lit, 0xFFFE, 0x007C⟩, ⟨.lit, 0xFFFF, 0x007E⟩,
   ⟨.two, 0xFF80, 0x0080⟩, ⟨.two, 0xFF00, 0x0100⟩, ⟨.two, 0xFE00, 0x0200⟩, ⟨.two, 0xFC00, 0x0400⟩] ++
  [⟨.three, 0xF800, 0x0800⟩, ⟨.three, 0xF000, 0x1000⟩, ⟨.three, 0xE000, 0x2000⟩, ⟨.three, 0xC000, 0x4000⟩,
   ⟨.three, 0xC000, 0x8000⟩, ⟨.three, 0xF000, 0xC000⟩, ⟨.three, 0xF800, 0xD000⟩, ⟨.three, 0xE000, 0xE000⟩,
   ⟨.high, 0xFC00, 0xD800⟩, ⟨.low, 0xFC00, 0xDC00⟩]

/-- The SYM7 rows of spec/opcode_table.json with the condition `dec.rem = 0`. -/
def symRows : List (Row 7 SymClass) :=
  [⟨.lead2, 0x70, 0x00⟩, ⟨.lead3, 0x7C, 0x10⟩, ⟨.lead4, 0x7F, 0x14⟩,
   ⟨.invalid, 0x7F, 0x15⟩, ⟨.invalid, 0x7E, 0x16⟩, ⟨.invalid, 0x7F, 0x18⟩,
   ⟨.ctl, 0x7F, 0x19⟩, ⟨.ctl, 0x7E, 0x1A⟩, ⟨.ctl, 0x7E, 0x1C⟩, ⟨.bs, 0x7F, 0x1E⟩, ⟨.bel, 0x7F, 0x1F⟩] ++
  [⟨.lit, 0x60, 0x20⟩, ⟨.lit, 0x60, 0x40⟩, ⟨.lit, 0x70, 0x60⟩, ⟨.lit, 0x78, 0x70⟩, ⟨.lit, 0x7C, 0x78⟩,
   ⟨.lit, 0x7E, 0x7C⟩, ⟨.lit, 0x7F, 0x7E⟩, ⟨.nul, 0x7F, 0x7F⟩]

/-- The class of a decoded unit. -/
def UnitOp.cls : UnitOp → UnitClass
  | .nul => .nul
  | .ovl _ => .ovl
  | .bel => .bel
  | .bs => .bs
  | .ctl _ => .ctl
  | .lit _ => .lit
  | .two _ _ => .two
  | .three _ _ _ => .three
  | .high _ => .high
  | .low _ => .low

/-- The class of a decoded symbol. -/
def SymOp.cls : SymOp → SymClass
  | .lead2 _ => .lead2
  | .lead3 _ => .lead3
  | .lead4 => .lead4
  | .invalid _ => .invalid
  | .ctl _ => .ctl
  | .bs => .bs
  | .bel => .bel
  | .lit _ => .lit
  | .nul => .nul
  | .trail _ => .trail

end Sys2Proof
end

