-- ==== Sys2Proof/Machine/State.lean ====
section
/-! DEFINITION. The state of one encoder instance and one decoder instance (spec/10_state.md R12, R13), the three
buffers (spec/20_memory.md R40), the host's side of the ports (R10, R11), the reasons a command is refused, and reset
(R36). -/

namespace Sys2Proof.Machine

/-- The phase register (R14); its code is `Phase.code` in Machine/Flags.lean. -/
inductive Phase where
  /-- 0, after reset. -/
  | idle
  /-- 1, inside a call. -/
  | active
  /-- 2, the result is valid. -/
  | done
  /-- 3, the call failed. -/
  | faulted
  deriving DecidableEq, Repr

/-- A buffer of elements of `w` bits (R40, R44): the elements that have been written, by index, in one canonical form
(`Memory.wf`). The content of an element that is not listed is unspecified (R41 to R43, R46): reading it gives a free
value of Config, so no entry could equal what an unlisted element reads as. `Memory 8` is `List Host.Cell`. -/
abbrev Memory (w : Nat) := List (Nat × BitVec w)

/-- The canonical form of a buffer: indexes strictly rising, so that equal contents are equal data. -/
abbrev Memory.wf {w : Nat} (m : Memory w) : Prop := m.Pairwise (fun a b => a.1 < b.1)

/-- An encoder instance (R12). -/
structure Enc where
  /-- `enc.phase` (R14). -/
  phase : Phase
  /-- `enc.hsv`: a high surrogate is pending (R17). -/
  hsv : Bool
  /-- `enc.hs`: the pending high surrogate, else 0 (R17). -/
  hs : CodeUnit
  /-- `enc.ucnt`: code units accepted in this call. -/
  ucnt : Reg32
  /-- `enc.spos`: symbols now in `ENC.SCR` (R21). -/
  spos : Reg32
  /-- `enc.len`: bytes of the result in `ENC.OUT` (R21). -/
  len : Reg32
  /-- `enc.cause` (R201). -/
  cause : BitVec 3
  /-- `enc.einfo` (R201). -/
  einfo : CodeUnit
  /-- `enc.eidx` (R201). -/
  eidx : Reg32
  /-- `ENC.SCR`, the scratch symbol area (R41). -/
  scr : Memory 7
  /-- `ENC.OUT`, the output buffer (R42). -/
  out : Memory 8
  deriving DecidableEq, Repr

/-- A decoder instance (R13). -/
structure Dec where
  /-- `dec.phase` (R14). -/
  phase : Phase
  /-- `dec.rem`: trailers still owed (R18). -/
  rem : BitVec 2
  /-- `dec.cp`: the code point in progress (R18). -/
  cp : Reg32
  /-- `dec.stage`: bytes of the current group consumed (R20). -/
  stage : BitVec 3
  /-- `dec.stolen`: the stolen-bits accumulator (R19). -/
  stolen : Byte
  /-- `dec.ph`: the phantom flag (R22). -/
  ph : Bool
  /-- `dec.fin`: the final byte has been taken (R23). -/
  fin : Bool
  /-- `dec.bcnt`: bytes consumed in this call. -/
  bcnt : Reg32
  /-- `dec.expect`: the hint of `DEC_PREPARE` (R151). -/
  expect : Reg32
  /-- `dec.len`: code units now in `DEC.OUT` (R21). -/
  len : Reg32
  /-- `dec.cause` (R202). -/
  cause : BitVec 3
  /-- `dec.einfo` (R202). -/
  einfo : Reg32
  /-- `dec.eidx` (R202). -/
  eidx : Reg32
  /-- `DEC.OUT`, the output buffer (R43). -/
  out : Memory 16
  deriving DecidableEq, Repr

/-- What the host does at the ports of the two instances (R10, R11). -/
inductive HostEvent where
  /-- A word on a block's `cmd` port. -/
  | cmd (blk : Block) (w : CmdWord)
  /-- `rst` of a block asserted (R230). -/
  | rst (blk : Block)
  /-- `reg_sel` of a block set, `reg_data` read (R32). -/
  | readReg (blk : Block) (sel : BitVec 3)
  /-- `buf_idx` of a block set, `buf_data` read (R46). -/
  | readBuf (blk : Block) (idx : Reg32)
  deriving DecidableEq, Repr

/-- What a host read found on the data port (R11). -/
inductive ReadResult where
  /-- `reg_data` of a block. -/
  | reg (blk : Block) (v : Reg32)
  /-- `buf_data` of `ENC`. -/
  | encBuf (v : Byte)
  /-- `buf_data` of `DEC`. -/
  | decBuf (v : CodeUnit)
  deriving DecidableEq, Repr

/-- The machine: the two instances of R1, and the model's own fields that let one deterministic step carry the host's
side of the ports (log entries 2, 6, 7 and 9). -/
structure State where
  /-- The encoder instance. -/
  enc : Enc
  /-- The decoder instance. -/
  dec : Dec
  /-- The model's own: the open parameters of R3, which no step changes. -/
  caps : Caps
  /-- The model's own: what the host does next at the ports, in order. -/
  pending : List HostEvent
  /-- The model's own: what the last host read found; `none` until a read is made. -/
  lastRead : Option ReadResult
  /-- The model's own: how many times unspecified contents have been drawn. -/
  draws : Nat
  deriving DecidableEq, Repr

/-- The core has no fault that stops it. The spec's two error kinds are next states in phase FAULTED (R200, R206), and
"No behaviour of the core is `stuck`" (spec/93_implementation_defined.md), so no step raises one and this type has
no constructor. Safe. -/
inductive Fault where
  deriving DecidableEq, Repr

/-- Why a command has no meaning: the spec's `refuse` (R5). Each is safe: the spec gives no next state. -/
inductive Refusal where
  /-- An instruction that has no meaning in the model yet; no arm raises it. Safe. -/
  | notModelled (mnemonic : String)
  /-- A command word with a reserved `op` or a 1 in a "must be 0" bit, raised by the fetch (R63, U8). Safe. -/
  | reservedEncoding (why : DecodeError)
  /-- Data or an end outside a call, raised by `ENC_UNIT`, `ENC_END`, `DEC_BYTE`, `DEC_FINISH` in IDLE or DONE (R14,
  U2). Safe. -/
  | outsideCall
  /-- A `DEC_BYTE` after one with `fin = 1` in the same call (R156, U9). Safe. -/
  | byteAfterFin
  /-- An append past a buffer's capacity, raised by `ENC_UNIT`, `ENC_END`, `DEC_BYTE` (R47, U11). Safe. -/
  | bufferFull
  /-- A counter or length that would exceed 2^32 - 1, raised by `ENC_UNIT`, `DEC_BYTE` (R24, U11). Safe. -/
  | counterLimit
  deriving DecidableEq, Repr

/-- The outcome of one step or one instruction. -/
abbrev Out := Host.Outcome State Fault Refusal

/-- An encoder instance after `rst` (R36). The buffers list nothing: their contents are unspecified. -/
def Enc.reset : Enc :=
  { phase := .idle, hsv := false, hs := 0, ucnt := 0, spos := 0, len := 0, cause := 0, einfo := 0, eidx := 0,
    scr := [], out := [] }

/-- A decoder instance after `rst` (R36). -/
def Dec.reset : Dec :=
  { phase := .idle, rem := 0, cp := 0, stage := 0, stolen := 0, ph := false, fin := false, bcnt := 0, expect := 0,
    len := 0, cause := 0, einfo := 0, eidx := 0, out := [] }

/-- Both instances after reset (R36), the default capacities (R3), and the model's own fields empty. -/
def State.reset : State :=
  { enc := Enc.reset, dec := Dec.reset, caps := Caps.default, pending := [], lastRead := none, draws := 0 }

/-! ### Updates of the whole state -/

/-- Replace the encoder instance. -/
def State.setEnc (s : State) (e : Enc) : State := { s with enc := e }

/-- Replace the decoder instance. -/
def State.setDec (s : State) (d : Dec) : State := { s with dec := d }

/-- Replace the host's coming events. -/
def State.setPending (s : State) (l : List HostEvent) : State := { s with pending := l }

/-- Record what a host read found. -/
def State.setRead (s : State) (r : ReadResult) : State := { s with lastRead := some r }

/-- One draw of unspecified contents has been made. -/
def State.drawn (s : State) : State := { s with draws := s.draws + 1 }

end Sys2Proof.Machine
end

