-- ==== Sys2Proof/Machine/Operands.lean ====
section
/-! DEFINITION. How operands and results are assembled: the code-point layouts of spec/30_encoding.md R70 to R76, the
packed group of spec/41_enc_packer.md R133 and R135, and the error record of spec/60_exceptions.md R202. -/

namespace Sys2Proof.Machine

/-! ### Surrogate arithmetic (R76) -/

/-- The code point of a surrogate pair, 21 bits (R76, R112). -/
def pairCodePoint (h l : CodeUnit) : BitVec 21 :=
  0x10000 + ((h - 0xD800).setWidth 21 <<< 10) + (l - 0xDC00).setWidth 21

/-- The high surrogate of a code point from 0x10000 (R183). -/
def highOf (c : Reg32) : CodeUnit := 0xD800 + ((c - 0x10000).extractLsb' 10 10).setWidth 16

/-- The low surrogate of a code point from 0x10000 (R183). -/
def lowOf (c : Reg32) : CodeUnit := 0xDC00 + ((c - 0x10000).extractLsb' 0 10).setWidth 16

/-! ### Symbols of a code point (R70 to R72, R75) -/

/-- The two-symbol form (R70, R109). -/
def symsTwo (hi : BitVec 4) (lo : Sym) : List Sym := [tag2 ||| hi.setWidth 7, lo]

/-- The three-symbol form (R71, R110). -/
def symsThree (hi : BitVec 2) (mid lo : Sym) : List Sym := [tag3 ||| hi.setWidth 7, mid, lo]

/-- The four-symbol form (R72, R112). -/
def symsFour (cp : BitVec 21) : List Sym :=
  [tag4, cp.extractLsb' 14 7, cp.extractLsb' 7 7, cp.extractLsb' 0 7]

/-- What a two-symbol lead seeds (R73, R177). -/
def seedTwo (h : BitVec 4) : Reg32 := h.setWidth 32 <<< 7

/-- What a three-symbol lead seeds (R73, R178). -/
def seedThree (h : BitVec 2) : Reg32 := h.setWidth 32 <<< 14

/-- A trailer or-ed in at bit `7 * (rem - 1)` (R73, R181). -/
def gather (cp : Reg32) (rem : BitVec 2) (s : Sym) : Reg32 := cp ||| (s.setWidth 32 <<< (7 * (rem.toNat - 1)))

/-! ### The packed group (R132 to R135) -/

/-- Byte `i` of a full group: symbol `s` with bit `6 - i` of the eighth symbol above it (R133). -/
def groupByte (i : Nat) (s s7 : Sym) : Byte := encodePbyte (s7.getLsbD (6 - i)) s

/-- A full group, eight symbols in seven bytes (R133). -/
def group (s0 s1 s2 s3 s4 s5 s6 s7 : Sym) : List Byte :=
  [groupByte 0 s0 s7, groupByte 1 s1 s7, groupByte 2 s2 s7, groupByte 3 s3 s7, groupByte 4 s4 s7, groupByte 5 s5 s7,
    groupByte 6 s6 s7]

/-- The trailing partial group, one symbol a byte with bit 7 clear (R135). -/
def tail (l : List Sym) : List Byte := l.map (encodePbyte false)

/-- The packing function (R132). -/
def pack : List Sym → List Byte
  | s0 :: s1 :: s2 :: s3 :: s4 :: s5 :: s6 :: s7 :: rest => group s0 s1 s2 s3 s4 s5 s6 s7 ++ pack rest
  | l => tail l

/-! ### The unpacker's accumulator (R19, R155) -/

/-- The stolen-bits register with one more bit at its right (R19, R152). -/
def shiftStolen (stolen : Byte) (hb : Bool) : Byte := BitVec.concat (stolen.extractLsb' 0 7) hb

/-- The stolen symbol of a completed group (R155). -/
def stolenSym (stolen : Byte) : Sym := stolen.extractLsb' 0 7

/-! ### Error causes and the decoder's error record (R201, R202) -/

/-- EncodingError 1. -/
def causeTrailingHigh : BitVec 3 := 1
/-- EncodingError 2. -/
def causeHighNotLow : BitVec 3 := 2
/-- EncodingError 3. -/
def causeLoneLow : BitVec 3 := 3
/-- DecodingError 1. -/
def causeInvalidSymbol : BitVec 3 := 1
/-- DecodingError 2. -/
def causeTruncated : BitVec 3 := 2
/-- DecodingError 3. -/
def causeCpRange : BitVec 3 := 3

/-- `dec.einfo`: `value` in bits 20:0, `stolen` in bit 24, `rem` in bits 29:28, every other bit 0 (R202). -/
def decInfo (value : BitVec 21) (stolen : Bool) (rem : BitVec 2) : Reg32 :=
  0#2 ++ rem ++ 0#3 ++ BitVec.ofBool stolen ++ 0#3 ++ value

end Sys2Proof.Machine
end

