-- ==== Sys2Proof/Machine/Flags.lean ====
section
/-! DEFINITION. The flags (spec/10_state.md R26, spec/43_dec_accumulator.md R171) and the register maps (R30, R31). -/

namespace Sys2Proof.Machine

/-- The code of a phase (R14). -/
def Phase.code : Phase → BitVec 2
  | .idle => 0
  | .active => 1
  | .done => 2
  | .faulted => 3

/-- The `done` flag and level output (R11, R26). -/
def doneFlag (p : Phase) : Bool := p == .done

/-- The `err` flag and level output (R11, R26). -/
def errFlag (p : Phase) : Bool := p == .faulted

/-- The phantom flag that a classified symbol leaves (R171). -/
def phantomFlag (stolen : Bool) (s : Sym) : Bool := stolen && s == 0

/-- `ENC_STATUS` (R30). -/
def encStatus (e : Enc) : Reg32 :=
  0#24 ++ BitVec.ofBool e.hsv ++ e.cause ++ BitVec.ofBool (errFlag e.phase) ++ BitVec.ofBool (doneFlag e.phase) ++
    e.phase.code

/-- `DEC_STATUS` (R31). -/
def decStatus (d : Dec) : Reg32 :=
  0#17 ++ d.stage ++ 0#1 ++ d.rem ++ BitVec.ofBool d.ph ++ BitVec.ofBool d.fin ++ d.cause ++
    BitVec.ofBool (errFlag d.phase) ++ BitVec.ofBool (doneFlag d.phase) ++ d.phase.code

/-- The register map of `ENC` (R30); register 7 is reserved and reads 0. -/
def encReg (e : Enc) (sel : BitVec 3) : Reg32 :=
  match sel.toNat with
  | 0 => encStatus e
  | 1 => e.len
  | 2 => e.spos
  | 3 => e.ucnt
  | 4 => e.hs.setWidth 32
  | 5 => e.einfo.setWidth 32
  | 6 => e.eidx
  | _ => 0

/-- The register map of `DEC` (R31). -/
def decReg (d : Dec) (sel : BitVec 3) : Reg32 :=
  match sel.toNat with
  | 0 => decStatus d
  | 1 => d.len
  | 2 => d.cp
  | 3 => d.stolen.setWidth 32
  | 4 => d.bcnt
  | 5 => d.expect
  | 6 => d.einfo
  | _ => d.eidx

end Sys2Proof.Machine
end

