-- ==== Sys2Proof/Machine/Ops.lean ====
section
/-! DEFINITION. The shared operations: the access primitives of spec/20_memory.md R44 and R45, the capacity and counter
limits (R47, R24), the error entry of spec/60_exceptions.md R206 and the opening of a call that ends it (R208), and the
frame that every command shares (R14). -/

namespace Sys2Proof.Machine

/-! ### Buffers (R44, R45) -/

/-- `MemRead(space, i)`: the element, or `none` where the content is unspecified (R44, U10). -/
def memRead {w : Nat} : Memory w → Nat → Option (BitVec w)
  | [], _ => none
  | (j, x) :: t, i => if j = i then some x else memRead t i

/-- `MemWrite(space, i, v)`, keeping the indexes rising (R44). -/
def memWrite {w : Nat} : Memory w → Nat → BitVec w → Memory w
  | [], i, v => [(i, v)]
  | (j, x) :: t, i, v =>
    if i < j then (i, v) :: (j, x) :: t else if i = j then (i, v) :: t else (j, x) :: memWrite t i v

/-- Elements written one after another from index `i` (R45, R130). -/
def memWriteAll {w : Nat} (m : Memory w) (i : Nat) : List (BitVec w) → Memory w
  | [] => m
  | v :: t => memWriteAll (memWrite m i v) (i + 1) t

/-! ### Limits (R24, R47) -/

/-- The largest value of a counter or length (R24). -/
def lenMax : Nat := 2 ^ 32 - 1

/-- Why a buffer that would come to hold `n` elements has no meaning, if it has none: past its capacity (R47), or past
what its position register can hold (R24). -/
def overLimit (cap : Option Nat) (n : Nat) : Option Refusal :=
  if cap.any (fun c => c < n) then some .bufferFull
  else if lenMax < n then some .counterLimit
  else none

/-! ### How a command ends -/

/-- How a stretch of a command's pseudocode ends: it goes on, it has raised an error (the state is then the one the
error entry left, and no later line runs, R5), or the command is refused whole. -/
inductive Result (α : Type) where
  | ok (a : α)
  | raised (a : α)
  | refused (r : Refusal)
  deriving DecidableEq, Repr

/-- Go on with the rest of the pseudocode (R5). -/
def Result.andThen {α : Type} (r : Result α) (f : α → Result α) : Result α :=
  match r with
  | .ok a => f a
  | .raised a => .raised a
  | .refused why => .refused why

/-- The outcome of an encoder command. -/
def encOutcome (s : State) : Result Enc → Out
  | .ok e => .next (s.setEnc e)
  | .raised e => .next (s.setEnc e)
  | .refused why => .refused why

/-- The outcome of a decoder command. -/
def decOutcome (s : State) : Result Dec → Out
  | .ok d => .next (s.setDec d)
  | .raised d => .next (s.setDec d)
  | .refused why => .refused why

/-- Which commands of a call have a meaning (R14): refused in IDLE and DONE, without effect in FAULTED, the command
itself in ACTIVE. -/
def inCall (p : Phase) (s : State) (command : Out) : Out :=
  match p with
  | .idle => .refused .outsideCall
  | .active => command
  | .done => .refused .outsideCall
  | .faulted => .next s

/-! ### Error entry, and the opening of the next call -/

/-- `raise EncodingError(cause, info, idx)` (R206). -/
def encRaise (cause : BitVec 3) (info : CodeUnit) (idx : Reg32) : Enc :=
  { Enc.reset with phase := .faulted, cause := cause, einfo := info, eidx := idx }

/-- `raise DecodingError(cause, value, flag)`: the record is the fields of R202 and the byte count before it is cleared
(R206). -/
def decRaise (cause : BitVec 3) (info : Reg32) (d : Dec) : Dec :=
  { Dec.reset with phase := .faulted, cause := cause, einfo := info, eidx := d.bcnt }

/-- The state in which `ENC_BEGIN` leaves its instance, whatever was before: the return from an error (R37, R208). -/
def encOpened : Enc := { Enc.reset with phase := .active }

/-- The state in which `DEC_PREPARE n` leaves its instance, whatever was before: the return from an error (R37, R208). -/
def decOpened (n : Reg32) : Dec := { Dec.reset with phase := .active, expect := n }

/-! ### The encoder's primitives -/

/-- `append(ENC.SCR, enc.spos, x)` (R45). -/
def appendSym (e : Enc) (x : Sym) : Enc :=
  { e with scr := memWrite e.scr e.spos.toNat x, spos := e.spos + 1 }

/-- `emit [a, b, ...]`: all of the list, or the command is refused (R114). -/
def emit (cap : Option Nat) (syms : List Sym) (e : Enc) : Result Enc :=
  match overLimit cap (e.spos.toNat + syms.length) with
  | some why => .refused why
  | none => .ok (syms.foldl appendSym e)

/-- `enc.ucnt <- enc.ucnt + 1`, which never wraps (R24, R101). -/
def countUnit (e : Enc) : Result Enc :=
  if e.ucnt.toNat = lenMax then .refused .counterLimit else .ok { e with ucnt := e.ucnt + 1 }

/-- `PairComplete(u)` (R112). -/
def pairComplete (cap : Option Nat) (u : CodeUnit) (e : Enc) : Result Enc :=
  (emit cap (symsFour (pairCodePoint e.hs u)) e).andThen fun e => .ok { e with hsv := false, hs := 0 }

/-- A unit in phase ACTIVE: the pending surrogate comes first (R113), then the unit's class. -/
def acceptUnit (cap : Option Nat) (u : CodeUnit) (cls : Enc → Result Enc) (e : Enc) : Result Enc :=
  if e.hsv then
    if isLowSurrogate u then pairComplete cap u e else .raised (encRaise causeHighNotLow u e.ucnt)
  else cls e

/-- The frame of `ENC_UNIT u` around what the unit's class does (R14, R101). -/
def unitCommand (u : CodeUnit) (cls : Enc → Result Enc) (s : State) : Out :=
  inCall s.enc.phase s (encOutcome s ((acceptUnit s.caps.encScr u cls s.enc).andThen countUnit))

/-- `ENC.SCR[0:enc.spos]` (R130). An element that no command of the call wrote, which no reachable state has, is a free
value (R41, U10). -/
def scratchSyms (n : Nat) (e : Enc) : List Sym :=
  (List.range e.spos.toNat).map fun i => (memRead e.scr i).getD (Config.freeSym n i)

/-! ### The decoder's primitives -/

/-- `EmitUnit(w)` (R189), refused at the buffer's end (R47). -/
def emitUnit (cap : Option Nat) (w : CodeUnit) (d : Dec) : Result Dec :=
  match overLimit cap (d.len.toNat + 1) with
  | some why => .refused why
  | none => .ok { d with out := memWrite d.out d.len.toNat w, len := d.len + 1 }

/-- `EmitCodePoint(c, stolen)` (R182 to R184). -/
def emitCodePoint (cap : Option Nat) (c : Reg32) (stolen : Bool) (d : Dec) : Result Dec :=
  if c.toNat < 0x10000 then emitUnit cap (c.extractLsb' 0 16) d
  else if c.toNat ≤ 0x10FFFF then (emitUnit cap (highOf c) d).andThen (emitUnit cap (lowOf c))
  else .raised (decRaise causeCpRange (decInfo (c.extractLsb' 0 21) stolen 0) d)

/-- `dec.bcnt <- dec.bcnt + 1; dec.fin <- fin`, which never wraps (R24, R152). -/
def countByte (fin : Bool) (d : Dec) : Result Dec :=
  if d.bcnt.toNat = lenMax then .refused .counterLimit else .ok { d with bcnt := d.bcnt + 1, fin := fin }

end Sys2Proof.Machine
end

