-- ==== Sys2Proof/Machine/Classifier.lean ====
section
/-! DEFINITION. The classifier (spec/40_enc_classifier.md): `ENC_BEGIN`, `ENC_UNIT`, and the ten unit classes.

A class of units runs as the `ENC_UNIT` whose operand is of that class: the class rules apply inside `ENC_UNIT`, and
a command is the only step of a block (R6; log entry 3). -/

namespace Sys2Proof.Machine

/-! ### What each class does inside `ENC_UNIT` while no surrogate is pending -/

/-- R103. -/
def classLit (cap : Option Nat) (sym : Sym) (e : Enc) : Result Enc := emit cap [sym] e

/-- R104. -/
def classCtl (cap : Option Nat) (ch : Sym) (e : Enc) : Result Enc := emit cap [ch + ctlOffset] e

/-- R105. -/
def classNul (cap : Option Nat) (e : Enc) : Result Enc := emit cap [symNul] e

/-- R106. -/
def classBel (cap : Option Nat) (e : Enc) : Result Enc := emit cap [symBel] e

/-- R107. -/
def classBs (cap : Option Nat) (e : Enc) : Result Enc := emit cap [symBs] e

/-- R108. -/
def classOvl (cap : Option Nat) (raw : Sym) (e : Enc) : Result Enc := emit cap [symOvl, raw] e

/-- R109. -/
def classTwo (cap : Option Nat) (hi : BitVec 4) (lo : Sym) (e : Enc) : Result Enc := emit cap (symsTwo hi lo) e

/-- R110. -/
def classThree (cap : Option Nat) (hi : BitVec 2) (mid lo : Sym) (e : Enc) : Result Enc :=
  emit cap (symsThree hi mid lo) e

/-- R111: no symbol; the unit waits for its low surrogate. -/
def classHigh (u : CodeUnit) (e : Enc) : Result Enc := .ok { e with hsv := true, hs := u }

/-- R112 with `enc.hsv = 0`. -/
def classLow (u : CodeUnit) (e : Enc) : Result Enc := .raised (encRaise causeLoneLow u e.ucnt)

/-- The dispatch of R101. -/
def classAct (cap : Option Nat) (u : CodeUnit) : Enc → Result Enc :=
  match decodeUnit u with
  | .lit sym => classLit cap sym
  | .ctl ch => classCtl cap ch
  | .nul => classNul cap
  | .bel => classBel cap
  | .bs => classBs cap
  | .ovl raw => classOvl cap raw
  | .two hi lo => classTwo cap hi lo
  | .three hi mid lo => classThree cap hi mid lo
  | .high _ => classHigh u
  | .low _ => classLow u

/-! ### The commands -/

/-- `ENC_BEGIN`, legal in every phase (R100). -/
def execEncBegin (s : State) : Out := .next (s.setEnc encOpened)

/-- `ENC_UNIT u` (R101). -/
def execEncUnit (u : CodeUnit) (s : State) : Out := unitCommand u (classAct s.caps.encScr u) s

/-! ### The unit classes -/

/-- `E.NUL` (R105). -/
def execENul (s : State) : Out := unitCommand (encodeUnit .nul) (classNul s.caps.encScr) s

/-- `E.OVL` (R108). -/
def execEOvl (raw : Sym) (s : State) : Out :=
  unitCommand (encodeUnit (.ovl raw)) (classOvl s.caps.encScr raw) s

/-- `E.BEL` (R106). -/
def execEBel (s : State) : Out := unitCommand (encodeUnit .bel) (classBel s.caps.encScr) s

/-- `E.BS` (R107). -/
def execEBs (s : State) : Out := unitCommand (encodeUnit .bs) (classBs s.caps.encScr) s

/-- `E.CTL` (R104). -/
def execECtl (ch : Sym) (s : State) : Out := unitCommand (encodeUnit (.ctl ch)) (classCtl s.caps.encScr ch) s

/-- `E.LIT` (R103). -/
def execELit (sym : Sym) (s : State) : Out := unitCommand (encodeUnit (.lit sym)) (classLit s.caps.encScr sym) s

/-- `E.TWO` (R109). -/
def execETwo (hi : BitVec 4) (lo : Sym) (s : State) : Out :=
  unitCommand (encodeUnit (.two hi lo)) (classTwo s.caps.encScr hi lo) s

/-- `E.THREE` (R110). -/
def execEThree (hi : BitVec 2) (mid lo : Sym) (s : State) : Out :=
  unitCommand (encodeUnit (.three hi mid lo)) (classThree s.caps.encScr hi mid lo) s

/-- `E.HIGH` (R111). -/
def execEHigh (payload : BitVec 10) (s : State) : Out :=
  unitCommand (encodeUnit (.high payload)) (classHigh (encodeUnit (.high payload))) s

/-- `E.LOW` (R112). -/
def execELow (payload : BitVec 10) (s : State) : Out :=
  unitCommand (encodeUnit (.low payload)) (classLow (encodeUnit (.low payload))) s

end Sys2Proof.Machine
end

