-- ==== Sys2Proof/Machine/Packer.lean ====
section
/-! DEFINITION. The packer (spec/41_enc_packer.md): `ENC_END`. -/

namespace Sys2Proof.Machine

/-- The result `B` of a call in `ENC.OUT`, the working registers cleared (R130, R37); `ENC.SCR` above the position,
now all of it, is unspecified (R41). -/
def packedEnc (bytes : List Byte) (e : Enc) : Enc :=
  { e with
    out := memWriteAll e.out 0 bytes, len := BitVec.ofNat 32 bytes.length, scr := [], spos := 0, ucnt := 0,
    hsv := false, hs := 0, phase := .done }

/-- `ENC_END` in phase ACTIVE (R130, R131). -/
def packCommand (cap : Option Nat) (n : Nat) (e : Enc) : Result Enc :=
  if e.hsv then .raised (encRaise causeTrailingHigh e.hs (e.ucnt - 1))
  else
    let bytes := pack (scratchSyms n e)
    match overLimit cap bytes.length with
    | some why => .refused why
    | none => .ok (packedEnc bytes e)

/-- `ENC_END` (R130). It counts one draw, for `scratchSyms`. -/
def execEncEnd (s : State) : Out :=
  inCall s.enc.phase s (encOutcome s.drawn (packCommand s.caps.encOut s.draws s.enc))

end Sys2Proof.Machine
end

