-- ==== Sys2Proof/Machine/Accumulator.lean ====
section
/-! DEFINITION. The accumulator (spec/43_dec_accumulator.md): what each class of symbol does, `ProcessSymbol`, and
`DEC_FINISH`. Each class rewrites the phantom flag (R171). -/

namespace Sys2Proof.Machine

/-! ### The classes, met with `dec.rem = 0` -/

/-- R172. -/
def symLit (cap : Option Nat) (sym : Sym) (d : Dec) : Result Dec :=
  emitUnit cap (sym.setWidth 16) { d with ph := false }

/-- R173. -/
def symCtl (cap : Option Nat) (sym : Sym) (d : Dec) : Result Dec :=
  emitUnit cap ((sym - ctlOffset).setWidth 16) { d with ph := false }

/-- R174. -/
def symNulUnit (cap : Option Nat) (d : Dec) : Result Dec := emitUnit cap 0x0000 { d with ph := false }

/-- R175. -/
def symBelUnit (cap : Option Nat) (d : Dec) : Result Dec := emitUnit cap 0x0007 { d with ph := false }

/-- R176. -/
def symBsUnit (cap : Option Nat) (d : Dec) : Result Dec := emitUnit cap 0x0008 { d with ph := false }

/-- R177: the phantom lead is the stolen 0x00. -/
def symLead2 (h : BitVec 4) (stolen : Bool) (d : Dec) : Result Dec :=
  .ok { d with ph := phantomFlag stolen (encodeSym (.lead2 h)), rem := 1, cp := seedTwo h }

/-- R178. -/
def symLead3 (h : BitVec 2) (d : Dec) : Result Dec := .ok { d with ph := false, rem := 2, cp := seedThree h }

/-- R179. -/
def symLead4 (d : Dec) : Result Dec := .ok { d with ph := false, rem := 3, cp := 0 }

/-- R180. -/
def symInvalid (sym : Sym) (stolen : Bool) (d : Dec) : Result Dec :=
  .raised (decRaise causeInvalidSymbol (decInfo (sym.setWidth 21) stolen 0) d)

/-! ### Trailers -/

/-- `Trail(s, stolen)`, met with `dec.rem > 0` (R181). -/
def symTrail (cap : Option Nat) (s : Sym) (stolen : Bool) (d : Dec) : Result Dec :=
  let c := gather d.cp d.rem s
  if d.rem = 1 then emitCodePoint cap c stolen { d with ph := false, rem := 0, cp := 0 }
  else .ok { d with ph := false, rem := d.rem - 1, cp := c }

/-- The dispatch of R170. -/
def symAct (cap : Option Nat) (op : SymOp) (stolen : Bool) (d : Dec) : Result Dec :=
  match op with
  | .lit sym => symLit cap sym d
  | .ctl sym => symCtl cap sym d
  | .nul => symNulUnit cap d
  | .bel => symBelUnit cap d
  | .bs => symBsUnit cap d
  | .lead2 h => symLead2 h stolen d
  | .lead3 h => symLead3 h d
  | .lead4 => symLead4 d
  | .invalid sym => symInvalid sym stolen d
  | .trail payload => symTrail cap payload stolen d

/-- `ProcessSymbol(s, stolen)` (R170): the test of `dec.rem` comes first, and then the class. -/
def processSymbol (cap : Option Nat) (s : Sym) (stolen : Bool) (d : Dec) : Result Dec :=
  symAct cap (decodeSym (d.rem != 0) s) stolen d

/-! ### DEC_FINISH -/

/-- The text as the result of the call, the working registers cleared (R185, R37). -/
def finishedDec (d : Dec) : Dec :=
  { d with
    rem := 0, cp := 0, stage := 0, stolen := 0, ph := false, fin := false, bcnt := 0, expect := 0, phase := .done }

/-- `DEC_FINISH` in phase ACTIVE: a pending code point is TRUNCATED, unless it is the phantom lead (R185). -/
def finishCommand (d : Dec) : Result Dec :=
  if d.rem ≠ 0 ∧ d.ph = false then .raised (decRaise causeTruncated (decInfo (d.cp.extractLsb' 0 21) false d.rem) d)
  else .ok (finishedDec d)

/-- `DEC_FINISH` (R185). -/
def execDecFinish (s : State) : Out := inCall s.dec.phase s (decOutcome s (finishCommand s.dec))

end Sys2Proof.Machine
end

