-- ==== Sys2Proof/Machine/Unpacker.lean ====
section
/-! DEFINITION. The unpacker (spec/42_dec_unpacker.md): `DEC_PREPARE`, `DEC_BYTE`, the byte on the wire, and the symbol
classes as the `DEC_BYTE` that carries the symbol directly (log entry 3). -/

namespace Sys2Proof.Machine

/-- The stolen symbol after the seventh byte of a group (R152, R155). -/
def deliverStolen (cap : Option Nat) (d : Dec) : Result Dec :=
  if d.stage = 7 then processSymbol cap (stolenSym d.stolen) true { d with stolen := 0, stage := 0 } else .ok d

/-- A byte's stolen bit gathered and its place in the group counted, before its symbol is processed (R19, R20, R152). -/
def gatherBit (hb : Bool) (d : Dec) : Dec :=
  { d with stolen := shiftStolen d.stolen hb, stage := d.stage + 1 }

/-- The pseudocode of `DEC_BYTE` around what its direct symbol does (R152). -/
def unpackByte (cap : Option Nat) (hb fin : Bool) (direct : Dec → Result Dec) (d : Dec) : Result Dec :=
  ((direct (gatherBit hb d)).andThen (deliverStolen cap)).andThen (countByte fin)

/-- `DEC_BYTE` in phase ACTIVE: no byte follows the final one (R156). -/
def acceptByte (cap : Option Nat) (hb fin : Bool) (direct : Dec → Result Dec) (d : Dec) : Result Dec :=
  if d.fin then .refused .byteAfterFin else unpackByte cap hb fin direct d

/-- The frame of `DEC_BYTE` (R14, R152). -/
def byteCommand (hb fin : Bool) (direct : Dec → Result Dec) (s : State) : Out :=
  inCall s.dec.phase s (decOutcome s (acceptByte s.caps.decOut hb fin direct s.dec))

/-- A direct symbol of a class: the class while `dec.rem = 0`, a trailer otherwise (R77, R170). -/
def directOf (cap : Option Nat) (s : Sym) (cls : Dec → Result Dec) (d : Dec) : Result Dec :=
  if d.rem = 0 then cls d else symTrail cap s false d

/-! ### The commands -/

/-- `DEC_PREPARE n`, legal in every phase (R150). -/
def execDecPrepare (n : Reg32) (s : State) : Out := .next (s.setDec (decOpened n))

/-- `DEC_BYTE b, fin` (R152). -/
def execDecByte (b : Byte) (fin : Bool) (s : State) : Out :=
  byteCommand (pbyteHb b) fin (processSymbol s.caps.decOut (pbyteSym b) false) s

/-- `PBYTE`: a byte on the wire, taken by `DEC_BYTE` with `fin = 0` (R67, R152). -/
def execPbyte (hb : Bool) (sym : Sym) (s : State) : Out :=
  byteCommand hb false (processSymbol s.caps.decOut sym false) s

/-! ### The symbol classes -/

/-- `D.LEAD2` (R177). -/
def execDLead2 (h : BitVec 4) (s : State) : Out :=
  byteCommand false false (directOf s.caps.decOut (encodeSym (.lead2 h)) (symLead2 h false)) s

/-- `D.LEAD3` (R178). -/
def execDLead3 (h : BitVec 2) (s : State) : Out :=
  byteCommand false false (directOf s.caps.decOut (encodeSym (.lead3 h)) (symLead3 h)) s

/-- `D.LEAD4` (R179). -/
def execDLead4 (s : State) : Out :=
  byteCommand false false (directOf s.caps.decOut (encodeSym .lead4) symLead4) s

/-- `D.INVALID` (R180). -/
def execDInvalid (sym : Sym) (s : State) : Out :=
  byteCommand false false (directOf s.caps.decOut (encodeSym (.invalid sym)) (symInvalid sym false)) s

/-- `D.CTL` (R173). -/
def execDCtl (sym : Sym) (s : State) : Out :=
  byteCommand false false (directOf s.caps.decOut (encodeSym (.ctl sym)) (symCtl s.caps.decOut sym)) s

/-- `D.BS` (R176). -/
def execDBs (s : State) : Out :=
  byteCommand false false (directOf s.caps.decOut (encodeSym .bs) (symBsUnit s.caps.decOut)) s

/-- `D.BEL` (R175). -/
def execDBel (s : State) : Out :=
  byteCommand false false (directOf s.caps.decOut (encodeSym .bel) (symBelUnit s.caps.decOut)) s

/-- `D.LIT` (R172). -/
def execDLit (sym : Sym) (s : State) : Out :=
  byteCommand false false (directOf s.caps.decOut (encodeSym (.lit sym)) (symLit s.caps.decOut sym)) s

/-- `D.NUL` (R174). -/
def execDNul (s : State) : Out :=
  byteCommand false false (directOf s.caps.decOut (encodeSym .nul) (symNulUnit s.caps.decOut)) s

/-- `D.TRAIL` (R181). A symbol is a trailer only while `dec.rem > 0`; met with `dec.rem = 0` it is classified (R77). -/
def execDTrail (payload : Sym) (s : State) : Out :=
  byteCommand false false (processSymbol s.caps.decOut payload false) s

end Sys2Proof.Machine
end

