-- ==== Sys2Proof/Machine/Dispatch.lean ====
section
/-! DEFINITION. One arm per instruction, each one direct call of its meaning. -/

namespace Sys2Proof.Machine

/-- The meaning of every instruction of the opcode table. -/
def exec (i : Instr) (s : State) : Host.Outcome State Fault Refusal :=
  match i with
  | .encBegin => Sys2Proof.Machine.execEncBegin s
  | .encUnit u => Sys2Proof.Machine.execEncUnit u s
  | .encEnd => Sys2Proof.Machine.execEncEnd s
  | .decPrepare n => Sys2Proof.Machine.execDecPrepare n s
  | .decByte b fin => Sys2Proof.Machine.execDecByte b fin s
  | .decFinish => Sys2Proof.Machine.execDecFinish s
  | .eNul => Sys2Proof.Machine.execENul s
  | .eOvl raw => Sys2Proof.Machine.execEOvl raw s
  | .eBel => Sys2Proof.Machine.execEBel s
  | .eBs => Sys2Proof.Machine.execEBs s
  | .eCtl ch => Sys2Proof.Machine.execECtl ch s
  | .eLit sym => Sys2Proof.Machine.execELit sym s
  | .eTwo hi lo => Sys2Proof.Machine.execETwo hi lo s
  | .eThree hi mid lo => Sys2Proof.Machine.execEThree hi mid lo s
  | .eHigh payload => Sys2Proof.Machine.execEHigh payload s
  | .eLow payload => Sys2Proof.Machine.execELow payload s
  | .dLead2 h => Sys2Proof.Machine.execDLead2 h s
  | .dLead3 h => Sys2Proof.Machine.execDLead3 h s
  | .dLead4 => Sys2Proof.Machine.execDLead4 s
  | .dInvalid sym => Sys2Proof.Machine.execDInvalid sym s
  | .dCtl sym => Sys2Proof.Machine.execDCtl sym s
  | .dBs => Sys2Proof.Machine.execDBs s
  | .dBel => Sys2Proof.Machine.execDBel s
  | .dLit sym => Sys2Proof.Machine.execDLit sym s
  | .dNul => Sys2Proof.Machine.execDNul s
  | .dTrail payload => Sys2Proof.Machine.execDTrail payload s
  | .pbyte hb sym => Sys2Proof.Machine.execPbyte hb sym s

end Sys2Proof.Machine
end

