-- ==== Sys2Proof/Machine/HostPort.lean ====
section
/-! DEFINITION. The host's side of the ports (spec/10_state.md R11, R32, R36; spec/20_memory.md R46; spec/70 R230):
reset, register reads, buffer reads; and the trace form of a command word (spec/30_encoding.md R79). The calls made of
these are in Machine/Calls.lean. -/

namespace Sys2Proof.Machine

/-- `rst` of one block: nothing of it survives, and the other block is untouched (R36, R230). -/
def resetBlock (blk : Block) (s : State) : State :=
  match blk with
  | .enc => s.setEnc Enc.reset
  | .dec => s.setDec Dec.reset

/-- The port `reg_data` of a block under `sel` (R11, R32). -/
def regData (blk : Block) (sel : BitVec 3) (s : State) : Reg32 :=
  match blk with
  | .enc => encReg s.enc sel
  | .dec => decReg s.dec sel

/-- A read of one register; no side effect on either block (R32). -/
def readReg (blk : Block) (sel : BitVec 3) (s : State) : State := s.setRead (.reg blk (regData blk sel s))

/-- Whether a host read of a buffer is defined: phase DONE and below the length (R46). -/
def readDefined (p : Phase) (len idx : Reg32) : Bool := p == .done && idx.toNat < len.toNat

/-- What a host read of element `idx` finds: the element where the read is defined, else the free value (R46, U1). -/
def bufValue {w : Nat} (p : Phase) (len idx : Reg32) (m : Memory w) (free : BitVec w) : BitVec w :=
  if readDefined p len idx then (memRead m idx.toNat).getD free else free

/-- The port `buf_data` of `ENC` under `idx` (R46). -/
def encBufData (idx : Reg32) (s : State) : Byte :=
  bufValue s.enc.phase s.enc.len idx s.enc.out (Config.freeByte s.draws idx.toNat)

/-- The port `buf_data` of `DEC` under `idx` (R46). -/
def decBufData (idx : Reg32) (s : State) : CodeUnit :=
  bufValue s.dec.phase s.dec.len idx s.dec.out (Config.freeUnit s.draws idx.toNat)

/-- A read of one element of an output buffer; no side effect on either block (R46). It counts one draw. -/
def readBuf (blk : Block) (idx : Reg32) (s : State) : State :=
  match blk with
  | .enc => s.drawn.setRead (.encBuf (encBufData idx s))
  | .dec => s.drawn.setRead (.decBuf (decBufData idx s))

/-! ### An instruction at its port -/

/-- The event that puts an instruction's command word on its block's port; a unit, a symbol or a byte comes as the
command that carries it (log entry 3). -/
def eventOf (i : Instr) : HostEvent :=
  match encode i with
  | .cmd blk w => .cmd blk w
  | .unit16 u => .cmd .enc (cmdWord 0x1 (0#16 ++ u))
  | .sym7 _ sym => .cmd .dec (cmdWord 0x9 (0#25 ++ sym))
  | .pbyte8 b => .cmd .dec (cmdWord 0x9 (0#24 ++ b))

/-! ### Trace form (R79) -/

/-- The `n` low hexadecimal digits of a number, most significant first. -/
def hexDigits : Nat → Nat → List Char
  | 0, _ => []
  | n + 1, v => hexDigits n (v / 16) ++ [if v % 16 < 10 then Char.ofNat (48 + v % 16) else Char.ofNat (55 + v % 16)]

/-- The nine hexadecimal digits of a command word, `op` first (R79). -/
def traceWord (w : CmdWord) : List Char := '0' :: 'x' :: hexDigits 9 w.toNat

/-! ### A row of the opcode table at the ports -/

/-- The event that presents an item of the opcode table (log entries 3 and 4). -/
def presentItem : Item → HostEvent
  | .cmd blk w => .cmd blk w
  | .unit16 u => eventOf (.encUnit u)
  | .sym7 _ sym => eventOf (.decByte (encodePbyte false sym) false)
  | .pbyte8 b => eventOf (.decByte b false)

/-- The call that an item needs to be open: a class is decoded only inside a command of an open call (log entry 5). -/
def openFor (item : Item) (s : State) : State :=
  match item with
  | .cmd _ _ => s
  | .unit16 _ => s.setEnc { s.enc with phase := .active }
  | .sym7 _ _ => s.setDec { s.dec with phase := .active }
  | .pbyte8 _ => s.setDec { s.dec with phase := .active }

/-- An item presented as the next event. -/
def present (item : Item) (s : State) : State := (openFor item s).setPending (presentItem item :: s.pending)

end Sys2Proof.Machine
end

