-- ==== Sys2Proof/Machine/Step.lean ====
section
/-! DEFINITION. One step of the machine: the host's next event takes effect (spec/00_scope.md R6, spec/10_state.md R10,
spec/20_memory.md R53). The core has no program counter and fetches nothing (R15, R55); the command port stands in
its place. -/

namespace Sys2Proof.Machine

/-- A command word on a block's port: the decoded command, atomically, or a refusal by name (R6, R63). -/
def takeCommand (blk : Block) (w : CmdWord) (s : State) : Host.Outcome State Fault Refusal :=
  match decode (.cmd blk w) with
  | .ok i => exec i s
  | .error why => .refused (.reservedEncoding why)

/-- One event of the host. -/
def takeEvent (ev : HostEvent) (s : State) : Host.Outcome State Fault Refusal :=
  match ev with
  | .cmd blk w => takeCommand blk w s
  | .rst blk => .next (resetBlock blk s)
  | .readReg blk sel => .next (readReg blk sel s)
  | .readBuf blk idx => .next (readBuf blk idx s)

/-- One step. Nothing happens in an instance except as the effect of a command or of reset (R215), so without an event
the state stays as it is. -/
def step (s : State) : Host.Outcome State Fault Refusal :=
  match s.pending with
  | [] => .next s
  | ev :: rest => takeEvent ev (s.setPending rest)

/-- The bits of a row of the opcode table presented as the next event; bits that no format has leave the state as it
is. -/
def State.withFetchWord (s : State) (nbits w : Nat) : State :=
  match tableItem nbits w with
  | none => s
  | some item => present item s

end Sys2Proof.Machine
end

