-- ==== Sys2Proof/Machine/Calls.lean ====
section
/-! DEFINITION. The host's calls as a whole (spec/30_encoding.md R90 to R92): the command words, then the read of the
status register, then, if it shows `done`, the reads of the length and of the result. -/

namespace Sys2Proof.Machine

/-! ### Running a call -/

/-- As many steps as there are events, with those events as all the host does. -/
def runEvents (events : List HostEvent) (s : State) : Out :=
  Host.Core.run Sys2Proof.core events.length (s.setPending events)

/-- One part of a call after another; a refusal ends the call. -/
def thenOut {β : Type} (o : Out) (f : State → Host.Outcome β Fault Refusal) : Host.Outcome β Fault Refusal :=
  match o with
  | .next s => f s
  | .fault r => .fault r
  | .refused r => .refused r

/-- How a call ends: the state after its last read, and its result, `none` where the status shows no `done`. -/
abbrev CallOut (α : Type) := Host.Outcome (State × Option α) Fault Refusal

/-! ### The command words of a call -/

/-- The commands of `encode(text)` (R90). -/
def encodeCommands (text : List CodeUnit) : List HostEvent :=
  eventOf .encBegin :: text.map (fun u => eventOf (.encUnit u)) ++ [eventOf .encEnd]

/-- The command of `prepareDecode(expectedByteCount)` (R92). -/
def prepareCommands (n : Reg32) : List HostEvent := [eventOf (.decPrepare n)]

/-- The commands of `partialDecode(chunk, isFinalChunk)`: `fin` travels on the chunk's last byte, an empty chunk sends
nothing (R92). -/
def chunkCommands : List Byte → Bool → List HostEvent
  | [], _ => []
  | [b], final => [eventOf (.decByte b final)]
  | b :: rest, final => eventOf (.decByte b false) :: chunkCommands rest final

/-- The command of `finishDecode()` (R92). -/
def finishCommands : List HostEvent := [eventOf .decFinish]

/-! ### Reading the result -/

/-- The bit `done` of a status word (R30, R31). -/
def statusDone (w : Reg32) : Bool := w.getLsbD 2

/-- `n` reads of `ENC.OUT` from index `i` on, one after another (R46). -/
def readEncOut : Nat → Nat → State → State × List Byte
  | 0, _, s => (s, [])
  | n + 1, i, s =>
    let rest := readEncOut n (i + 1) (readBuf .enc (BitVec.ofNat 32 i) s)
    (rest.1, encBufData (BitVec.ofNat 32 i) s :: rest.2)

/-- `n` reads of `DEC.OUT` from index `i` on, one after another (R46). -/
def readDecOut : Nat → Nat → State → State × List CodeUnit
  | 0, _, s => (s, [])
  | n + 1, i, s =>
    let rest := readDecOut n (i + 1) (readBuf .dec (BitVec.ofNat 32 i) s)
    (rest.1, decBufData (BitVec.ofNat 32 i) s :: rest.2)

/-- The end of `encode`: `ENC_STATUS` is read; if `done`, the result is `(ENC.OUT[0:enc.len], enc.len)`, else there is
none (R90). -/
def readEncResult (s : State) : State × Option (List Byte × Reg32) :=
  let t := readReg .enc 0 s
  if statusDone (regData .enc 0 s) then
    let len := regData .enc 1 t
    let r := readEncOut len.toNat 0 (readReg .enc 1 t)
    (r.1, some (r.2, len))
  else (t, none)

/-- The end of `decode` and of `finishDecode`: `DEC_STATUS` is read; if `done`, the text is `DEC.OUT[0:dec.len]`, else
there is none (R91, R92). -/
def readDecResult (s : State) : State × Option (List CodeUnit) :=
  let t := readReg .dec 0 s
  if statusDone (regData .dec 0 s) then
    let r := readDecOut (regData .dec 1 t).toNat 0 (readReg .dec 1 t)
    (r.1, some r.2)
  else (t, none)

/-! ### The calls -/

/-- `encode(text) -> (bytes, length)` (R90). -/
def encodeCall (text : List CodeUnit) (s : State) : CallOut (List Byte × Reg32) :=
  thenOut (runEvents (encodeCommands text) s) fun t => .next (readEncResult t)

/-- `prepareDecode(expectedByteCount)` (R92). -/
def prepareDecode (n : Reg32) (s : State) : Out := runEvents (prepareCommands n) s

/-- `partialDecode(chunk, isFinalChunk)` (R92). -/
def partialDecode (chunk : List Byte) (final : Bool) (s : State) : Out := runEvents (chunkCommands chunk final) s

/-- `finishDecode() -> text` (R92). -/
def finishDecode (s : State) : CallOut (List CodeUnit) :=
  thenOut (runEvents finishCommands s) fun t => .next (readDecResult t)

/-- `decode(bytes, byteCount) -> text`: the first `byteCount` bytes of the caller's buffer, in the streaming mode with a
single chunk (R91; log entry 17 for a buffer that holds fewer). -/
def decodeCall (bytes : List Byte) (byteCount : Reg32) (s : State) : CallOut (List CodeUnit) :=
  thenOut (prepareDecode byteCount s) fun t =>
    thenOut (partialDecode (bytes.take byteCount.toNat) true t) finishDecode

/-- `partialDecode` of one chunk after another, none of them the final one (R92). -/
def partialChunks : List (List Byte) → State → Out
  | [], s => .next s
  | chunk :: rest, s => thenOut (partialDecode chunk false s) (partialChunks rest)

/-- A streaming decode: `prepareDecode`, the chunks with `isFinalChunk` on the last alone, `finishDecode` (R92). -/
def streamDecode (n : Reg32) (chunks : List (List Byte)) (last : List Byte) (s : State) : CallOut (List CodeUnit) :=
  thenOut (prepareDecode n s) fun t =>
    thenOut (partialChunks chunks t) fun u => thenOut (partialDecode last true u) finishDecode

end Sys2Proof.Machine
end

