-- ==== Sys2Proof/Safety.lean ====
section
/-! DEFINITION. The terms that claims about the core use: what a good state of an instance is (the invariants that
spec/10_state.md states rule by rule), when a command has room to run, and what a text and its symbols are. -/

namespace Sys2Proof.Machine

/-! ### Room for a command -/

/-- `n` elements fit in a buffer (R47). -/
abbrev capFits (cap : Option Nat) (n : Nat) : Bool := cap.all (fun c => n ≤ c)

/-- The encoder is inside a call with nothing pending, and a unit that gives `k` symbols has room (R14, R24, R47). -/
abbrev EncReady (s : State) (k : Nat) : Prop :=
  s.enc.phase = .active ∧ s.enc.hsv = false ∧ capFits s.caps.encScr (s.enc.spos.toNat + k) = true ∧
    s.enc.spos.toNat + k ≤ lenMax ∧ s.enc.ucnt.toNat < lenMax

/-- `k` more code units fit in `DEC.OUT` (R24, R47). -/
abbrev UnitsFit (cap : Option Nat) (d : Dec) (k : Nat) : Prop :=
  capFits cap (d.len.toNat + k) = true ∧ d.len.toNat + k ≤ lenMax

/-- The decoder is inside a call that has not seen its final byte, and a byte that gives `k` units has room (R14, R24,
R47, R156). -/
abbrev DecReady (s : State) (k : Nat) : Prop :=
  s.dec.phase = .active ∧ s.dec.fin = false ∧ UnitsFit s.caps.decOut s.dec k ∧ s.dec.bcnt.toNat < lenMax

/-! ### Which instruction belongs to which block -/

/-- `ENC_UNIT` and the ten unit classes. -/
def isUnitInstr : Instr → Bool
  | .encUnit _ => true
  | .eNul => true
  | .eOvl _ => true
  | .eBel => true
  | .eBs => true
  | .eCtl _ => true
  | .eLit _ => true
  | .eTwo _ _ => true
  | .eThree _ _ _ => true
  | .eHigh _ => true
  | .eLow _ => true
  | .encBegin => false
  | .encEnd => false
  | .decPrepare _ => false
  | .decByte _ _ => false
  | .decFinish => false
  | .dLead2 _ => false
  | .dLead3 _ => false
  | .dLead4 => false
  | .dInvalid _ => false
  | .dCtl _ => false
  | .dBs => false
  | .dBel => false
  | .dLit _ => false
  | .dNul => false
  | .dTrail _ => false
  | .pbyte _ _ => false

/-- `DEC_BYTE`, the byte on the wire and the ten symbol classes. -/
def isByteInstr : Instr → Bool
  | .decByte _ _ => true
  | .dLead2 _ => true
  | .dLead3 _ => true
  | .dLead4 => true
  | .dInvalid _ => true
  | .dCtl _ => true
  | .dBs => true
  | .dBel => true
  | .dLit _ => true
  | .dNul => true
  | .dTrail _ => true
  | .pbyte _ _ => true
  | .encBegin => false
  | .encUnit _ => false
  | .encEnd => false
  | .decPrepare _ => false
  | .decFinish => false
  | .eNul => false
  | .eOvl _ => false
  | .eBel => false
  | .eBs => false
  | .eCtl _ => false
  | .eLit _ => false
  | .eTwo _ _ => false
  | .eThree _ _ _ => false
  | .eHigh _ => false
  | .eLow _ => false

/-- The commands of `ENC`, the unit classes among them. -/
def isEncInstr (i : Instr) : Bool := isUnitInstr i || i == .encBegin || i == .encEnd

/-- The code unit that a unit command carries, 0 for any other instruction. -/
def unitOfInstr : Instr → CodeUnit
  | .encUnit u => u
  | .eNul => encodeUnit .nul
  | .eOvl raw => encodeUnit (.ovl raw)
  | .eBel => encodeUnit .bel
  | .eBs => encodeUnit .bs
  | .eCtl ch => encodeUnit (.ctl ch)
  | .eLit sym => encodeUnit (.lit sym)
  | .eTwo hi lo => encodeUnit (.two hi lo)
  | .eThree hi mid lo => encodeUnit (.three hi mid lo)
  | .eHigh payload => encodeUnit (.high payload)
  | .eLow payload => encodeUnit (.low payload)
  | .encBegin => 0
  | .encEnd => 0
  | .decPrepare _ => 0
  | .decByte _ _ => 0
  | .decFinish => 0
  | .dLead2 _ => 0
  | .dLead3 _ => 0
  | .dLead4 => 0
  | .dInvalid _ => 0
  | .dCtl _ => 0
  | .dBs => 0
  | .dBel => 0
  | .dLit _ => 0
  | .dNul => 0
  | .dTrail _ => 0
  | .pbyte _ _ => 0

/-- The symbol that a byte command carries directly, 0 for any other instruction (R67). -/
def symOfInstr : Instr → Sym
  | .decByte b _ => pbyteSym b
  | .pbyte _ sym => sym
  | .dLead2 h => encodeSym (.lead2 h)
  | .dLead3 h => encodeSym (.lead3 h)
  | .dLead4 => encodeSym .lead4
  | .dInvalid sym => encodeSym (.invalid sym)
  | .dCtl sym => encodeSym (.ctl sym)
  | .dBs => encodeSym .bs
  | .dBel => encodeSym .bel
  | .dLit sym => encodeSym (.lit sym)
  | .dNul => encodeSym .nul
  | .dTrail payload => encodeSym (.trail payload)
  | .encBegin => 0
  | .encUnit _ => 0
  | .encEnd => 0
  | .decPrepare _ => 0
  | .decFinish => 0
  | .eNul => 0
  | .eOvl _ => 0
  | .eBel => 0
  | .eBs => 0
  | .eCtl _ => 0
  | .eLit _ => 0
  | .eTwo _ _ => 0
  | .eThree _ _ _ => 0
  | .eHigh _ => 0
  | .eLow _ => 0

/-- The stolen bit that a byte command carries, 0 for a symbol class (log entry 3) and any other instruction (R67). -/
def hbOfInstr : Instr → Bool
  | .decByte b _ => pbyteHb b
  | .pbyte hb _ => hb
  | .dLead2 _ => false
  | .dLead3 _ => false
  | .dLead4 => false
  | .dInvalid _ => false
  | .dCtl _ => false
  | .dBs => false
  | .dBel => false
  | .dLit _ => false
  | .dNul => false
  | .dTrail _ => false
  | .encBegin => false
  | .encUnit _ => false
  | .encEnd => false
  | .decPrepare _ => false
  | .decFinish => false
  | .eNul => false
  | .eOvl _ => false
  | .eBel => false
  | .eBs => false
  | .eCtl _ => false
  | .eLit _ => false
  | .eTwo _ _ => false
  | .eThree _ _ _ => false
  | .eHigh _ => false
  | .eLow _ => false

/-! ### Invariants -/

/-- Exactly the elements below `n` are listed. -/
abbrev dense {w : Nat} (m : Memory w) (n : Nat) : Prop := m.map Prod.fst = List.range n

/-- What the rules say an encoder instance is like between commands. -/
structure EncInv (e : Enc) : Prop where
  /-- R17: without a pending surrogate the register is 0. -/
  hs_zero : e.hsv = false → e.hs = 0
  /-- R17: a pending surrogate is a high surrogate of an open call. -/
  hs_high : e.hsv = true → e.phase = .active ∧ isHighSurrogate e.hs = true
  /-- R111: the pending surrogate has been counted. -/
  hs_counted : e.hsv = true → e.ucnt ≠ 0
  /-- R37: outside ACTIVE every working register is 0. -/
  working_zero : e.phase ≠ .active → e.ucnt = 0 ∧ e.spos = 0
  /-- R12: outside DONE the result length is 0. -/
  len_zero : e.phase ≠ .done → e.len = 0
  /-- R30: the cause codes 4 to 7 are never written. -/
  cause_legal : e.cause.toNat ≤ 3
  /-- R26, R201: a cause is recorded in FAULTED and nowhere else. -/
  cause_faulted : e.cause ≠ 0 ↔ e.phase = .faulted
  /-- R201: without an error nothing is recorded. -/
  record_zero : e.phase ≠ .faulted → e.einfo = 0 ∧ e.eidx = 0
  /-- R41: `ENC.SCR` holds the symbols below the position. -/
  scr_dense : dense e.scr e.spos.toNat
  /-- R42: `ENC.OUT` holds the bytes below the length. -/
  out_dense : dense e.out e.len.toNat

/-- What the rules say a decoder instance is like between commands. -/
structure DecInv (d : Dec) : Prop where
  /-- R18: outside a code point the register is 0. -/
  cp_zero : d.rem = 0 → d.cp = 0
  /-- R13, R18: 21 bits. -/
  cp_bound : d.cp.toNat < 2 ^ 21
  /-- R18: the bits still owed are 0. -/
  cp_owed : d.cp.toNat % 2 ^ (7 * d.rem.toNat) = 0
  /-- R20: 0 to 6 between commands. -/
  stage_bound : d.stage.toNat ≤ 6
  /-- R19. -/
  stolen_bound : d.stolen.toNat < 2 ^ d.stage.toNat
  /-- R22. -/
  ph_lead : d.ph = true → d.rem = 1 ∧ d.cp = 0 ∧ d.stage = 0 ∧ d.stolen = 0
  /-- R37: outside ACTIVE every working register is 0. -/
  working_zero : d.phase ≠ .active →
    d.rem = 0 ∧ d.stage = 0 ∧ d.stolen = 0 ∧ d.ph = false ∧ d.fin = false ∧ d.bcnt = 0 ∧ d.expect = 0
  /-- R37, R206: no text before a call or after an error. -/
  len_zero : d.phase = .idle ∨ d.phase = .faulted → d.len = 0
  /-- R31: the cause codes 4 to 7 are never written. -/
  cause_legal : d.cause.toNat ≤ 3
  /-- R26, R202: a cause is recorded in FAULTED and nowhere else. -/
  cause_faulted : d.cause ≠ 0 ↔ d.phase = .faulted
  /-- R202: without an error nothing is recorded. -/
  record_zero : d.phase ≠ .faulted → d.einfo = 0 ∧ d.eidx = 0
  /-- R43, R189: `DEC.OUT` holds the units below the length. -/
  out_dense : dense d.out d.len.toNat

/-- R48 for the classifier: at most three symbols a unit, a pending surrogate still owing its own. -/
def EncBound (e : Enc) : Prop := e.spos.toNat + (if e.hsv then 3 else 0) ≤ 3 * e.ucnt.toNat

/-- R48 for the decoder: `n` bytes are `n + n / 7` symbols, each of at most one unit on the whole, and an open code
point has emitted none of its own. -/
def DecBound (d : Dec) : Prop :=
  d.phase = .active →
    d.stage.toNat = d.bcnt.toNat % 7 ∧
      d.len.toNat + (if d.rem = 0 then 0 else 1) ≤ d.bcnt.toNat + d.bcnt.toNat / 7

/-! ### Texts -/

/-- Well-formed UTF-16: every high surrogate directly before a low one, every low one directly after a high one
(R102, R187). `pending` says that the unit before was a high surrogate. -/
def wellFormedFrom (pending : Bool) : List CodeUnit → Bool
  | [] => !pending
  | u :: rest =>
    if pending then isLowSurrogate u && wellFormedFrom false rest
    else if isHighSurrogate u then wellFormedFrom true rest
    else !isLowSurrogate u && wellFormedFrom false rest

/-- A well-formed text (R102). -/
def wellFormedText (text : List CodeUnit) : Bool := wellFormedFrom false text

/-- The symbols column of R64: what a unit alone produces, by its value. -/
def unitSyms (u : CodeUnit) : List Sym :=
  let n := u.toNat
  let lo : Sym := u.extractLsb' 0 7
  if n = 0x0000 then [0x7F]
  else if n = 0x0007 then [0x1F]
  else if n = 0x0008 then [0x1E]
  else if 0x0009 ≤ n ∧ n ≤ 0x000D then [BitVec.ofNat 7 (n + 0x10)]
  else if 0x0020 ≤ n ∧ n ≤ 0x007E then [BitVec.ofNat 7 n]
  else if n < 0x0080 then [0x00, lo]
  else if n < 0x0800 then [BitVec.ofNat 7 (n / 128), lo]
  else if 0xD800 ≤ n ∧ n ≤ 0xDFFF then []
  else [BitVec.ofNat 7 (0x10 + n / 16384), BitVec.ofNat 7 (n / 128 % 128), lo]

/-- The four symbols of a surrogate pair, by R76 and R72. -/
def pairSyms (h l : CodeUnit) : List Sym :=
  let c := 0x10000 + (h.toNat - 0xD800) * 1024 + (l.toNat - 0xDC00)
  [0x14, BitVec.ofNat 7 (c / 16384), BitVec.ofNat 7 (c / 128 % 128), BitVec.ofNat 7 (c % 128)]

/-- `Classify` (R136) of a well-formed text: the symbols of its code points in order (R116). -/
def textSyms (pending : Option CodeUnit) : List CodeUnit → List Sym
  | [] => []
  | u :: rest =>
    match pending with
    | some h => pairSyms h u ++ textSyms none rest
    | none => if isHighSurrogate u then textSyms (some u) rest else unitSyms u ++ textSyms none rest

/-- Symbols through the accumulator one after another, each with whether it was stolen (R154, R170). -/
def feedSyms (cap : Option Nat) : List (Sym × Bool) → Dec → Result Dec
  | [], d => .ok d
  | (x, stolen) :: rest, d => (processSymbol cap x stolen d).andThen (feedSyms cap rest)

/-- A change of the next state, if there is one. -/
def mapNext (f : State → State) : Out → Out
  | .next s => .next (f s)
  | .fault r => .fault r
  | .refused r => .refused r

end Sys2Proof.Machine
end

