-- ==== Sys2Proof/Certificates/Slice0/Obligations.lean ====
section
/-! DEFINITION. The statements for the provers. Each docstring names the rules of spec/ it rests on. -/

open Sys2Proof Sys2Proof.Machine

/-- Decoding an encoded well-formed instruction gives it back, for all 27 instructions. Derived from 30_encoding.md
R60, R61, R62, R64, R65, R67, R77. -/
def Obligations.DecodeInvertsEncode : Prop :=
  ∀ i : Instr, i.wf = true → decode (encode i) = .ok i

/-- Every decodable word is the one encoding of the instruction it decodes to. Derived from 30_encoding.md R61, R62,
R63, R64, R65, R67. -/
def Obligations.EncodeInvertsDecode : Prop :=
  ∀ (item : Item) (i : Instr), decode item = .ok i → i.wf = true ∧ encode i = item

/-- Words written out from the encoding tables decode to their instructions. Derived from 30_encoding.md R79, R64,
R65, R67. -/
def Obligations.SampleWordsDecode : Prop :=
  decode (.cmd .enc 0x100000041) = .ok (.encUnit 0x0041) ∧
    decode (.cmd .dec 0x9000001C1) = .ok (.decByte 0xC1 true) ∧
    decode (.cmd .dec 0x80000000D) = .ok (.decPrepare 13) ∧
    decode (.unit16 0x20AC) = .ok (.eThree 0 0x41 0x2C) ∧
    decode (.unit16 0xD83D) = .ok (.eHigh 0x03D) ∧
    decode (.sym7 false 0x13) = .ok (.dLead3 3) ∧
    decode (.sym7 true 0x13) = .ok (.dTrail 0x13) ∧
    decode (.pbyte8 0xC1) = .ok (.pbyte true 0x41)

/-- A reserved op or a 1 in a must-be-0 bit makes the step a refusal by name. Formalises R63. -/
def Obligations.ReservedCommandWordsAreRefused : Prop :=
  ∀ (s : State) (rest : List HostEvent) (w : CmdWord),
    (s.pending = .cmd .enc w :: rest →
      (((cmdOp w).toNat ≠ 0 ∧ (cmdOp w).toNat ≠ 1 ∧ (cmdOp w).toNat ≠ 2 →
          step s = .refused (.reservedEncoding .reservedOp)) ∧
        (((cmdOp w).toNat = 0 ∨ (cmdOp w).toNat = 2) ∧ (cmdArg w).toNat ≠ 0 →
          step s = .refused (.reservedEncoding .nonzeroMustBeZero)) ∧
        ((cmdOp w).toNat = 1 ∧ 2 ^ 16 ≤ (cmdArg w).toNat →
          step s = .refused (.reservedEncoding .nonzeroMustBeZero)))) ∧
    (s.pending = .cmd .dec w :: rest →
      (((cmdOp w).toNat ≠ 8 ∧ (cmdOp w).toNat ≠ 9 ∧ (cmdOp w).toNat ≠ 10 →
          step s = .refused (.reservedEncoding .reservedOp)) ∧
        ((cmdOp w).toNat = 10 ∧ (cmdArg w).toNat ≠ 0 →
          step s = .refused (.reservedEncoding .nonzeroMustBeZero)) ∧
        ((cmdOp w).toNat = 9 ∧ 2 ^ 9 ≤ (cmdArg w).toNat →
          step s = .refused (.reservedEncoding .nonzeroMustBeZero))))

/-- Every code unit matches exactly one UNIT16 row of the opcode table, of the class the decoder gives. Derived from
30_encoding.md opening and R64, opcode_table.json. -/
def Obligations.UnitRowsPartitionTheUnits : Prop :=
  ∀ u : CodeUnit, (unitRows.filter (·.matches u)).map (·.cls) = [(decodeUnit u).cls]

/-- Every symbol matches exactly one SYM7 row of the opcode table, of the class the decoder gives. Derived from
30_encoding.md opening and R65, opcode_table.json. -/
def Obligations.SymbolRowsPartitionTheSymbols : Prop :=
  ∀ x : Sym, (symRows.filter (·.matches x)).map (·.cls) = [(decodeSym false x).cls]

/-- A step runs the command decoded from the word on the port. Derived from 00_scope.md R6, 20_memory.md R53, R55,
log entry 2. -/
def Obligations.StepRunsTheDecodedCommand : Prop :=
  ∀ (s : State) (blk : Block) (w : CmdWord) (rest : List HostEvent) (i : Instr),
    s.pending = .cmd blk w :: rest → decode (.cmd blk w) = .ok i → step s = exec i (s.setPending rest)

/-- Running a class of the opcode table is taking the command that carries it. Derived from 30_encoding.md opening,
40_enc_classifier.md section 3, 42_dec_unpacker.md R152, log entry 3. That a class runs as the command that carries
it is the model's reading, log entry 3. -/
def Obligations.ClassesRunAsTheCommandThatCarriesThem : Prop :=
  ∀ (i : Instr) (s : State), i.wf = true → takeEvent (eventOf i) s = exec i s

/-- A word of the opcode table presented to the machine is what the next step runs. Derived from 30_encoding.md
opening, log entries 4 and 5. If the bits of a row stand for an item and the item decodes to an instruction, then
the step after withFetchWord is exec of that instruction, at the state itself for a command word and at the state
with the block's call open for a class (the model's choice, log entry 5). -/
def Obligations.TableWordsRunAtTheNextStep : Prop :=
  ∀ (nbits w : Nat) (item : Item) (i : Instr) (s : State),
    tableItem nbits w = some item → decode item = .ok i →
      step (s.withFetchWord nbits w) = exec i (openFor item s)

/-- ENC_BEGIN leaves phase ACTIVE, every other register 0 and status 1, from any state. Formalises R100. -/
def Obligations.EncBeginOpensACall : Prop :=
  ∀ s : State,
    let opened : Enc :=
      { phase := .active, hsv := false, hs := 0, ucnt := 0, spos := 0, len := 0, cause := 0, einfo := 0, eidx := 0,
        scr := [], out := [] }
    exec .encBegin s = .next (s.setEnc opened) ∧ encReg opened 0 = 0x00000001 ∧
      encode .encBegin = .cmd .enc 0x000000000

/-- E.LIT, E.CTL, E.NUL, E.BEL and E.BS append their one symbol. Derived from 40_enc_classifier.md R103, R104, R105,
R106, R107, R101, R114, log entry 3. That the class runs as the whole ENC_UNIT, and so counts the unit, is the
model's reading, log entry 3. -/
def Obligations.OneSymbolClassesAppendTheirSymbol : Prop :=
  ∀ s : State, EncReady s 1 →
    let after (x : Sym) : Out :=
      .next (s.setEnc { s.enc with
        scr := memWrite s.enc.scr s.enc.spos.toNat x, spos := s.enc.spos + 1, ucnt := s.enc.ucnt + 1 })
    (∀ sym : Sym, isPrintable sym = true → exec (.eLit sym) s = after sym) ∧
      (∀ ch : Sym, isShiftedControl ch = true → exec (.eCtl ch) s = after (BitVec.ofNat 7 (ch.toNat + 16))) ∧
      exec .eNul s = after 0x7F ∧ exec .eBel s = after 0x1F ∧ exec .eBs s = after 0x1E

/-- E.OVL and E.TWO append a lead and one trailer. Derived from 40_enc_classifier.md R108, R109, R101, R114, log
entry 3. -/
def Obligations.TwoSymbolClassesAppendTheirSymbols : Prop :=
  ∀ s : State, EncReady s 2 →
    let after (x y : Sym) : Out :=
      .next (s.setEnc { s.enc with
        scr := memWrite (memWrite s.enc.scr s.enc.spos.toNat x) (s.enc.spos.toNat + 1) y, spos := s.enc.spos + 2,
        ucnt := s.enc.ucnt + 1 })
    (∀ raw : Sym, isOverlongControl raw = true → exec (.eOvl raw) s = after 0x00 raw) ∧
      ∀ (hi : BitVec 4) (lo : Sym), hi ≠ 0 → exec (.eTwo hi lo) s = after (BitVec.ofNat 7 hi.toNat) lo

/-- E.THREE appends a lead and two trailers. Derived from 40_enc_classifier.md R110, R101, R114, log entry 3. -/
def Obligations.ThreeSymbolClassAppendsItsSymbols : Prop :=
  ∀ (s : State) (hi : BitVec 2) (mid lo : Sym), EncReady s 3 → isThreeSymbol hi mid lo = true →
    exec (.eThree hi mid lo) s =
      .next (s.setEnc { s.enc with
        scr :=
          memWrite
            (memWrite (memWrite s.enc.scr s.enc.spos.toNat (BitVec.ofNat 7 (16 + hi.toNat))) (s.enc.spos.toNat + 1) mid)
            (s.enc.spos.toNat + 2) lo,
        spos := s.enc.spos + 3, ucnt := s.enc.ucnt + 1 })

/-- A high surrogate writes no symbol and becomes the pending one. Formalises R111. -/
def Obligations.HighSurrogateWaits : Prop :=
  ∀ (s : State) (payload : BitVec 10),
    s.enc.phase = .active → s.enc.hsv = false → s.enc.ucnt.toNat < lenMax →
      let u : CodeUnit := BitVec.ofNat 16 (0xD800 + payload.toNat)
      let after : Out := .next (s.setEnc { s.enc with hsv := true, hs := u, ucnt := s.enc.ucnt + 1 })
      exec (.eHigh payload) s = after ∧ exec (.encUnit u) s = after

/-- A low surrogate completes a pending pair, and is LONE_LOW without one. Derived from 40_enc_classifier.md R112,
R101, 60_exceptions.md R201, R206, log entries 3 and 11. That E.LOW runs as the whole ENC_UNIT and so counts its
unit is the model's reading (log entry 3), and so is that a LONE_LOW at enc.ucnt = 2^32 - 1 faults and is not
refused (log entry 11). -/
def Obligations.LowSurrogateCompletesThePairOrFaults : Prop :=
  ∀ (s : State) (payload : BitVec 10), s.enc.phase = .active →
    let u : CodeUnit := BitVec.ofNat 16 (0xDC00 + payload.toNat)
    (s.enc.hsv = true → isHighSurrogate s.enc.hs = true →
      capFits s.caps.encScr (s.enc.spos.toNat + 4) = true → s.enc.spos.toNat + 4 ≤ lenMax → s.enc.ucnt.toNat < lenMax →
        let after : Out :=
          .next (s.setEnc { s.enc with
            scr := memWriteAll s.enc.scr s.enc.spos.toNat (pairSyms s.enc.hs u), spos := s.enc.spos + 4, hsv := false,
            hs := 0, ucnt := s.enc.ucnt + 1 })
        exec (.eLow payload) s = after ∧ exec (.encUnit u) s = after) ∧
      (s.enc.hsv = false →
        let after : Out :=
          .next (s.setEnc
            { phase := .faulted, hsv := false, hs := 0, ucnt := 0, spos := 0, len := 0, cause := 3, einfo := u,
              eidx := s.enc.ucnt, scr := [], out := [] })
        exec (.eLow payload) s = after ∧ exec (.encUnit u) s = after)

/-- Any unit but a low surrogate after a pending high one is HIGH_NOT_LOW. Derived from 40_enc_classifier.md R113,
60_exceptions.md R201, R206, log entries 3 and 11. That a class runs as the whole ENC_UNIT is the model's reading
(log entry 3), and so is that the error comes before the counter's limit (log entry 11). -/
def Obligations.UnitAfterPendingHighMustBeLow : Prop :=
  ∀ (s : State) (i : Instr),
    isUnitInstr i = true → s.enc.phase = .active → s.enc.hsv = true → isLowSurrogate (unitOfInstr i) = false →
      exec i s =
        .next (s.setEnc
          { phase := .faulted, hsv := false, hs := 0, ucnt := 0, spos := 0, len := 0, cause := 2,
            einfo := unitOfInstr i, eidx := s.enc.ucnt, scr := [], out := [] })

/-- ENC_UNIT of any unit outside the surrogates appends the symbols that R64 lists for it. Derived from
40_enc_classifier.md R101, R114, 30_encoding.md R64. -/
def Obligations.EncUnitAppendsTheSymbolsOfItsUnit : Prop :=
  ∀ (s : State) (u : CodeUnit),
    isHighSurrogate u = false → isLowSurrogate u = false → EncReady s (unitSyms u).length →
      exec (.encUnit u) s =
        .next (s.setEnc { s.enc with
          scr := memWriteAll s.enc.scr s.enc.spos.toNat (unitSyms u),
          spos := s.enc.spos + BitVec.ofNat 32 (unitSyms u).length, ucnt := s.enc.ucnt + 1 })

/-- ENC_UNIT and every unit class answer a next state in a call with room. Derived from 10_state.md R14,
40_enc_classifier.md R101, 20_memory.md R47, log entry 3. That a class runs as the ENC_UNIT that carries it is the
model's reading (log entry 3). -/
def Obligations.UnitCommandsCompleteWithRoom : Prop :=
  ∀ (s : State) (i : Instr),
    isUnitInstr i = true → s.enc.phase = .active → capFits s.caps.encScr (s.enc.spos.toNat + 4) = true →
      s.enc.spos.toNat + 4 ≤ lenMax → s.enc.ucnt.toNat < lenMax → ∃ t : State, exec i s = .next t

/-- What a unit that raises no error leaves unchanged. Derived from 40_enc_classifier.md R101, R114, 20_memory.md
R45, 10_state.md R12, log entry 3. That a class runs as the ENC_UNIT that carries it is the model's reading (log
entry 3). -/
def Obligations.UnitCommandFrame : Prop :=
  ∀ (i : Instr) (s t : State),
    isUnitInstr i = true → i.wf = true → s.enc.phase = .active → exec i s = .next t → t.enc.phase = .active →
      let k := if s.enc.hsv then 4 else (unitSyms (unitOfInstr i)).length
      (∀ a : Nat, ¬(s.enc.spos.toNat ≤ a ∧ a < s.enc.spos.toNat + k) → memRead t.enc.scr a = memRead s.enc.scr a) ∧
        t.enc.spos.toNat = s.enc.spos.toNat + k ∧ t.enc.ucnt.toNat = s.enc.ucnt.toNat + 1 ∧
        (∀ a : Nat, memRead t.enc.out a = memRead s.enc.out a) ∧
        t.enc.len = s.enc.len ∧ t.enc.cause = s.enc.cause ∧ t.enc.einfo = s.enc.einfo ∧ t.enc.eidx = s.enc.eidx ∧
        t.dec = s.dec ∧ t.caps = s.caps ∧ t.pending = s.pending ∧ t.lastRead = s.lastRead ∧ t.draws = s.draws

/-- A successful ENC_END writes the packed symbols and their byte count, and clears the call. Derived from
41_enc_packer.md R130, 10_state.md R37, log entry 7. Nothing else changes but the model's draw counter (log entry
7). -/
def Obligations.EncEndPacksTheScratchArea : Prop :=
  ∀ (s : State) (S : List Sym),
    s.enc.phase = .active → s.enc.hsv = false → S.length = s.enc.spos.toNat →
      (∀ j : Nat, j < S.length → memRead s.enc.scr j = S[j]?) →
      capFits s.caps.encOut (7 * (S.length / 8) + S.length % 8) = true →
        exec .encEnd s =
          .next ({ s with draws := s.draws + 1 }.setEnc { s.enc with
            out := memWriteAll s.enc.out 0 (pack S), len := BitVec.ofNat 32 (7 * (S.length / 8) + S.length % 8),
            scr := [], spos := 0, ucnt := 0, hsv := false, hs := 0, phase := .done })

/-- Pack cuts full groups of eight from the front, with the stolen bits of R133, and a plain tail. Formalises R132,
R133, R135. -/
def Obligations.PackCutsGroupsAndTail : Prop :=
  (∀ (g rest : List Sym) (s7 : Sym), g.length = 7 →
      pack (g ++ s7 :: rest) =
        (g.zipIdx.map fun p => p.1.setWidth 8 ||| (((s7 >>> (6 - p.2)) &&& 1).setWidth 8 <<< 7)) ++ pack rest) ∧
    ∀ S : List Sym, S.length < 8 → pack S = S.map fun x => x.setWidth 8

/-- m symbols pack into 7 * (m / 8) + m mod 8 bytes. Formalises R134. -/
def Obligations.PackedLength : Prop :=
  ∀ S : List Sym, (pack S).length = 7 * (S.length / 8) + S.length % 8

/-- ENC_END with a pending high surrogate is TRAILING_HIGH. Derived from 41_enc_packer.md R131, 60_exceptions.md
R201, R206, log entries 7 and 14. Beside it the model's own draw counter moves, which is the model's choice (log
entry 7). At enc.ucnt = 0, which no reachable state has with a pending surrogate, the index wraps, which is the
model's reading (log entry 14). -/
def Obligations.TrailingHighSurrogateFaults : Prop :=
  ∀ s : State, s.enc.phase = .active → s.enc.hsv = true →
    exec .encEnd s =
      .next ({ s with draws := s.draws + 1 }.setEnc
        { phase := .faulted, hsv := false, hs := 0, ucnt := 0, spos := 0, len := 0, cause := 1, einfo := s.enc.hs,
          eidx := s.enc.ucnt - 1, scr := [], out := [] })

/-- The phase table: which command has a meaning when, and where it leaves the phase. Derived from 10_state.md R14,
42_dec_unpacker.md R150, R151, log entries 3 and 12. That the classes follow the rows of the commands that carry
them is the model's reading (log entry 3). That DEC_PREPARE n answers whatever the capacity is the model's choice
(log entry 12). -/
def Obligations.PhaseTable : Prop :=
  ∀ s : State,
    ((∃ t : State, exec .encBegin s = .next t ∧ t.enc.phase = .active) ∧
      ∀ i : Instr, isUnitInstr i = true ∨ i = .encEnd →
        (s.enc.phase = .idle ∨ s.enc.phase = .done → exec i s = .refused .outsideCall) ∧
          (s.enc.phase = .faulted → exec i s = .next s) ∧
          ∀ t : State, s.enc.phase = .active → exec i s = .next t →
            t.enc.phase = .faulted ∨ t.enc.phase = if i = .encEnd then .done else .active) ∧
    ((∀ n : Reg32, ∃ t : State, exec (.decPrepare n) s = .next t ∧ t.dec.phase = .active) ∧
      ∀ i : Instr, isByteInstr i = true ∨ i = .decFinish →
        (s.dec.phase = .idle ∨ s.dec.phase = .done → exec i s = .refused .outsideCall) ∧
          (s.dec.phase = .faulted → exec i s = .next s) ∧
          ∀ t : State, s.dec.phase = .active → exec i s = .next t →
            t.dec.phase = .faulted ∨ t.dec.phase = if i = .decFinish then .done else .active)

/-- No command of one block reads or writes state of the other. Derived from 00_scope.md R6, 10_state.md R10,
60_exceptions.md R221. -/
def Obligations.BlocksAreIsolated : Prop :=
  ∀ (i : Instr) (s : State),
    (isEncInstr i = true →
      (∀ t : State, exec i s = .next t → t.dec = s.dec) ∧
        ∀ d : Dec, exec i (s.setDec d) = mapNext (fun t => t.setDec d) (exec i s)) ∧
    (isEncInstr i = false →
      (∀ t : State, exec i s = .next t → t.enc = s.enc) ∧
        ∀ e : Enc, exec i (s.setEnc e) = mapNext (fun t => t.setEnc e) (exec i s))

/-- No instruction changes the capacities, the coming events or the last read. Derived from 00_scope.md R3, R6,
10_state.md R38, log entries 2, 6, 7, 9. When an instruction answers, the capacity parameters, the host's coming
events and the last read result are unchanged; the draw counter is unchanged but for ENC_END, which counts at most
one draw (log entry 7). -/
def Obligations.InstructionsLeaveTheHostSideAlone : Prop :=
  ∀ (i : Instr) (s t : State), exec i s = .next t →
    t.caps = s.caps ∧ t.pending = s.pending ∧ t.lastRead = s.lastRead ∧
      if i = .encEnd then t.draws = s.draws ∨ t.draws = s.draws + 1 else t.draws = s.draws

/-- An encoding error clears the encoder, keeps the record, and has the cause its command can raise. Derived from
60_exceptions.md R200, R201, R203, R204, R206, log entries 3 and 14. That a class raises what the ENC_UNIT that
carries it raises is the model's reading (log entry 3), and so is the index that wraps at enc.ucnt = 0 (log entry
14). -/
def Obligations.EncodingErrorsAreEnteredAndRecorded : Prop :=
  ∀ (i : Instr) (s t : State),
    exec i s = .next t → s.enc.phase ≠ .faulted → t.enc.phase = .faulted →
      t.enc =
          { phase := .faulted, hsv := false, hs := 0, ucnt := 0, spos := 0, len := 0, cause := t.enc.cause,
            einfo := t.enc.einfo, eidx := t.enc.eidx, scr := [], out := [] } ∧
        ((isUnitInstr i = true ∧ t.enc.einfo = unitOfInstr i ∧ t.enc.eidx = s.enc.ucnt ∧
            ((t.enc.cause = 2 ∧ s.enc.hsv = true ∧ isLowSurrogate (unitOfInstr i) = false) ∨
              (t.enc.cause = 3 ∧ s.enc.hsv = false ∧ isLowSurrogate (unitOfInstr i) = true))) ∨
          (i = .encEnd ∧ t.enc.cause = 1 ∧ s.enc.hsv = true ∧ t.enc.einfo = s.enc.hs ∧
            t.enc.eidx = s.enc.ucnt - 1))

/-- A decoding error clears the decoder, keeps the record, and has the cause its command can raise. Derived from
60_exceptions.md R200, R202, R203, R204, R205, R206, 43_dec_accumulator.md R180, R184, R185, 42_dec_unpacker.md
R155, log entry 3. That a class raises what the DEC_BYTE that carries it raises is the model's reading (log entry
3). -/
def Obligations.DecodingErrorsAreEnteredAndRecorded : Prop :=
  ∀ (i : Instr) (s t : State),
    i.wf = true → DecInv s.dec → exec i s = .next t → s.dec.phase ≠ .faulted → t.dec.phase = .faulted →
      let direct : Sym := symOfInstr i
      let stolen : Sym := (BitVec.concat (s.dec.stolen.extractLsb' 0 7) (hbOfInstr i)).extractLsb' 0 7
      let c : Reg32 := s.dec.cp ||| (direct.setWidth 32 <<< (7 * (s.dec.rem.toNat - 1)))
      let c2 : Reg32 := c ||| stolen.setWidth 32
      t.dec =
          { phase := .faulted, rem := 0, cp := 0, stage := 0, stolen := 0, ph := false, fin := false, bcnt := 0,
            expect := 0, len := 0, cause := t.dec.cause, einfo := t.dec.einfo, eidx := s.dec.bcnt, out := [] } ∧
        ((isByteInstr i = true ∧ t.dec.cause = 1 ∧
            if s.dec.rem = 0 ∧ isInvalidSymbol direct = true then t.dec.einfo.toNat = direct.toNat
            else s.dec.stage = 6 ∧ isInvalidSymbol stolen = true ∧ t.dec.einfo.toNat = stolen.toNat + 2 ^ 24) ∨
          (isByteInstr i = true ∧ t.dec.cause = 3 ∧
            if s.dec.rem = 1 then 0x10FFFF < c.toNat ∧ t.dec.einfo.toNat = c.toNat
            else s.dec.stage = 6 ∧ s.dec.rem = 2 ∧ 0x10FFFF < c2.toNat ∧ t.dec.einfo.toNat = c2.toNat + 2 ^ 24) ∨
          (i = .decFinish ∧ t.dec.cause = 2 ∧ s.dec.rem ≠ 0 ∧ s.dec.ph = false ∧
            t.dec.einfo.toNat = s.dec.cp.toNat + s.dec.rem.toNat * 2 ^ 28))

/-- An append past a capacity, or a counter past its end, refuses the command. Derived from 20_memory.md R47,
10_state.md R24, 40_enc_classifier.md R101, R112, R114, 41_enc_packer.md R130, 42_dec_unpacker.md R152, log entries
10 and 11. That the first limit or error in the order of the pseudocode decides is the model's reading (log entries
10 and 11). -/
def Obligations.LimitsRefuseTheWholeCommand : Prop :=
  ∀ s : State,
    (∀ u : CodeUnit, s.enc.phase = .active → s.enc.hsv = false →
      let after := s.enc.spos.toNat + (unitSyms u).length
      (unitSyms u ≠ [] → capFits s.caps.encScr after = false → exec (.encUnit u) s = .refused .bufferFull) ∧
      (capFits s.caps.encScr after = true → lenMax < after → exec (.encUnit u) s = .refused .counterLimit) ∧
      (isLowSurrogate u = false → capFits s.caps.encScr after = true → after ≤ lenMax → s.enc.ucnt.toNat = lenMax →
        exec (.encUnit u) s = .refused .counterLimit)) ∧
    (∀ u : CodeUnit, s.enc.phase = .active → s.enc.hsv = true → isLowSurrogate u = true →
      let after := s.enc.spos.toNat + 4
      (capFits s.caps.encScr after = false → exec (.encUnit u) s = .refused .bufferFull) ∧
      (capFits s.caps.encScr after = true → lenMax < after → exec (.encUnit u) s = .refused .counterLimit) ∧
      (capFits s.caps.encScr after = true → after ≤ lenMax → s.enc.ucnt.toNat = lenMax →
        exec (.encUnit u) s = .refused .counterLimit)) ∧
    (s.enc.phase = .active → s.enc.hsv = false →
      capFits s.caps.encOut (7 * (s.enc.spos.toNat / 8) + s.enc.spos.toNat % 8) = false →
        exec .encEnd s = .refused .bufferFull) ∧
    ∀ (b : Byte) (fin : Bool), s.dec.phase = .active → s.dec.fin = false →
      let cap := s.caps.decOut
      let begun : Dec :=
        { s.dec with
          stolen := BitVec.concat (s.dec.stolen.extractLsb' 0 7) (b.getLsbD 7), stage := s.dec.stage + 1 }
      (∀ why : Refusal, processSymbol cap (b.extractLsb' 0 7) false begun = .refused why →
        exec (.decByte b fin) s = .refused why) ∧
      ∀ d : Dec, processSymbol cap (b.extractLsb' 0 7) false begun = .ok d →
        (s.dec.stage ≠ 6 → s.dec.bcnt.toNat = lenMax → exec (.decByte b fin) s = .refused .counterLimit) ∧
        (s.dec.stage = 6 →
          let cleared : Dec := { d with stolen := 0, stage := 0 }
          (∀ why : Refusal, processSymbol cap (d.stolen.extractLsb' 0 7) true cleared = .refused why →
            exec (.decByte b fin) s = .refused why) ∧
          ∀ d2 : Dec, processSymbol cap (d.stolen.extractLsb' 0 7) true cleared = .ok d2 →
            s.dec.bcnt.toNat = lenMax → exec (.decByte b fin) s = .refused .counterLimit)

/-- A command that answers with finite buffers answers the same with unbounded ones. Derived from 00_scope.md R4,
20_memory.md R47. -/
def Obligations.CapacityNeverChangesAResult : Prop :=
  ∀ (i : Instr) (s t : State), exec i s = .next t →
    exec i { s with caps := { encScr := none, encOut := none, decOut := none } } =
      .next { t with caps := { encScr := none, encOut := none, decOut := none } }

/-- DEC_PREPARE n leaves phase ACTIVE, dec.expect = n and every other register 0, from any state. Derived from
42_dec_unpacker.md R150, R151, log entry 12. That it answers whatever the hint and a finite capacity is the model's
choice, since R151 permits an early refusal (log entry 12). -/
def Obligations.DecPrepareOpensACall : Prop :=
  ∀ (s : State) (n : Reg32),
    let opened : Dec :=
      { phase := .active, rem := 0, cp := 0, stage := 0, stolen := 0, ph := false, fin := false, bcnt := 0,
        expect := n, len := 0, cause := 0, einfo := 0, eidx := 0, out := [] }
    exec (.decPrepare n) s = .next (s.setDec opened) ∧ decReg opened 0 = 0x00000001 ∧ decReg opened 5 = n ∧
      encode (.decPrepare n) = .cmd .dec (0x8#4 ++ n)

/-- DEC_BYTE shifts in the stolen bit, processes the direct symbol, then after the seventh byte the stolen one.
Derived from 42_dec_unpacker.md R152, R154, R155, log entries 11 and 14. That an error comes before the counter's
limit is the model's reading (log entry 11), and so is what happens at stage 7, which no reachable state has (log
entry 14). -/
def Obligations.DecByteProcessesDirectThenStolen : Prop :=
  ∀ (s : State) (b : Byte) (fin : Bool), s.dec.phase = .active → s.dec.fin = false →
    let cap := s.caps.decOut
    let begun : Dec :=
      { s.dec with
        stolen := BitVec.concat (s.dec.stolen.extractLsb' 0 7) (b.getLsbD 7), stage := s.dec.stage + 1 }
    let counted (d : Dec) : Out := .next (s.setDec { d with bcnt := d.bcnt + 1, fin := fin })
    (∀ d : Dec, processSymbol cap (b.extractLsb' 0 7) false begun = .raised d →
      exec (.decByte b fin) s = .next (s.setDec d)) ∧
    ∀ d : Dec, processSymbol cap (b.extractLsb' 0 7) false begun = .ok d →
      (s.dec.stage ≠ 6 → s.dec.bcnt.toNat < lenMax → exec (.decByte b fin) s = counted d) ∧
      (s.dec.stage = 6 →
        let cleared : Dec := { d with stolen := 0, stage := 0 }
        (∀ d2 : Dec, processSymbol cap (d.stolen.extractLsb' 0 7) true cleared = .raised d2 →
          exec (.decByte b fin) s = .next (s.setDec d2)) ∧
        ∀ d2 : Dec, processSymbol cap (d.stolen.extractLsb' 0 7) true cleared = .ok d2 →
          s.dec.bcnt.toNat < lenMax → exec (.decByte b fin) s = counted d2)

/-- A literal, a shifted control, NUL, BEL and BS each emit one code unit, direct or stolen. Formalises R172, R173,
R174, R175, R176. -/
def Obligations.SingleSymbolsEmitTheirUnit : Prop :=
  ∀ (cap : Option Nat) (stolen : Bool) (d : Dec), d.rem = 0 → UnitsFit cap d 1 →
    let after (w : CodeUnit) : Result Dec :=
      .ok { d with ph := false, out := memWrite d.out d.len.toNat w, len := d.len + 1 }
    (∀ x : Sym, isPrintable x = true → processSymbol cap x stolen d = after (BitVec.ofNat 16 x.toNat)) ∧
      (∀ x : Sym, isControlSymbol x = true →
        processSymbol cap x stolen d = after (BitVec.ofNat 16 (x.toNat - 0x10))) ∧
      processSymbol cap 0x7F stolen d = after 0x0000 ∧ processSymbol cap 0x1F stolen d = after 0x0007 ∧
      processSymbol cap 0x1E stolen d = after 0x0008

/-- A lead sets the trailers owed and seeds its bits; only a stolen 0x00 sets the phantom flag. Formalises R177,
R178, R179. -/
def Obligations.LeadSymbolsOpenACodePoint : Prop :=
  ∀ (cap : Option Nat) (stolen : Bool) (d : Dec) (x : Sym), d.rem = 0 →
    (x.toNat ≤ 0x0F → processSymbol cap x stolen d =
      .ok { d with ph := stolen && x == 0, rem := 1, cp := BitVec.ofNat 32 (x.toNat * 2 ^ 7) }) ∧
    (0x10 ≤ x.toNat → x.toNat ≤ 0x13 → processSymbol cap x stolen d =
      .ok { d with ph := false, rem := 2, cp := BitVec.ofNat 32 ((x.toNat - 0x10) * 2 ^ 14) }) ∧
    (x = 0x14 → processSymbol cap x stolen d = .ok { d with ph := false, rem := 3, cp := 0 })

/-- A symbol 0x15 to 0x18 where one is classified raises INVALID_SYMBOL, direct or stolen. Formalises R180. -/
def Obligations.InvalidSymbolRaises : Prop :=
  ∀ (cap : Option Nat) (stolen : Bool) (d : Dec) (x : Sym), d.rem = 0 → isInvalidSymbol x = true →
    processSymbol cap x stolen d =
      .raised
        { phase := .faulted, rem := 0, cp := 0, stage := 0, stolen := 0, ph := false, fin := false, bcnt := 0,
          expect := 0, len := 0, cause := 1,
          einfo := BitVec.ofNat 32 (x.toNat + if stolen then 2 ^ 24 else 0), eidx := d.bcnt, out := [] }

/-- A trailer ors in its 7 bits; the last one emits a unit, a surrogate pair, or raises CP_RANGE. Formalises R181,
R182, R183, R184. -/
def Obligations.TrailersGatherAndEmit : Prop :=
  ∀ (cap : Option Nat) (stolen : Bool) (d : Dec) (x : Sym), d.rem ≠ 0 →
    let c : Reg32 := d.cp ||| (x.setWidth 32 <<< (7 * (d.rem.toNat - 1)))
    let v := c.toNat - 0x10000
    (d.rem ≠ 1 → processSymbol cap x stolen d = .ok { d with ph := false, rem := d.rem - 1, cp := c }) ∧
    (d.rem = 1 → c.toNat < 0x10000 → UnitsFit cap d 1 → processSymbol cap x stolen d =
      .ok { d with
        ph := false, rem := 0, cp := 0, out := memWrite d.out d.len.toNat (BitVec.ofNat 16 c.toNat),
        len := d.len + 1 }) ∧
    (d.rem = 1 → 0x10000 ≤ c.toNat → c.toNat ≤ 0x10FFFF → UnitsFit cap d 2 → processSymbol cap x stolen d =
      .ok { d with
        ph := false, rem := 0, cp := 0,
        out :=
          memWrite (memWrite d.out d.len.toNat (BitVec.ofNat 16 (0xD800 + v / 1024))) (d.len.toNat + 1)
            (BitVec.ofNat 16 (0xDC00 + v % 1024)),
        len := d.len + 2 }) ∧
    (d.rem = 1 → 0x10000 ≤ c.toNat → c.toNat ≤ 0x10FFFF → capFits cap (d.len.toNat + 2) = false →
      d.len.toNat + 2 ≤ lenMax → processSymbol cap x stolen d = .refused .bufferFull) ∧
    (d.rem = 1 → 0x10FFFF < c.toNat → processSymbol cap x stolen d =
      .raised
        { phase := .faulted, rem := 0, cp := 0, stage := 0, stolen := 0, ph := false, fin := false, bcnt := 0,
          expect := 0, len := 0, cause := 3,
          einfo := BitVec.ofNat 32 (c.toNat % 2 ^ 21 + if stolen then 2 ^ 24 else 0), eidx := d.bcnt, out := [] })

/-- D.LIT, D.CTL, D.NUL, D.BEL, D.BS, and DEC_BYTE and PBYTE of a literal, emit one unit. Derived from
43_dec_accumulator.md R172, R173, R174, R175, R176, 42_dec_unpacker.md R152, log entry 3. That a class runs as the
DEC_BYTE that carries it is the model's reading, log entry 3. -/
def Obligations.SingleSymbolBytesEmitTheirUnit : Prop :=
  ∀ s : State, DecReady s 1 → s.dec.rem = 0 → s.dec.stage.toNat < 6 →
    let after (hb fin : Bool) (w : CodeUnit) : Out :=
      .next (s.setDec { s.dec with
        ph := false, out := memWrite s.dec.out s.dec.len.toNat w, len := s.dec.len + 1,
        stolen := BitVec.concat (s.dec.stolen.extractLsb' 0 7) hb, stage := s.dec.stage + 1, bcnt := s.dec.bcnt + 1,
        fin := fin })
    (∀ sym : Sym, isPrintable sym = true →
      exec (.dLit sym) s = after false false (BitVec.ofNat 16 sym.toNat) ∧
        ∀ hb fin : Bool,
          exec (.pbyte hb sym) s = after hb false (BitVec.ofNat 16 sym.toNat) ∧
            exec (.decByte (BitVec.cons hb sym) fin) s = after hb fin (BitVec.ofNat 16 sym.toNat)) ∧
      (∀ sym : Sym, isControlSymbol sym = true →
        exec (.dCtl sym) s = after false false (BitVec.ofNat 16 (sym.toNat - 0x10))) ∧
      exec .dNul s = after false false 0x0000 ∧ exec .dBel s = after false false 0x0007 ∧
      exec .dBs s = after false false 0x0008

/-- D.LEAD2, D.LEAD3 and D.LEAD4 open a code point and emit nothing. Derived from 43_dec_accumulator.md R177, R178,
R179, 42_dec_unpacker.md R152, log entry 3. -/
def Obligations.LeadBytesOpenACodePoint : Prop :=
  ∀ s : State, DecReady s 0 → s.dec.rem = 0 → s.dec.stage.toNat < 6 →
    let after (owed : BitVec 2) (cp : Reg32) : Out :=
      .next (s.setDec { s.dec with
        ph := false, rem := owed, cp := cp, stolen := BitVec.concat (s.dec.stolen.extractLsb' 0 7) false,
        stage := s.dec.stage + 1, bcnt := s.dec.bcnt + 1 })
    (∀ h : BitVec 4, exec (.dLead2 h) s = after 1 (BitVec.ofNat 32 (h.toNat * 2 ^ 7))) ∧
      (∀ h : BitVec 2, exec (.dLead3 h) s = after 2 (BitVec.ofNat 32 (h.toNat * 2 ^ 14))) ∧
      exec .dLead4 s = after 3 0

/-- D.TRAIL ors in its bits, and as the last trailer emits one unit or a pair. Derived from 43_dec_accumulator.md
R181, R182, R183, 42_dec_unpacker.md R152, log entry 3. -/
def Obligations.TrailerBytesGatherAndEmit : Prop :=
  ∀ (s : State) (p : Sym), DecReady s 2 → s.dec.rem ≠ 0 → s.dec.stage.toNat < 6 →
    let c : Reg32 := s.dec.cp ||| (p.setWidth 32 <<< (7 * (s.dec.rem.toNat - 1)))
    let v := c.toNat - 0x10000
    let begun : Dec :=
      { s.dec with
        ph := false, stolen := BitVec.concat (s.dec.stolen.extractLsb' 0 7) false, stage := s.dec.stage + 1,
        bcnt := s.dec.bcnt + 1 }
    (s.dec.rem ≠ 1 → exec (.dTrail p) s = .next (s.setDec { begun with rem := s.dec.rem - 1, cp := c })) ∧
    (s.dec.rem = 1 → c.toNat < 0x10000 → exec (.dTrail p) s =
      .next (s.setDec { begun with
        rem := 0, cp := 0, out := memWrite s.dec.out s.dec.len.toNat (BitVec.ofNat 16 c.toNat),
        len := s.dec.len + 1 })) ∧
    (s.dec.rem = 1 → 0x10000 ≤ c.toNat → c.toNat ≤ 0x10FFFF → exec (.dTrail p) s =
      .next (s.setDec { begun with
        rem := 0, cp := 0,
        out :=
          memWrite (memWrite s.dec.out s.dec.len.toNat (BitVec.ofNat 16 (0xD800 + v / 1024))) (s.dec.len.toNat + 1)
            (BitVec.ofNat 16 (0xDC00 + v % 1024)),
        len := s.dec.len + 2 }))

/-- D.INVALID takes the decoder into FAULTED with cause 1, at any stage. Derived from 43_dec_accumulator.md R180,
60_exceptions.md R205, R206, log entries 3 and 11. That the class runs as the DEC_BYTE that carries it is the
model's reading (log entry 3), and so is that the error comes before the counter's limit (log entry 11). -/
def Obligations.InvalidSymbolByteFaults : Prop :=
  ∀ (s : State) (x : Sym),
    s.dec.phase = .active → s.dec.fin = false → s.dec.rem = 0 → isInvalidSymbol x = true →
      exec (.dInvalid x) s =
        .next (s.setDec
          { phase := .faulted, rem := 0, cp := 0, stage := 0, stolen := 0, ph := false, fin := false, bcnt := 0,
            expect := 0, len := 0, cause := 1, einfo := BitVec.ofNat 32 x.toNat, eidx := s.dec.bcnt, out := [] })

/-- DEC_BYTE, PBYTE and every symbol class answer a next state in a call with room. Derived from 10_state.md R14,
42_dec_unpacker.md R152, 20_memory.md R47, R51, log entry 3. That a class runs as the DEC_BYTE that carries it is
the model's reading (log entry 3). -/
def Obligations.ByteCommandsCompleteWithRoom : Prop :=
  ∀ (s : State) (i : Instr), isByteInstr i = true → DecReady s 3 → ∃ t : State, exec i s = .next t

/-- What a byte that raises no error leaves unchanged, and where the stolen bits go. Derived from 42_dec_unpacker.md
R152, R153, 20_memory.md R45, R51, 10_state.md R13, R19, R20, log entry 3. The high bit is 0 for a symbol class (log
entry 3). -/
def Obligations.ByteCommandFrame : Prop :=
  ∀ (i : Instr) (s t : State),
    isByteInstr i = true → s.dec.phase = .active → exec i s = .next t → t.dec.phase = .active →
      let hb : Bool := match i with
        | .decByte b _ => b.getLsbD 7
        | .pbyte hb _ => hb
        | _ => false
      (∀ a : Nat, a < s.dec.len.toNat ∨ t.dec.len.toNat ≤ a → memRead t.dec.out a = memRead s.dec.out a) ∧
        s.dec.len.toNat ≤ t.dec.len.toNat ∧ t.dec.len.toNat ≤ s.dec.len.toNat + 3 ∧
        t.dec.bcnt.toNat = s.dec.bcnt.toNat + 1 ∧
        (s.dec.stage ≠ 6 → t.dec.stage = s.dec.stage + 1 ∧
          t.dec.stolen = BitVec.concat (s.dec.stolen.extractLsb' 0 7) hb) ∧
        (s.dec.stage = 6 → t.dec.stage = 0 ∧ t.dec.stolen = 0) ∧
        t.dec.expect = s.dec.expect ∧ t.dec.cause = s.dec.cause ∧ t.dec.einfo = s.dec.einfo ∧
        t.dec.eidx = s.dec.eidx ∧
        t.enc = s.enc ∧ t.caps = s.caps ∧ t.pending = s.pending ∧ t.lastRead = s.lastRead ∧ t.draws = s.draws

/-- Seven bytes packed from eight symbols feed exactly those eight symbols, the eighth as stolen. Derived from
42_dec_unpacker.md R154, R155, R157, 41_enc_packer.md R133. -/
def Obligations.FullGroupFeedsItsEightSymbols : Prop :=
  ∀ (s : State) (s0 s1 s2 s3 s4 s5 s6 s7 : Sym) (d : Dec),
    s.dec.phase = .active → s.dec.fin = false → s.dec.stage = 0 → s.dec.stolen = 0 →
      s.dec.bcnt.toNat + 7 ≤ lenMax →
      feedSyms s.caps.decOut
          [(s0, false), (s1, false), (s2, false), (s3, false), (s4, false), (s5, false), (s6, false), (s7, true)]
          s.dec = .ok d →
        runEvents ((group s0 s1 s2 s3 s4 s5 s6 s7).map fun b => eventOf (.decByte b false)) s =
          .next ((s.setPending []).setDec { d with bcnt := s.dec.bcnt + 7 })

/-- fin is recorded and refuses a later byte, and has no other effect. Derived from 42_dec_unpacker.md R156, log
entry 3. That PBYTE and the symbol classes are refused like the DEC_BYTE that carries them is the model's reading
(log entry 3). -/
def Obligations.FinalByteClosesTheStream : Prop :=
  ∀ s : State, s.dec.phase = .active →
    (∀ i : Instr, isByteInstr i = true → s.dec.fin = true → exec i s = .refused .byteAfterFin) ∧
    (∀ b : Byte, exec (.decByte b true) s =
      mapNext (fun t => if t.dec.phase = .active then t.setDec { t.dec with fin := true } else t)
        (exec (.decByte b false) s)) ∧
    (∀ (b : Byte) (fin : Bool) (t : State), exec (.decByte b fin) s = .next t → t.dec.phase = .active →
      t.dec.fin = fin) ∧
    ∀ fin : Bool, exec .decFinish (s.setDec { s.dec with fin := fin }) = exec .decFinish s

/-- DEC_FINISH delivers the text, dropping a phantom lead, or raises TRUNCATED. Derived from 43_dec_accumulator.md
R185, 60_exceptions.md R202, R206. -/
def Obligations.DecFinishDeliversOrTruncates : Prop :=
  ∀ s : State, s.dec.phase = .active →
    (s.dec.rem = 0 ∨ s.dec.ph = true → exec .decFinish s =
      .next (s.setDec { s.dec with
        rem := 0, cp := 0, stage := 0, stolen := 0, ph := false, fin := false, bcnt := 0, expect := 0,
        phase := .done })) ∧
    (s.dec.rem ≠ 0 ∧ s.dec.ph = false → exec .decFinish s =
      .next (s.setDec
        { phase := .faulted, rem := 0, cp := 0, stage := 0, stolen := 0, ph := false, fin := false, bcnt := 0,
          expect := 0, len := 0, cause := 2,
          einfo := BitVec.ofNat 32 (s.dec.cp.toNat % 2 ^ 21 + s.dec.rem.toNat * 2 ^ 28), eidx := s.dec.bcnt,
          out := [] }))

/-- rst puts one instance in phase IDLE with every register 0 and leaves the other alone. Formalises R230. -/
def Obligations.ResetClearsOneInstance : Prop :=
  let enc0 : Enc :=
    { phase := .idle, hsv := false, hs := 0, ucnt := 0, spos := 0, len := 0, cause := 0, einfo := 0, eidx := 0,
      scr := [], out := [] }
  let dec0 : Dec :=
    { phase := .idle, rem := 0, cp := 0, stage := 0, stolen := 0, ph := false, fin := false, bcnt := 0, expect := 0,
      len := 0, cause := 0, einfo := 0, eidx := 0, out := [] }
  State.reset.enc = enc0 ∧ State.reset.dec = dec0 ∧
    ∀ (s : State) (rest : List HostEvent),
      (s.pending = .rst .enc :: rest → step s = .next ((s.setPending rest).setEnc enc0)) ∧
        (s.pending = .rst .dec :: rest → step s = .next ((s.setPending rest).setDec dec0))

/-- After reset only ENC_BEGIN and DEC_PREPARE answer. Derived from 70_reset_and_hazards.md R232, 10_state.md R14,
log entries 3 and 12. That DEC_PREPARE answers whatever the capacities is the model's choice (log entry 12), and
that the classes are refused as outside a call is the model's reading (log entry 3). -/
def Obligations.AfterResetOnlyBeginsHaveAMeaning : Prop :=
  ∀ (i : Instr) (s : State), s.enc = State.reset.enc → s.dec = State.reset.dec →
    ((∃ t : State, exec i s = .next t) ↔ i = .encBegin ∨ ∃ n : Reg32, i = .decPrepare n) ∧
      ((∀ t : State, exec i s ≠ .next t) → exec i s = .refused .outsideCall)

/-- Every register of both maps holds the fields the maps give it. Derived from 10_state.md R14, R26, R30, R31, R36.
-/
def Obligations.RegisterMaps : Prop :=
  (∀ e : Enc,
      (encReg e 0).toNat =
          (match e.phase with | .idle => 0 | .active => 1 | .done => 2 | .faulted => 3) +
            (if e.phase = .done then 2 ^ 2 else 0) + (if e.phase = .faulted then 2 ^ 3 else 0) +
            e.cause.toNat * 2 ^ 4 + (if e.hsv then 2 ^ 7 else 0) ∧
        encReg e 1 = e.len ∧ encReg e 2 = e.spos ∧ encReg e 3 = e.ucnt ∧ (encReg e 4).toNat = e.hs.toNat ∧
        (encReg e 5).toNat = e.einfo.toNat ∧ encReg e 6 = e.eidx ∧ encReg e 7 = 0) ∧
    (∀ d : Dec,
      (decReg d 0).toNat =
          (match d.phase with | .idle => 0 | .active => 1 | .done => 2 | .faulted => 3) +
            (if d.phase = .done then 2 ^ 2 else 0) + (if d.phase = .faulted then 2 ^ 3 else 0) +
            d.cause.toNat * 2 ^ 4 + (if d.fin then 2 ^ 7 else 0) + (if d.ph then 2 ^ 8 else 0) + d.rem.toNat * 2 ^ 9 +
            d.stage.toNat * 2 ^ 12 ∧
        decReg d 1 = d.len ∧ decReg d 2 = d.cp ∧ (decReg d 3).toNat = d.stolen.toNat ∧ decReg d 4 = d.bcnt ∧
        decReg d 5 = d.expect ∧ decReg d 6 = d.einfo ∧ decReg d 7 = d.eidx) ∧
    ∀ sel : BitVec 3, encReg State.reset.enc sel = 0 ∧ decReg State.reset.dec sel = 0

/-- A register read finds the current value in any phase and changes neither instance. Derived from 10_state.md R32,
R11. -/
def Obligations.RegisterReadsHaveNoSideEffect : Prop :=
  ∀ (s : State) (sel : BitVec 3) (rest : List HostEvent),
    (s.pending = .readReg .enc sel :: rest →
      step s = .next { s with pending := rest, lastRead := some (.reg .enc (encReg s.enc sel)) }) ∧
    (s.pending = .readReg .dec sel :: rest →
      step s = .next { s with pending := rest, lastRead := some (.reg .dec (decReg s.dec sel)) })

/-- A buffer read in DONE below the length finds the element; no read changes an instance. Derived from 20_memory.md
R46, log entries 6 and 7. -/
def Obligations.ResultReadsFindTheResult : Prop :=
  ∀ (s : State) (idx : Reg32) (rest : List HostEvent),
    (s.pending = .readBuf .enc idx :: rest →
      ∃ v : Byte,
        step s = .next { s with pending := rest, lastRead := some (.encBuf v), draws := s.draws + 1 } ∧
          ∀ x : Byte, s.enc.phase = .done → idx.toNat < s.enc.len.toNat →
            memRead s.enc.out idx.toNat = some x → v = x) ∧
    (s.pending = .readBuf .dec idx :: rest →
      ∃ v : CodeUnit,
        step s = .next { s with pending := rest, lastRead := some (.decBuf v), draws := s.draws + 1 } ∧
          ∀ x : CodeUnit, s.dec.phase = .done → idx.toNat < s.dec.len.toNat →
            memRead s.dec.out idx.toNat = some x → v = x)

/-- An instance changes only by a command word on its own port or by its own reset. Derived from 60_exceptions.md
R215, 00_scope.md R6. -/
def Obligations.OnlyCommandsAndResetChangeAnInstance : Prop :=
  ∀ s : State,
    (s.pending = [] → step s = .next s) ∧
      ∀ t : State, step s = .next t →
        (t.enc ≠ s.enc → ∃ (w : CmdWord) (rest : List HostEvent),
          s.pending = .cmd .enc w :: rest ∨ s.pending = .rst .enc :: rest) ∧
        (t.dec ≠ s.dec → ∃ (w : CmdWord) (rest : List HostEvent),
          s.pending = .cmd .dec w :: rest ∨ s.pending = .rst .dec :: rest)

/-- Every step keeps the encoder's invariants. Derived from 10_state.md R12, R17, R30, R37, 20_memory.md R41, R42,
60_exceptions.md R206. -/
def Obligations.EveryStepKeepsTheEncoderInvariant : Prop :=
  ∀ s t : State, EncInv s.enc → step s = .next t → EncInv t.enc

/-- Every step keeps the decoder's invariants. Derived from 10_state.md R13, R18, R19, R20, R22, R31, R37,
20_memory.md R43, 60_exceptions.md R206. -/
def Obligations.EveryStepKeepsTheDecoderInvariant : Prop :=
  ∀ s t : State, DecInv s.dec → step s = .next t → DecInv t.dec

/-- The state after reset meets both invariants and the size bounds. Derived from 10_state.md R36, R17, R18, R19,
R20, R22, R37. -/
def Obligations.ResetMeetsTheInvariants : Prop :=
  EncInv State.reset.enc ∧ DecInv State.reset.dec ∧ EncBound State.reset.enc ∧ DecBound State.reset.dec

/-- Every step keeps: at most 3 symbols a unit, and at most n + n / 7 units for n bytes. Derived from 20_memory.md
R48, R50, 42_dec_unpacker.md R158. -/
def Obligations.EveryStepKeepsTheSizeBounds : Prop :=
  ∀ s t : State, step s = .next t →
    (EncBound s.enc → EncBound t.enc) ∧ (DecBound s.dec → DecBound t.dec)

/-- A byte stream cut into chunks gives the outcome of the one-shot decode. Derived from 30_encoding.md R91, R92,
20_memory.md R56, 43_dec_accumulator.md R188, 42_dec_unpacker.md R151, R156, log entry 12. That neither refuses
early by its hint is the model's choice (log entry 12). -/
def Obligations.ChunksLeaveNoMark : Prop :=
  ∀ (chunks : List (List Byte)) (last : List Byte),
    (last ≠ [] →
      (chunks.map fun chunk => chunkCommands chunk false).flatten ++ chunkCommands last true =
        chunkCommands (chunks.flatten ++ last) true) ∧
    ((chunks.flatten ++ last).length ≤ lenMax →
      ∀ (n : Reg32) (s : State),
        streamDecode n chunks last s =
          decodeCall (chunks.flatten ++ last) (BitVec.ofNat 32 (chunks.flatten ++ last).length) s)

/-- encode(T) is Pack(Classify(T)) for a well-formed text and an error for any other. Derived from 41_enc_packer.md
R136, 40_enc_classifier.md R102, R116, 30_encoding.md R90. -/
def Obligations.EncodeCallPacksTheClassifiedText : Prop :=
  ∀ (s : State) (text : List CodeUnit),
    s.caps.encScr = none → s.caps.encOut = none → 3 * text.length ≤ lenMax →
      (wellFormedText text = true → ∃ (t : State) (bytes : List Byte) (len : Reg32),
        encodeCall text s = .next (t, some (bytes, len)) ∧ bytes = pack (textSyms none text) ∧
          len.toNat = bytes.length ∧ t.enc.phase = .done ∧ t.enc.out.map Prod.snd = bytes ∧ t.enc.len = len ∧
          dense t.enc.out len.toNat) ∧
      (wellFormedText text = false → ∃ t : State,
        encodeCall text s = .next (t, none) ∧ t.enc.phase = .faulted ∧ t.enc.len = 0)

/-- decode(encode(T)) = T for every well-formed text. Derived from 43_dec_accumulator.md R187, 42_dec_unpacker.md
R157, 40_enc_classifier.md R117, 30_encoding.md R90, R91. -/
def Obligations.DecodeOfEncodeIsTheText : Prop :=
  ∀ (s : State) (text : List CodeUnit) (after : List Byte),
    s.caps = Caps.default → wellFormedText text = true → 3 * text.length ≤ lenMax →
      ∃ (t u : State) (bytes : List Byte) (len : Reg32),
        encodeCall text s = .next (t, some (bytes, len)) ∧ bytes.length = len.toNat ∧
          decodeCall (bytes ++ after) len t = .next (u, some text) ∧ u.dec.phase = .done ∧
          u.dec.len.toNat = text.length

/-- A symbol whose units pass the capacity of DEC.OUT or the end of dec.len is refused. Derived from 20_memory.md
R47, 10_state.md R24, 43_dec_accumulator.md R172, R173, R174, R175, R176, R181, R182, R183, R189, log entry 10. That
the pair's two units meet their limits one after the other is the model's reading (log entry 10). -/
def Obligations.SymbolsWithoutRoomAreRefused : Prop :=
  ∀ (cap : Option Nat) (stolen : Bool) (d : Dec) (x : Sym),
    let c : Reg32 := d.cp ||| (x.setWidth 32 <<< (7 * (d.rem.toNat - 1)))
    let single : Prop :=
      d.rem = 0 ∧ (isPrintable x = true ∨ isControlSymbol x = true ∨ x = 0x7F ∨ x = 0x1F ∨ x = 0x1E) ∨
        d.rem = 1 ∧ c.toNat < 0x10000
    let pair : Prop := d.rem = 1 ∧ 0x10000 ≤ c.toNat ∧ c.toNat ≤ 0x10FFFF
    (single → capFits cap (d.len.toNat + 1) = false → processSymbol cap x stolen d = .refused .bufferFull) ∧
    (single → capFits cap (d.len.toNat + 1) = true → lenMax < d.len.toNat + 1 →
      processSymbol cap x stolen d = .refused .counterLimit) ∧
    (pair → capFits cap (d.len.toNat + 1) = false ∨ capFits cap (d.len.toNat + 2) = false ∧ d.len.toNat + 1 ≤ lenMax →
      processSymbol cap x stolen d = .refused .bufferFull) ∧
    (pair → capFits cap (d.len.toNat + 1) = true → lenMax < d.len.toNat + 1 →
      processSymbol cap x stolen d = .refused .counterLimit) ∧
    (pair → capFits cap (d.len.toNat + 2) = true → lenMax < d.len.toNat + 2 →
      processSymbol cap x stolen d = .refused .counterLimit)

/-- A call whose status shows done answers what its buffer holds up to the length, any other nothing. Derived from
30_encoding.md R90, R91, R92, 20_memory.md R42, R43, R46, 10_state.md R32. -/
def Obligations.CallsAnswerTheResultOrNothing : Prop :=
  ∀ s : State,
    (s.enc.phase = .done → dense s.enc.out s.enc.len.toNat →
      (readEncResult s).2 = some (s.enc.out.map Prod.snd, s.enc.len)) ∧
    (s.enc.phase ≠ .done → (readEncResult s).2 = none) ∧
    (s.dec.phase = .done → dense s.dec.out s.dec.len.toNat →
      (readDecResult s).2 = some (s.dec.out.map Prod.snd)) ∧
    (s.dec.phase ≠ .done → (readDecResult s).2 = none) ∧
    (readEncResult s).1.enc = s.enc ∧ (readEncResult s).1.dec = s.dec ∧ (readEncResult s).1.caps = s.caps ∧
    (readDecResult s).1.enc = s.enc ∧ (readDecResult s).1.dec = s.dec ∧ (readDecResult s).1.caps = s.caps
end

