-- ==== Sys2Proof/Laws/State.lean ====
section
/-! SUPPORT. One lemma per field per update of the state records, so that no later proof unfolds an update. -/

namespace Sys2Proof.Machine

/-! ### Updates of the whole state -/

@[simp] theorem State.setEnc_enc (s : State) (e : Enc) : (s.setEnc e).enc = e := rfl
@[simp] theorem State.setEnc_dec (s : State) (e : Enc) : (s.setEnc e).dec = s.dec := rfl
@[simp] theorem State.setEnc_caps (s : State) (e : Enc) : (s.setEnc e).caps = s.caps := rfl
@[simp] theorem State.setEnc_pending (s : State) (e : Enc) : (s.setEnc e).pending = s.pending := rfl
@[simp] theorem State.setEnc_lastRead (s : State) (e : Enc) : (s.setEnc e).lastRead = s.lastRead := rfl
@[simp] theorem State.setEnc_draws (s : State) (e : Enc) : (s.setEnc e).draws = s.draws := rfl

@[simp] theorem State.setDec_enc (s : State) (d : Dec) : (s.setDec d).enc = s.enc := rfl
@[simp] theorem State.setDec_dec (s : State) (d : Dec) : (s.setDec d).dec = d := rfl
@[simp] theorem State.setDec_caps (s : State) (d : Dec) : (s.setDec d).caps = s.caps := rfl
@[simp] theorem State.setDec_pending (s : State) (d : Dec) : (s.setDec d).pending = s.pending := rfl
@[simp] theorem State.setDec_lastRead (s : State) (d : Dec) : (s.setDec d).lastRead = s.lastRead := rfl
@[simp] theorem State.setDec_draws (s : State) (d : Dec) : (s.setDec d).draws = s.draws := rfl

@[simp] theorem State.setPending_enc (s : State) (l : List HostEvent) : (s.setPending l).enc = s.enc := rfl
@[simp] theorem State.setPending_dec (s : State) (l : List HostEvent) : (s.setPending l).dec = s.dec := rfl
@[simp] theorem State.setPending_caps (s : State) (l : List HostEvent) : (s.setPending l).caps = s.caps := rfl
@[simp] theorem State.setPending_pending (s : State) (l : List HostEvent) : (s.setPending l).pending = l := rfl
@[simp] theorem State.setPending_lastRead (s : State) (l : List HostEvent) : (s.setPending l).lastRead = s.lastRead := rfl
@[simp] theorem State.setPending_draws (s : State) (l : List HostEvent) : (s.setPending l).draws = s.draws := rfl

@[simp] theorem State.setRead_enc (s : State) (r : ReadResult) : (s.setRead r).enc = s.enc := rfl
@[simp] theorem State.setRead_dec (s : State) (r : ReadResult) : (s.setRead r).dec = s.dec := rfl
@[simp] theorem State.setRead_caps (s : State) (r : ReadResult) : (s.setRead r).caps = s.caps := rfl
@[simp] theorem State.setRead_pending (s : State) (r : ReadResult) : (s.setRead r).pending = s.pending := rfl
@[simp] theorem State.setRead_lastRead (s : State) (r : ReadResult) : (s.setRead r).lastRead = some r := rfl
@[simp] theorem State.setRead_draws (s : State) (r : ReadResult) : (s.setRead r).draws = s.draws := rfl

@[simp] theorem State.drawn_enc (s : State) : s.drawn.enc = s.enc := rfl
@[simp] theorem State.drawn_dec (s : State) : s.drawn.dec = s.dec := rfl
@[simp] theorem State.drawn_caps (s : State) : s.drawn.caps = s.caps := rfl
@[simp] theorem State.drawn_pending (s : State) : s.drawn.pending = s.pending := rfl
@[simp] theorem State.drawn_lastRead (s : State) : s.drawn.lastRead = s.lastRead := rfl
@[simp] theorem State.drawn_draws (s : State) : s.drawn.draws = s.draws + 1 := rfl

/-! ### An encoder after reset -/

@[simp] theorem Enc.reset_phase : Enc.reset.phase = Phase.idle := rfl
@[simp] theorem Enc.reset_hsv : Enc.reset.hsv = false := rfl
@[simp] theorem Enc.reset_hs : Enc.reset.hs = 0 := rfl
@[simp] theorem Enc.reset_ucnt : Enc.reset.ucnt = 0 := rfl
@[simp] theorem Enc.reset_spos : Enc.reset.spos = 0 := rfl
@[simp] theorem Enc.reset_len : Enc.reset.len = 0 := rfl
@[simp] theorem Enc.reset_cause : Enc.reset.cause = 0 := rfl
@[simp] theorem Enc.reset_einfo : Enc.reset.einfo = 0 := rfl
@[simp] theorem Enc.reset_eidx : Enc.reset.eidx = 0 := rfl
@[simp] theorem Enc.reset_scr : Enc.reset.scr = [] := rfl
@[simp] theorem Enc.reset_out : Enc.reset.out = [] := rfl

/-! ### A decoder after reset -/

@[simp] theorem Dec.reset_phase : Dec.reset.phase = Phase.idle := rfl
@[simp] theorem Dec.reset_rem : Dec.reset.rem = 0 := rfl
@[simp] theorem Dec.reset_cp : Dec.reset.cp = 0 := rfl
@[simp] theorem Dec.reset_stage : Dec.reset.stage = 0 := rfl
@[simp] theorem Dec.reset_stolen : Dec.reset.stolen = 0 := rfl
@[simp] theorem Dec.reset_ph : Dec.reset.ph = false := rfl
@[simp] theorem Dec.reset_fin : Dec.reset.fin = false := rfl
@[simp] theorem Dec.reset_bcnt : Dec.reset.bcnt = 0 := rfl
@[simp] theorem Dec.reset_expect : Dec.reset.expect = 0 := rfl
@[simp] theorem Dec.reset_len : Dec.reset.len = 0 := rfl
@[simp] theorem Dec.reset_cause : Dec.reset.cause = 0 := rfl
@[simp] theorem Dec.reset_einfo : Dec.reset.einfo = 0 := rfl
@[simp] theorem Dec.reset_eidx : Dec.reset.eidx = 0 := rfl
@[simp] theorem Dec.reset_out : Dec.reset.out = [] := rfl

/-! ### An encoder after an error -/

@[simp] theorem encRaise_phase (cause : BitVec 3) (info : CodeUnit) (idx : Reg32) : (encRaise cause info idx).phase = Phase.faulted := rfl
@[simp] theorem encRaise_hsv (cause : BitVec 3) (info : CodeUnit) (idx : Reg32) : (encRaise cause info idx).hsv = false := rfl
@[simp] theorem encRaise_hs (cause : BitVec 3) (info : CodeUnit) (idx : Reg32) : (encRaise cause info idx).hs = 0 := rfl
@[simp] theorem encRaise_ucnt (cause : BitVec 3) (info : CodeUnit) (idx : Reg32) : (encRaise cause info idx).ucnt = 0 := rfl
@[simp] theorem encRaise_spos (cause : BitVec 3) (info : CodeUnit) (idx : Reg32) : (encRaise cause info idx).spos = 0 := rfl
@[simp] theorem encRaise_len (cause : BitVec 3) (info : CodeUnit) (idx : Reg32) : (encRaise cause info idx).len = 0 := rfl
@[simp] theorem encRaise_cause (cause : BitVec 3) (info : CodeUnit) (idx : Reg32) : (encRaise cause info idx).cause = cause := rfl
@[simp] theorem encRaise_einfo (cause : BitVec 3) (info : CodeUnit) (idx : Reg32) : (encRaise cause info idx).einfo = info := rfl
@[simp] theorem encRaise_eidx (cause : BitVec 3) (info : CodeUnit) (idx : Reg32) : (encRaise cause info idx).eidx = idx := rfl
@[simp] theorem encRaise_scr (cause : BitVec 3) (info : CodeUnit) (idx : Reg32) : (encRaise cause info idx).scr = [] := rfl
@[simp] theorem encRaise_out (cause : BitVec 3) (info : CodeUnit) (idx : Reg32) : (encRaise cause info idx).out = [] := rfl

/-! ### A decoder after an error -/

@[simp] theorem decRaise_phase (cause : BitVec 3) (info : Reg32) (d : Dec) : (decRaise cause info d).phase = Phase.faulted := rfl
@[simp] theorem decRaise_rem (cause : BitVec 3) (info : Reg32) (d : Dec) : (decRaise cause info d).rem = 0 := rfl
@[simp] theorem decRaise_cp (cause : BitVec 3) (info : Reg32) (d : Dec) : (decRaise cause info d).cp = 0 := rfl
@[simp] theorem decRaise_stage (cause : BitVec 3) (info : Reg32) (d : Dec) : (decRaise cause info d).stage = 0 := rfl
@[simp] theorem decRaise_stolen (cause : BitVec 3) (info : Reg32) (d : Dec) : (decRaise cause info d).stolen = 0 := rfl
@[simp] theorem decRaise_ph (cause : BitVec 3) (info : Reg32) (d : Dec) : (decRaise cause info d).ph = false := rfl
@[simp] theorem decRaise_fin (cause : BitVec 3) (info : Reg32) (d : Dec) : (decRaise cause info d).fin = false := rfl
@[simp] theorem decRaise_bcnt (cause : BitVec 3) (info : Reg32) (d : Dec) : (decRaise cause info d).bcnt = 0 := rfl
@[simp] theorem decRaise_expect (cause : BitVec 3) (info : Reg32) (d : Dec) : (decRaise cause info d).expect = 0 := rfl
@[simp] theorem decRaise_len (cause : BitVec 3) (info : Reg32) (d : Dec) : (decRaise cause info d).len = 0 := rfl
@[simp] theorem decRaise_cause (cause : BitVec 3) (info : Reg32) (d : Dec) : (decRaise cause info d).cause = cause := rfl
@[simp] theorem decRaise_einfo (cause : BitVec 3) (info : Reg32) (d : Dec) : (decRaise cause info d).einfo = info := rfl
@[simp] theorem decRaise_eidx (cause : BitVec 3) (info : Reg32) (d : Dec) : (decRaise cause info d).eidx = d.bcnt := rfl
@[simp] theorem decRaise_out (cause : BitVec 3) (info : Reg32) (d : Dec) : (decRaise cause info d).out = [] := rfl

/-! ### An encoder after `ENC_BEGIN` -/

@[simp] theorem encOpened_phase : encOpened.phase = Phase.active := rfl
@[simp] theorem encOpened_hsv : encOpened.hsv = false := rfl
@[simp] theorem encOpened_hs : encOpened.hs = 0 := rfl
@[simp] theorem encOpened_ucnt : encOpened.ucnt = 0 := rfl
@[simp] theorem encOpened_spos : encOpened.spos = 0 := rfl
@[simp] theorem encOpened_len : encOpened.len = 0 := rfl
@[simp] theorem encOpened_cause : encOpened.cause = 0 := rfl
@[simp] theorem encOpened_einfo : encOpened.einfo = 0 := rfl
@[simp] theorem encOpened_eidx : encOpened.eidx = 0 := rfl
@[simp] theorem encOpened_scr : encOpened.scr = [] := rfl
@[simp] theorem encOpened_out : encOpened.out = [] := rfl

/-! ### A decoder after `DEC_PREPARE` -/

@[simp] theorem decOpened_phase (n : Reg32) : (decOpened n).phase = Phase.active := rfl
@[simp] theorem decOpened_rem (n : Reg32) : (decOpened n).rem = 0 := rfl
@[simp] theorem decOpened_cp (n : Reg32) : (decOpened n).cp = 0 := rfl
@[simp] theorem decOpened_stage (n : Reg32) : (decOpened n).stage = 0 := rfl
@[simp] theorem decOpened_stolen (n : Reg32) : (decOpened n).stolen = 0 := rfl
@[simp] theorem decOpened_ph (n : Reg32) : (decOpened n).ph = false := rfl
@[simp] theorem decOpened_fin (n : Reg32) : (decOpened n).fin = false := rfl
@[simp] theorem decOpened_bcnt (n : Reg32) : (decOpened n).bcnt = 0 := rfl
@[simp] theorem decOpened_expect (n : Reg32) : (decOpened n).expect = n := rfl
@[simp] theorem decOpened_len (n : Reg32) : (decOpened n).len = 0 := rfl
@[simp] theorem decOpened_cause (n : Reg32) : (decOpened n).cause = 0 := rfl
@[simp] theorem decOpened_einfo (n : Reg32) : (decOpened n).einfo = 0 := rfl
@[simp] theorem decOpened_eidx (n : Reg32) : (decOpened n).eidx = 0 := rfl
@[simp] theorem decOpened_out (n : Reg32) : (decOpened n).out = [] := rfl

/-! ### One symbol appended -/

@[simp] theorem appendSym_phase (e : Enc) (x : Sym) : (appendSym e x).phase = e.phase := rfl
@[simp] theorem appendSym_hsv (e : Enc) (x : Sym) : (appendSym e x).hsv = e.hsv := rfl
@[simp] theorem appendSym_hs (e : Enc) (x : Sym) : (appendSym e x).hs = e.hs := rfl
@[simp] theorem appendSym_ucnt (e : Enc) (x : Sym) : (appendSym e x).ucnt = e.ucnt := rfl
@[simp] theorem appendSym_spos (e : Enc) (x : Sym) : (appendSym e x).spos = e.spos + 1 := rfl
@[simp] theorem appendSym_len (e : Enc) (x : Sym) : (appendSym e x).len = e.len := rfl
@[simp] theorem appendSym_cause (e : Enc) (x : Sym) : (appendSym e x).cause = e.cause := rfl
@[simp] theorem appendSym_einfo (e : Enc) (x : Sym) : (appendSym e x).einfo = e.einfo := rfl
@[simp] theorem appendSym_eidx (e : Enc) (x : Sym) : (appendSym e x).eidx = e.eidx := rfl
@[simp] theorem appendSym_scr (e : Enc) (x : Sym) : (appendSym e x).scr = memWrite e.scr e.spos.toNat x := rfl
@[simp] theorem appendSym_out (e : Enc) (x : Sym) : (appendSym e x).out = e.out := rfl

/-! ### A finished text -/

@[simp] theorem finishedDec_phase (d : Dec) : (finishedDec d).phase = Phase.done := rfl
@[simp] theorem finishedDec_rem (d : Dec) : (finishedDec d).rem = 0 := rfl
@[simp] theorem finishedDec_cp (d : Dec) : (finishedDec d).cp = 0 := rfl
@[simp] theorem finishedDec_stage (d : Dec) : (finishedDec d).stage = 0 := rfl
@[simp] theorem finishedDec_stolen (d : Dec) : (finishedDec d).stolen = 0 := rfl
@[simp] theorem finishedDec_ph (d : Dec) : (finishedDec d).ph = false := rfl
@[simp] theorem finishedDec_fin (d : Dec) : (finishedDec d).fin = false := rfl
@[simp] theorem finishedDec_bcnt (d : Dec) : (finishedDec d).bcnt = 0 := rfl
@[simp] theorem finishedDec_expect (d : Dec) : (finishedDec d).expect = 0 := rfl
@[simp] theorem finishedDec_len (d : Dec) : (finishedDec d).len = d.len := rfl
@[simp] theorem finishedDec_cause (d : Dec) : (finishedDec d).cause = d.cause := rfl
@[simp] theorem finishedDec_einfo (d : Dec) : (finishedDec d).einfo = d.einfo := rfl
@[simp] theorem finishedDec_eidx (d : Dec) : (finishedDec d).eidx = d.eidx := rfl
@[simp] theorem finishedDec_out (d : Dec) : (finishedDec d).out = d.out := rfl

/-! ### A byte begun -/

@[simp] theorem gatherBit_phase (hb : Bool) (d : Dec) : (gatherBit hb d).phase = d.phase := rfl
@[simp] theorem gatherBit_rem (hb : Bool) (d : Dec) : (gatherBit hb d).rem = d.rem := rfl
@[simp] theorem gatherBit_cp (hb : Bool) (d : Dec) : (gatherBit hb d).cp = d.cp := rfl
@[simp] theorem gatherBit_stage (hb : Bool) (d : Dec) : (gatherBit hb d).stage = d.stage + 1 := rfl
@[simp] theorem gatherBit_stolen (hb : Bool) (d : Dec) : (gatherBit hb d).stolen = shiftStolen d.stolen hb := rfl
@[simp] theorem gatherBit_ph (hb : Bool) (d : Dec) : (gatherBit hb d).ph = d.ph := rfl
@[simp] theorem gatherBit_fin (hb : Bool) (d : Dec) : (gatherBit hb d).fin = d.fin := rfl
@[simp] theorem gatherBit_bcnt (hb : Bool) (d : Dec) : (gatherBit hb d).bcnt = d.bcnt := rfl
@[simp] theorem gatherBit_expect (hb : Bool) (d : Dec) : (gatherBit hb d).expect = d.expect := rfl
@[simp] theorem gatherBit_len (hb : Bool) (d : Dec) : (gatherBit hb d).len = d.len := rfl
@[simp] theorem gatherBit_cause (hb : Bool) (d : Dec) : (gatherBit hb d).cause = d.cause := rfl
@[simp] theorem gatherBit_einfo (hb : Bool) (d : Dec) : (gatherBit hb d).einfo = d.einfo := rfl
@[simp] theorem gatherBit_eidx (hb : Bool) (d : Dec) : (gatherBit hb d).eidx = d.eidx := rfl
@[simp] theorem gatherBit_out (hb : Bool) (d : Dec) : (gatherBit hb d).out = d.out := rfl

end Sys2Proof.Machine
end

