-- ==== Sys2Proof/Laws/Memory.lean ====
section
/-! SUPPORT. The buffers: a read after a write, and the canonical form that every buffer operation keeps. -/

namespace Sys2Proof.Machine

/-- A write is read back at its index and leaves every other index alone (R44). -/
theorem memRead_memWrite {w : Nat} (m : Memory w) (i j : Nat) (v : BitVec w) :
    memRead (memWrite m i v) j = if j = i then some v else memRead m j := by
  induction m with
  | nil => simp [memWrite, memRead, eq_comm]
  | cons p t ih =>
    obtain ⟨a, x⟩ := p
    unfold memWrite
    split
    · simp [memRead, eq_comm]
    · split
      · subst_vars
        by_cases hij : a = j
        · simp [memRead, hij]
        · simp [memRead, hij, Ne.symm hij]
      · rename_i h1 h2
        simp only [memRead, ih]
        by_cases haj : a = j
        · subst haj; simp [Ne.symm h2]
        · simp [haj]

/-- The indexes of a write are those of the buffer and the index written. -/
theorem mem_memWrite {w : Nat} (m : Memory w) (i : Nat) (v : BitVec w) (p : Nat × BitVec w)
    (h : p ∈ memWrite m i v) : p.1 = i ∨ p ∈ m := by
  induction m with
  | nil => simp [memWrite] at h; simp [h]
  | cons q t ih =>
    unfold memWrite at h
    split at h
    · rcases List.mem_cons.1 h with rfl | h <;> simp_all
    · split at h
      · rcases List.mem_cons.1 h with rfl | h <;> simp_all
      · rcases List.mem_cons.1 h with rfl | h
        · simp
        · rcases ih h with h | h <;> simp [h]

/-- A write keeps the canonical form. -/
theorem memWrite_wf {w : Nat} (m : Memory w) (i : Nat) (v : BitVec w) (h : Memory.wf m) :
    Memory.wf (memWrite m i v) := by
  induction m with
  | nil => simp [memWrite]
  | cons q t ih =>
    obtain ⟨hq, ht⟩ := List.pairwise_cons.1 h
    unfold memWrite
    split
    · rename_i hi
      refine List.pairwise_cons.2 ⟨fun p hp => ?_, h⟩
      rcases List.mem_cons.1 hp with rfl | hp
      · exact hi
      · exact lt_trans hi (hq p hp)
    · split
      · subst_vars
        exact List.pairwise_cons.2 ⟨fun p hp => hq p hp, ht⟩
      · refine List.pairwise_cons.2 ⟨fun p hp => ?_, ih ht⟩
        rcases mem_memWrite t i v p hp with hp | hp
        · simp only at *; omega
        · exact hq p hp

/-- Writing a run of elements keeps the canonical form. -/
theorem memWriteAll_wf {w : Nat} (l : List (BitVec w)) (m : Memory w) (i : Nat) (h : Memory.wf m) :
    Memory.wf (memWriteAll m i l) := by
  induction l generalizing m i with
  | nil => exact h
  | cons v t ih => exact ih _ _ (memWrite_wf m i v h)

/-- A run of elements is read back where it was written and nowhere else. -/
theorem memRead_memWriteAll {w : Nat} (l : List (BitVec w)) (m : Memory w) (i j : Nat) :
    memRead (memWriteAll m i l) j = if i ≤ j ∧ j < i + l.length then l[j - i]? else memRead m j := by
  induction l generalizing m i with
  | nil => simp only [memWriteAll, List.length_nil]; rw [if_neg (by omega)]
  | cons v t ih =>
    rw [memWriteAll, ih, memRead_memWrite]
    simp only [List.length_cons]
    by_cases h1 : j = i
    · subst h1; simp
    · by_cases h2 : i + 1 ≤ j ∧ j < i + 1 + t.length
      · rw [if_pos h2, if_pos (by omega), show j - i = (j - (i + 1)) + 1 by omega, List.getElem?_cons_succ]
      · rw [if_neg h2, if_neg h1, if_neg (by omega)]

/-- Every buffer after reset has the canonical form. -/
theorem reset_wf : Memory.wf State.reset.enc.scr ∧ Memory.wf State.reset.enc.out ∧ Memory.wf State.reset.dec.out := by
  decide

/-- A write at the end of a buffer adds one entry at its end. -/
theorem memWrite_end {w : Nat} (m : Memory w) (i : Nat) (v : BitVec w) (h : ∀ p ∈ m, p.1 < i) :
    memWrite m i v = m ++ [(i, v)] := by
  induction m with
  | nil => rfl
  | cons q t ih =>
    have hq := h q (by simp)
    unfold memWrite
    rw [if_neg (by omega), if_neg (by omega), ih fun p hp => h p (by simp [hp])]
    rfl

end Sys2Proof.Machine
end

