-- ==== Sys2Proof/Laws/Ops.lean ====
section
/-! SUPPORT. One lemma per shared operation that says once everything it can do. -/

namespace Sys2Proof.Machine

/-! ### Limits -/

/-- A buffer has room exactly when the elements fit its capacity and its position register. -/
theorem overLimit_none_iff (cap : Option Nat) (n : Nat) :
    overLimit cap n = none ↔ capFits cap n = true ∧ n ≤ lenMax := by
  cases cap with
  | none => simp [overLimit]
  | some c =>
    simp only [overLimit, Option.any_some, Option.all_some, decide_eq_true_eq]
    split
    · simp; omega
    · split <;> simp <;> omega

/-- A buffer without room refuses for one of two reasons (R24, R47). -/
theorem overLimit_some (cap : Option Nat) (n : Nat) (why : Refusal) (h : overLimit cap n = some why) :
    (why = .bufferFull ∧ capFits cap n = false) ∨ (why = .counterLimit ∧ lenMax < n) := by
  unfold overLimit at h
  split at h
  · rename_i hc
    left
    cases cap with
    | none => simp at hc
    | some c => simp at hc; simp at h; exact ⟨h.symm, by simp [capFits]; omega⟩
  · split at h
    · right; rename_i hl; simp at h; exact ⟨h.symm, hl⟩
    · cases h

/-! ### The flow of a command -/

@[simp] theorem Result.ok_andThen {α : Type} (a : α) (f : α → Result α) : (Result.ok a).andThen f = f a := rfl
@[simp] theorem Result.raised_andThen {α : Type} (a : α) (f : α → Result α) :
    (Result.raised a).andThen f = .raised a := rfl
@[simp] theorem Result.refused_andThen {α : Type} (why : Refusal) (f : α → Result α) :
    (Result.refused why).andThen f = .refused why := rfl

/-- What went on to an end went on through both stretches. -/
theorem Result.andThen_ok {α : Type} {r : Result α} {f : α → Result α} {b : α} (h : r.andThen f = .ok b) :
    ∃ a, r = .ok a ∧ f a = .ok b := by
  cases r with
  | ok a => exact ⟨a, rfl, h⟩
  | raised a => cases h
  | refused why => cases h

/-- What raised did so in the first stretch or in the second. -/
theorem Result.andThen_raised {α : Type} {r : Result α} {f : α → Result α} {b : α} (h : r.andThen f = .raised b) :
    r = .raised b ∨ ∃ a, r = .ok a ∧ f a = .raised b := by
  cases r with
  | ok a => exact .inr ⟨a, rfl, h⟩
  | raised a => exact .inl h
  | refused why => cases h

@[simp] theorem encOutcome_ok (s : State) (e : Enc) : encOutcome s (.ok e) = .next (s.setEnc e) := rfl
@[simp] theorem encOutcome_raised (s : State) (e : Enc) : encOutcome s (.raised e) = .next (s.setEnc e) := rfl
@[simp] theorem encOutcome_refused (s : State) (why : Refusal) : encOutcome s (.refused why) = .refused why := rfl
@[simp] theorem decOutcome_ok (s : State) (d : Dec) : decOutcome s (.ok d) = .next (s.setDec d) := rfl
@[simp] theorem decOutcome_raised (s : State) (d : Dec) : decOutcome s (.raised d) = .next (s.setDec d) := rfl
@[simp] theorem decOutcome_refused (s : State) (why : Refusal) : decOutcome s (.refused why) = .refused why := rfl

/-- An encoder command that answers went on or raised. -/
theorem encOutcome_next {s t : State} {r : Result Enc} (h : encOutcome s r = .next t) :
    ∃ e, (r = .ok e ∨ r = .raised e) ∧ t = s.setEnc e := by
  cases r with
  | ok e => exact ⟨e, .inl rfl, by simpa [eq_comm] using h⟩
  | raised e => exact ⟨e, .inr rfl, by simpa [eq_comm] using h⟩
  | refused why => cases h

/-- A decoder command that answers went on or raised. -/
theorem decOutcome_next {s t : State} {r : Result Dec} (h : decOutcome s r = .next t) :
    ∃ d, (r = .ok d ∨ r = .raised d) ∧ t = s.setDec d := by
  cases r with
  | ok d => exact ⟨d, .inl rfl, by simpa [eq_comm] using h⟩
  | raised d => exact ⟨d, .inr rfl, by simpa [eq_comm] using h⟩
  | refused why => cases h

/-- A command of a call that answers ran in ACTIVE, or found FAULTED and did nothing (R14). -/
theorem inCall_next {p : Phase} {s t : State} {command : Out} (h : inCall p s command = .next t) :
    (p = .active ∧ command = .next t) ∨ (p = .faulted ∧ t = s) := by
  cases p with
  | idle => cases h
  | active => exact .inl ⟨rfl, h⟩
  | done => cases h
  | faulted => right; simp [inCall] at h; exact ⟨rfl, h.symm⟩

/-! ### The encoder -/

/-- Appending a run of symbols changes the scratch area and its position, nothing else. -/
theorem foldl_appendSym (syms : List Sym) (e : Enc) (h : e.spos.toNat + syms.length < 2 ^ 32) :
    syms.foldl appendSym e =
      { e with scr := memWriteAll e.scr e.spos.toNat syms, spos := e.spos + BitVec.ofNat 32 syms.length } := by
  induction syms generalizing e with
  | nil => simp [memWriteAll]
  | cons x t ih =>
    simp only [List.length_cons] at h
    have hp : (e.spos + 1).toNat = e.spos.toNat + 1 := by simp; omega
    have hlen : e.spos + 1 + BitVec.ofNat 32 t.length = e.spos + BitVec.ofNat 32 (t.length + 1) := by
      apply BitVec.eq_of_toNat_eq; simp; omega
    rw [List.foldl_cons, ih _ (by rw [appendSym_spos, hp]; omega)]
    simp only [appendSym_scr, appendSym_spos, hp, hlen, List.length_cons, memWriteAll]
    rfl

/-- `emit` with room appends the whole list (R114). -/
theorem emit_ok {cap : Option Nat} {syms : List Sym} {e : Enc}
    (hcap : capFits cap (e.spos.toNat + syms.length) = true) (hlen : e.spos.toNat + syms.length ≤ lenMax) :
    emit cap syms e =
      .ok { e with scr := memWriteAll e.scr e.spos.toNat syms, spos := e.spos + BitVec.ofNat 32 syms.length } := by
  have h : overLimit cap (e.spos.toNat + syms.length) = none := (overLimit_none_iff _ _).2 ⟨hcap, hlen⟩
  rw [emit, h]
  simp only
  rw [foldl_appendSym syms e (by have : lenMax = 2 ^ 32 - 1 := rfl; omega)]

/-- Everything `emit` can do: append the whole list, or refuse (R47, R114). -/
theorem emit_cases (cap : Option Nat) (syms : List Sym) (e : Enc) :
    (capFits cap (e.spos.toNat + syms.length) = true ∧ e.spos.toNat + syms.length ≤ lenMax ∧
      emit cap syms e =
        .ok { e with scr := memWriteAll e.scr e.spos.toNat syms, spos := e.spos + BitVec.ofNat 32 syms.length }) ∨
    ∃ why, emit cap syms e = .refused why ∧ overLimit cap (e.spos.toNat + syms.length) = some why := by
  cases h : overLimit cap (e.spos.toNat + syms.length) with
  | none =>
    obtain ⟨hc, hl⟩ := (overLimit_none_iff _ _).1 h
    exact .inl ⟨hc, hl, emit_ok hc hl⟩
  | some why => exact .inr ⟨why, by simp [emit, h], rfl⟩

/-- The unit counter goes on below its end (R24). -/
theorem countUnit_ok {e : Enc} (h : e.ucnt.toNat < lenMax) : countUnit e = .ok { e with ucnt := e.ucnt + 1 } := by
  rw [countUnit, if_neg (by omega)]

/-- Everything the unit counter can do. -/
theorem countUnit_cases (e : Enc) :
    (e.ucnt.toNat < lenMax ∧ countUnit e = .ok { e with ucnt := e.ucnt + 1 }) ∨
      (e.ucnt.toNat = lenMax ∧ countUnit e = .refused .counterLimit) := by
  have := e.ucnt.isLt
  by_cases h : e.ucnt.toNat = lenMax
  · exact .inr ⟨h, by simp [countUnit, h]⟩
  · have hl : e.ucnt.toNat < lenMax := by simp only [lenMax] at *; omega
    exact .inl ⟨hl, countUnit_ok hl⟩

/-- Everything a unit command that answers can have done (R14, R101): nothing in FAULTED; in ACTIVE, the error entry for
a unit after a pending surrogate, the pair's symbols, or what the unit's class does. -/
theorem unitCommand_next {u : CodeUnit} {cls : Enc → Result Enc} {s t : State} (h : unitCommand u cls s = .next t) :
    (s.enc.phase = .faulted ∧ t = s) ∨
    (s.enc.phase = .active ∧ s.enc.hsv = true ∧ isLowSurrogate u = false ∧
      t = s.setEnc (encRaise causeHighNotLow u s.enc.ucnt)) ∨
    (s.enc.phase = .active ∧ s.enc.hsv = true ∧ isLowSurrogate u = true ∧
      ∃ e, pairComplete s.caps.encScr u s.enc = .ok e ∧ e.ucnt.toNat < lenMax ∧
        t = s.setEnc { e with ucnt := e.ucnt + 1 }) ∨
    (s.enc.phase = .active ∧ s.enc.hsv = false ∧
      ((∃ e, cls s.enc = .raised e ∧ t = s.setEnc e) ∨
        ∃ e, cls s.enc = .ok e ∧ e.ucnt.toNat < lenMax ∧ t = s.setEnc { e with ucnt := e.ucnt + 1 })) := by
  rcases inCall_next h with ⟨hp, hc⟩ | ⟨hp, rfl⟩
  swap
  · exact .inl ⟨hp, rfl⟩
  obtain ⟨e, he, rfl⟩ := encOutcome_next hc
  have count : ∀ {e1 : Enc}, countUnit e1 = .ok e → e1.ucnt.toNat < lenMax ∧ e = { e1 with ucnt := e1.ucnt + 1 } := by
    intro e1 h1
    rcases countUnit_cases e1 with ⟨hl, hk⟩ | ⟨_, hk⟩ <;> rw [hk] at h1 <;> cases h1
    exact ⟨hl, rfl⟩
  have nocount : ∀ {e1 : Enc}, countUnit e1 ≠ .raised e := by
    intro e1 h1
    rcases countUnit_cases e1 with ⟨_, hk⟩ | ⟨_, hk⟩ <;> rw [hk] at h1 <;> cases h1
  right
  cases hs : s.enc.hsv with
  | true =>
    cases hu : isLowSurrogate u with
    | false =>
      left
      rw [acceptUnit, if_pos hs, if_neg (by simp [hu])] at he
      rcases he with he | he <;> cases he
      exact ⟨hp, rfl, rfl, rfl⟩
    | true =>
      right; left
      rw [acceptUnit, if_pos hs, if_pos hu] at he
      rcases he with he | he
      · obtain ⟨e1, h1, h2⟩ := Result.andThen_ok he
        obtain ⟨hl, rfl⟩ := count h2
        exact ⟨hp, rfl, rfl, e1, h1, hl, rfl⟩
      · rcases Result.andThen_raised he with h1 | ⟨e1, _, h2⟩
        · rcases Result.andThen_raised h1 with h1 | ⟨_, _, h2⟩
          · rcases emit_cases s.caps.encScr (symsFour (pairCodePoint s.enc.hs u)) s.enc with
              ⟨_, _, hk⟩ | ⟨_, hk, _⟩ <;> rw [hk] at h1 <;> cases h1
          · cases h2
        · exact absurd h2 nocount
  | false =>
    right; right
    rw [acceptUnit, if_neg (by simp [hs])] at he
    refine ⟨hp, rfl, ?_⟩
    rcases he with he | he
    · obtain ⟨e1, h1, h2⟩ := Result.andThen_ok he
      obtain ⟨hl, rfl⟩ := count h2
      exact .inr ⟨e1, h1, hl, rfl⟩
    · rcases Result.andThen_raised he with h1 | ⟨e1, _, h2⟩
      · exact .inl ⟨e, h1, rfl⟩
      · exact absurd h2 nocount

/-- Everything the packer can do in ACTIVE (R130, R131). -/
theorem packCommand_cases (cap : Option Nat) (n : Nat) (e : Enc) :
    (e.hsv = true ∧ packCommand cap n e = .raised (encRaise causeTrailingHigh e.hs (e.ucnt - 1))) ∨
    (e.hsv = false ∧ packCommand cap n e = .ok (packedEnc (pack (scratchSyms n e)) e)) ∨
    ∃ why, e.hsv = false ∧ packCommand cap n e = .refused why ∧
      overLimit cap (pack (scratchSyms n e)).length = some why := by
  cases h : e.hsv with
  | true => exact .inl ⟨rfl, by simp [packCommand, h]⟩
  | false =>
    cases ho : overLimit cap (pack (scratchSyms n e)).length with
    | none => exact .inr (.inl ⟨rfl, by simp [packCommand, h, ho]⟩)
    | some why => exact .inr (.inr ⟨why, rfl, by simp [packCommand, h, ho], rfl⟩)

/-! ### The decoder -/

/-- Everything `EmitUnit` can do (R47, R189). -/
theorem emitUnit_cases (cap : Option Nat) (w : CodeUnit) (d : Dec) :
    (UnitsFit cap d 1 ∧ emitUnit cap w d = .ok { d with out := memWrite d.out d.len.toNat w, len := d.len + 1 }) ∨
    ∃ why, emitUnit cap w d = .refused why ∧ overLimit cap (d.len.toNat + 1) = some why := by
  cases h : overLimit cap (d.len.toNat + 1) with
  | none => exact .inl ⟨(overLimit_none_iff _ _).1 h, by simp [emitUnit, h]⟩
  | some why => exact .inr ⟨why, by simp [emitUnit, h], rfl⟩

/-- `EmitUnit` with room (R189). -/
theorem emitUnit_ok {cap : Option Nat} {w : CodeUnit} {d : Dec} (h : UnitsFit cap d 1) :
    emitUnit cap w d = .ok { d with out := memWrite d.out d.len.toNat w, len := d.len + 1 } := by
  have ho := (overLimit_none_iff _ _).2 h
  simp [emitUnit, ho]

/-- Everything the byte counter can do (R24). -/
theorem countByte_cases (fin : Bool) (d : Dec) :
    (d.bcnt.toNat < lenMax ∧ countByte fin d = .ok { d with bcnt := d.bcnt + 1, fin := fin }) ∨
      (d.bcnt.toNat = lenMax ∧ countByte fin d = .refused .counterLimit) := by
  have := d.bcnt.isLt
  by_cases h : d.bcnt.toNat = lenMax
  · exact .inr ⟨h, by simp [countByte, h]⟩
  · have hl : d.bcnt.toNat < lenMax := by simp only [lenMax] at *; omega
    exact .inl ⟨hl, by simp [countByte, h]⟩

/-- Everything `EmitCodePoint` can do (R182 to R184): one unit, a pair, the error entry, or a refusal. -/
theorem emitCodePoint_cases (cap : Option Nat) (c : Reg32) (stolen : Bool) (d : Dec) :
    (c.toNat < 0x10000 ∧ UnitsFit cap d 1 ∧ emitCodePoint cap c stolen d =
      .ok { d with out := memWrite d.out d.len.toNat (c.extractLsb' 0 16), len := d.len + 1 }) ∨
    (0x10000 ≤ c.toNat ∧ c.toNat ≤ 0x10FFFF ∧ UnitsFit cap d 2 ∧ emitCodePoint cap c stolen d =
      .ok { d with
        out := memWrite (memWrite d.out d.len.toNat (highOf c)) (d.len.toNat + 1) (lowOf c), len := d.len + 1 + 1 }) ∨
    (0x10FFFF < c.toNat ∧ emitCodePoint cap c stolen d =
      .raised (decRaise causeCpRange (decInfo (c.extractLsb' 0 21) stolen 0) d)) ∨
    (c.toNat ≤ 0x10FFFF ∧ ∃ why, emitCodePoint cap c stolen d = .refused why) := by
  unfold emitCodePoint
  split
  · rename_i hc
    rcases emitUnit_cases cap (c.extractLsb' 0 16) d with ⟨hf, hk⟩ | ⟨why, hk, _⟩
    · exact .inl ⟨hc, hf, hk⟩
    · exact .inr (.inr (.inr ⟨by omega, why, hk⟩))
  · split
    · rename_i h1 h2
      rcases emitUnit_cases cap (highOf c) d with ⟨hf, hk⟩ | ⟨why, hk, _⟩
      · rw [hk, Result.ok_andThen]
        rcases emitUnit_cases cap (lowOf c)
          { d with out := memWrite d.out d.len.toNat (highOf c), len := d.len + 1 } with ⟨hf2, hk2⟩ | ⟨why, hk2, _⟩
        · have hl : (d.len + 1).toNat = d.len.toNat + 1 := by
            have := hf.2; simp only [lenMax] at this; simp; omega
          have hf3 : UnitsFit cap d 2 := by
            obtain ⟨ha, hb⟩ := hf2
            simp only [hl] at ha hb
            exact ⟨by simpa [Nat.add_assoc] using ha, by omega⟩
          rw [hk2]
          simp only [hl]
          exact .inr (.inl ⟨by omega, h2, hf3, trivial⟩)
        · exact .inr (.inr (.inr ⟨h2, why, hk2⟩))
      · exact .inr (.inr (.inr ⟨h2, why, by simp [hk]⟩))
    · rename_i h1 h2
      exact .inr (.inr (.inl ⟨by omega, rfl⟩))

/-- Everything a byte command that answers can have done (R14, R152): nothing in FAULTED; in ACTIVE, an error entry of
the direct or the stolen symbol, or both stretches and the count. -/
theorem byteCommand_next {hb fin : Bool} {direct : Dec → Result Dec} {s t : State}
    (h : byteCommand hb fin direct s = .next t) :
    (s.dec.phase = .faulted ∧ t = s) ∨
    (s.dec.phase = .active ∧ s.dec.fin = false ∧
      ((∃ d, direct (gatherBit hb s.dec) = .raised d ∧ t = s.setDec d) ∨
        ∃ d1, direct (gatherBit hb s.dec) = .ok d1 ∧
          ((∃ d, deliverStolen s.caps.decOut d1 = .raised d ∧ t = s.setDec d) ∨
            ∃ d2, deliverStolen s.caps.decOut d1 = .ok d2 ∧ d2.bcnt.toNat < lenMax ∧
              t = s.setDec { d2 with bcnt := d2.bcnt + 1, fin := fin }))) := by
  rcases inCall_next h with ⟨hp, hc⟩ | ⟨hp, rfl⟩
  swap
  · exact .inl ⟨hp, rfl⟩
  obtain ⟨d, hd, rfl⟩ := decOutcome_next hc
  right
  cases hf : s.dec.fin with
  | true => rw [acceptByte, if_pos hf] at hd; rcases hd with hd | hd <;> cases hd
  | false =>
    refine ⟨hp, rfl, ?_⟩
    rw [acceptByte, if_neg (by simp [hf]), unpackByte] at hd
    rcases hd with hd | hd
    · obtain ⟨d2, h2, h3⟩ := Result.andThen_ok hd
      obtain ⟨d1, h1, h2⟩ := Result.andThen_ok h2
      rcases countByte_cases fin d2 with ⟨hl, hk⟩ | ⟨_, hk⟩ <;> rw [hk] at h3 <;> cases h3
      exact .inr ⟨d1, h1, .inr ⟨d2, h2, hl, rfl⟩⟩
    · rcases Result.andThen_raised hd with h2 | ⟨d2, _, h3⟩
      · rcases Result.andThen_raised h2 with h1 | ⟨d1, h1, h2⟩
        · exact .inl ⟨d, h1, rfl⟩
        · exact .inr ⟨d1, h1, .inl ⟨d, h2, rfl⟩⟩
      · rcases countByte_cases fin d2 with ⟨_, hk⟩ | ⟨_, hk⟩ <;> rw [hk] at h3 <;> cases h3

/-- Everything `DEC_FINISH` can do in ACTIVE (R185). -/
theorem finishCommand_cases (d : Dec) :
    (d.rem ≠ 0 ∧ d.ph = false ∧
      finishCommand d = .raised (decRaise causeTruncated (decInfo (d.cp.extractLsb' 0 21) false d.rem) d)) ∨
    ((d.rem = 0 ∨ d.ph = true) ∧ finishCommand d = .ok (finishedDec d)) := by
  by_cases h : d.rem ≠ 0 ∧ d.ph = false
  · exact .inl ⟨h.1, h.2, by rw [finishCommand, if_pos h]⟩
  · refine .inr ⟨?_, by rw [finishCommand, if_neg h]⟩
    by_cases hr : d.rem = 0
    · exact .inl hr
    · exact .inr (by simpa using fun hp => h ⟨hr, hp⟩)

end Sys2Proof.Machine
end

