-- ==== Sys2Proof/Laws/Accumulator.lean ====
section
/-! SUPPORT. What `ProcessSymbol` and the stolen symbol can do, once for all classes. -/

namespace Sys2Proof.Machine

/-- The registers that the accumulator leaves to the unpacker. -/
abbrev SameGroup (d d' : Dec) : Prop :=
  d'.phase = d.phase ∧ d'.stage = d.stage ∧ d'.stolen = d.stolen ∧ d'.fin = d.fin ∧ d'.bcnt = d.bcnt ∧
    d'.expect = d.expect ∧ d'.cause = d.cause ∧ d'.einfo = d.einfo ∧ d'.eidx = d.eidx

/-- Outside a code point a symbol is classified (R65, R170). -/
theorem processSymbol_classified (cap : Option Nat) (x : Sym) (stolen : Bool) (d : Dec) (h : d.rem = 0) :
    processSymbol cap x stolen d = symAct cap (decodeSym false x) stolen d := by
  rw [processSymbol, bne_eq_false_iff_eq.2 h]

/-- Inside a code point every symbol is a trailer (R77). -/
theorem processSymbol_trail (cap : Option Nat) (x : Sym) (stolen : Bool) (d : Dec) (h : d.rem ≠ 0) :
    processSymbol cap x stolen d = symTrail cap x stolen d := by
  rw [processSymbol, bne_iff_ne.2 h]
  rfl

/-- `EmitUnit` leaves the unpacker's registers alone and never raises. -/
theorem emitUnit_frame {cap : Option Nat} {w : CodeUnit} {d d' : Dec} (h : emitUnit cap w d = .ok d') :
    SameGroup d d' ∧ d'.rem = d.rem ∧ d'.cp = d.cp ∧ d'.ph = d.ph := by
  rcases emitUnit_cases cap w d with ⟨_, hk⟩ | ⟨_, hk, _⟩ <;> rw [hk] at h <;> cases h
  simp [SameGroup]

theorem emitUnit_not_raised {cap : Option Nat} {w : CodeUnit} {d d' : Dec} : emitUnit cap w d ≠ .raised d' := by
  intro h
  rcases emitUnit_cases cap w d with ⟨_, hk⟩ | ⟨_, hk, _⟩ <;> rw [hk] at h <;> cases h

/-- What a trailer that goes on can have done (R181 to R183). -/
theorem symTrail_ok {cap : Option Nat} {x : Sym} {stolen : Bool} {d d' : Dec}
    (h : symTrail cap x stolen d = .ok d') :
    SameGroup d d' ∧ d'.ph = false ∧
      ((d.rem = 1 ∧ d'.rem = 0 ∧ d'.cp = 0 ∧
          (emitCodePoint cap (gather d.cp d.rem x) stolen { d with ph := false, rem := 0, cp := 0 } = .ok d')) ∨
        (d.rem ≠ 1 ∧ d' = { d with ph := false, rem := d.rem - 1, cp := gather d.cp d.rem x })) := by
  unfold symTrail at h
  simp only at h
  split at h
  · rename_i hr
    rcases emitCodePoint_cases cap (gather d.cp d.rem x) stolen { d with ph := false, rem := 0, cp := 0 } with
      ⟨_, _, hk⟩ | ⟨_, _, _, hk⟩ | ⟨_, hk⟩ | ⟨_, _, hk⟩ <;> (rw [hk] at h; cases h)
    · exact ⟨by simp [SameGroup], rfl, .inl ⟨hr, rfl, rfl, hk⟩⟩
    · exact ⟨by simp [SameGroup], rfl, .inl ⟨hr, rfl, rfl, hk⟩⟩
  · rename_i hr
    cases h
    exact ⟨by simp [SameGroup], rfl, .inr ⟨hr, rfl⟩⟩

/-- A trailer raises only CP_RANGE (R184). -/
theorem symTrail_raised {cap : Option Nat} {x : Sym} {stolen : Bool} {d d' : Dec}
    (h : symTrail cap x stolen d = .raised d') : ∃ info, d' = decRaise causeCpRange info d := by
  unfold symTrail at h
  simp only at h
  split at h
  · rcases emitCodePoint_cases cap (gather d.cp d.rem x) stolen { d with ph := false, rem := 0, cp := 0 } with
      ⟨_, _, hk⟩ | ⟨_, _, _, hk⟩ | ⟨_, hk⟩ | ⟨_, _, hk⟩ <;> (rw [hk] at h; cases h)
    exact ⟨_, rfl⟩
  · cases h

/-- A symbol that goes on leaves the unpacker's registers alone (R170). -/
theorem processSymbol_frame {cap : Option Nat} {x : Sym} {stolen : Bool} {d d' : Dec}
    (h : processSymbol cap x stolen d = .ok d') : SameGroup d d' := by
  unfold processSymbol symAct at h
  split at h
  iterate 5 exact (emitUnit_frame h).1
  iterate 3 (cases h; simp [SameGroup])
  · cases h
  · exact (symTrail_ok h).1

/-- A symbol raises only INVALID_SYMBOL or CP_RANGE, and then leaves the error entry (R203, R206). -/
theorem processSymbol_raised {cap : Option Nat} {x : Sym} {stolen : Bool} {d d' : Dec}
    (h : processSymbol cap x stolen d = .raised d') :
    ∃ cause info, (cause = causeInvalidSymbol ∨ cause = causeCpRange) ∧ d' = decRaise cause info d := by
  unfold processSymbol symAct at h
  split at h
  iterate 5 exact absurd h emitUnit_not_raised
  iterate 3 cases h
  · cases h; exact ⟨_, _, .inl rfl, rfl⟩
  · obtain ⟨info, rfl⟩ := symTrail_raised h
    exact ⟨_, info, .inr rfl, rfl⟩

/-- The stolen symbol is delivered after the seventh byte and at no other (R152, R155). -/
theorem deliverStolen_cases (cap : Option Nat) (d : Dec) :
    (d.stage = 7 ∧ deliverStolen cap d =
      processSymbol cap (stolenSym d.stolen) true { d with stolen := 0, stage := 0 }) ∨
    (d.stage ≠ 7 ∧ deliverStolen cap d = .ok d) := by
  by_cases h : d.stage = 7
  · exact .inl ⟨h, by rw [deliverStolen, if_pos h]⟩
  · exact .inr ⟨h, by rw [deliverStolen, if_neg h]⟩

end Sys2Proof.Machine
end

