-- ==== Sys2Proof/Laws/Calls.lean ====
section
/-! SUPPORT. How the parts of a host call compose, and what the reads of its result leave alone. -/

namespace Sys2Proof.Machine

/-! ### Runs -/

@[simp] theorem thenOut_next {β : Type} (s : State) (f : State → Host.Outcome β Fault Refusal) :
    thenOut (.next s) f = f s := rfl
@[simp] theorem thenOut_refused {β : Type} (r : Refusal) (f : State → Host.Outcome β Fault Refusal) :
    thenOut (.refused r) f = .refused r := rfl

/-- Parts of a call may be grouped either way. -/
theorem thenOut_assoc {β : Type} (o : Out) (f : State → Out) (g : State → Host.Outcome β Fault Refusal) :
    thenOut (thenOut o f) g = thenOut o fun s => thenOut (f s) g := by
  cases o <;> rfl

@[simp] theorem runEvents_nil (s : State) : runEvents [] s = .next (s.setPending []) := rfl

/-- One more step of a run is a step and then the rest of the run. -/
theorem run_step (n : Nat) (s : State) :
    Host.Core.run Sys2Proof.core (n + 1) s = thenOut (step s) (Host.Core.run Sys2Proof.core n) := by
  simp only [Host.Core.run, core]
  cases step s <;> rfl

/-- A run over events is the step of the first and then the run from the state it leaves. -/
theorem runEvents_cons (ev : HostEvent) (events : List HostEvent) (s : State) :
    runEvents (ev :: events) s = thenOut (takeEvent ev (s.setPending events)) (Host.Core.run Sys2Proof.core events.length) :=
  run_step events.length _

/-! ### The reads are steps of the machine -/

theorem step_readReg (blk : Block) (sel : BitVec 3) (rest : List HostEvent) (s : State) :
    step (s.setPending (.readReg blk sel :: rest)) = .next (readReg blk sel (s.setPending rest)) := rfl

theorem step_readBuf (blk : Block) (idx : Reg32) (rest : List HostEvent) (s : State) :
    step (s.setPending (.readBuf blk idx :: rest)) = .next (readBuf blk idx (s.setPending rest)) := rfl

@[simp] theorem readReg_enc (blk : Block) (sel : BitVec 3) (s : State) : (readReg blk sel s).enc = s.enc := rfl
@[simp] theorem readReg_dec (blk : Block) (sel : BitVec 3) (s : State) : (readReg blk sel s).dec = s.dec := rfl
@[simp] theorem readReg_caps (blk : Block) (sel : BitVec 3) (s : State) : (readReg blk sel s).caps = s.caps := rfl
@[simp] theorem readBuf_enc (blk : Block) (idx : Reg32) (s : State) : (readBuf blk idx s).enc = s.enc := by
  cases blk <;> rfl
@[simp] theorem readBuf_dec (blk : Block) (idx : Reg32) (s : State) : (readBuf blk idx s).dec = s.dec := by
  cases blk <;> rfl
@[simp] theorem readBuf_caps (blk : Block) (idx : Reg32) (s : State) : (readBuf blk idx s).caps = s.caps := by
  cases blk <;> rfl

/-- Reading the bytes of a result changes neither instance, and finds as many elements as are asked for. -/
theorem readEncOut_frame (n i : Nat) (s : State) :
    (readEncOut n i s).1.enc = s.enc ∧ (readEncOut n i s).1.dec = s.dec ∧ (readEncOut n i s).1.caps = s.caps ∧
      (readEncOut n i s).2.length = n := by
  induction n generalizing i s with
  | zero => exact ⟨rfl, rfl, rfl, rfl⟩
  | succ n ih =>
    obtain ⟨h1, h2, h3, h4⟩ := ih (i + 1) (readBuf .enc (BitVec.ofNat 32 i) s)
    exact ⟨by simpa [readEncOut] using h1, by simpa [readEncOut] using h2, by simpa [readEncOut] using h3,
      by simpa [readEncOut] using h4⟩

/-- Reading the units of a text changes neither instance, and finds as many elements as are asked for. -/
theorem readDecOut_frame (n i : Nat) (s : State) :
    (readDecOut n i s).1.enc = s.enc ∧ (readDecOut n i s).1.dec = s.dec ∧ (readDecOut n i s).1.caps = s.caps ∧
      (readDecOut n i s).2.length = n := by
  induction n generalizing i s with
  | zero => exact ⟨rfl, rfl, rfl, rfl⟩
  | succ n ih =>
    obtain ⟨h1, h2, h3, h4⟩ := ih (i + 1) (readBuf .dec (BitVec.ofNat 32 i) s)
    exact ⟨by simpa [readDecOut] using h1, by simpa [readDecOut] using h2, by simpa [readDecOut] using h3,
      by simpa [readDecOut] using h4⟩

end Sys2Proof.Machine
end

