-- ==== Sys2Proof/Laws/PerInstr.lean ====
section
/-! SUPPORT. Statements made per instruction, one lemma per constructor. -/

namespace Sys2Proof.Laws

/-- The formats of spec/30_encoding.md: a command of a block, a code unit, a symbol with its table's condition
(`dec.rem > 0` or `dec.rem = 0`), a byte. -/
inductive Format where
  | cmd (blk : Block)
  | unit16
  | sym7 (inside : Bool)
  | pbyte8
  deriving DecidableEq, Repr

/-- The format of an item. -/
def formatOf : Item → Format
  | .cmd blk _ => .cmd blk
  | .unit16 _ => .unit16
  | .sym7 inside _ => .sym7 inside
  | .pbyte8 _ => .pbyte8

/-- The format, block and condition that the instruction's rows of spec/opcode_table.json give. -/
def rowFormat : Instr → Format
  | .encBegin => .cmd .enc
  | .encUnit _ => .cmd .enc
  | .encEnd => .cmd .enc
  | .decPrepare _ => .cmd .dec
  | .decByte _ _ => .cmd .dec
  | .decFinish => .cmd .dec
  | .eNul => .unit16
  | .eOvl _ => .unit16
  | .eBel => .unit16
  | .eBs => .unit16
  | .eCtl _ => .unit16
  | .eLit _ => .unit16
  | .eTwo _ _ => .unit16
  | .eThree _ _ _ => .unit16
  | .eHigh _ => .unit16
  | .eLow _ => .unit16
  | .dLead2 _ => .sym7 false
  | .dLead3 _ => .sym7 false
  | .dLead4 => .sym7 false
  | .dInvalid _ => .sym7 false
  | .dCtl _ => .sym7 false
  | .dBs => .sym7 false
  | .dBel => .sym7 false
  | .dLit _ => .sym7 false
  | .dNul => .sym7 false
  | .dTrail _ => .sym7 true
  | .pbyte _ _ => .pbyte8

/-- An instruction is encoded in the format of its rows (R60 to R67). -/
def EncodedFormat.Statement (i : Instr) : Prop := formatOf (encode i) = rowFormat i

namespace EncodedFormat

theorem encBegin : Statement (.encBegin) := rfl
theorem encUnit (u : CodeUnit) : Statement (.encUnit u) := rfl
theorem encEnd : Statement (.encEnd) := rfl
theorem decPrepare (n : Reg32) : Statement (.decPrepare n) := rfl
theorem decByte (b : Byte) (fin : Bool) : Statement (.decByte b fin) := rfl
theorem decFinish : Statement (.decFinish) := rfl
theorem eNul : Statement (.eNul) := rfl
theorem eOvl (raw : Sym) : Statement (.eOvl raw) := rfl
theorem eBel : Statement (.eBel) := rfl
theorem eBs : Statement (.eBs) := rfl
theorem eCtl (ch : Sym) : Statement (.eCtl ch) := rfl
theorem eLit (sym : Sym) : Statement (.eLit sym) := rfl
theorem eTwo (hi : BitVec 4) (lo : Sym) : Statement (.eTwo hi lo) := rfl
theorem eThree (hi : BitVec 2) (mid lo : Sym) : Statement (.eThree hi mid lo) := rfl
theorem eHigh (payload : BitVec 10) : Statement (.eHigh payload) := rfl
theorem eLow (payload : BitVec 10) : Statement (.eLow payload) := rfl
theorem dLead2 (h : BitVec 4) : Statement (.dLead2 h) := rfl
theorem dLead3 (h : BitVec 2) : Statement (.dLead3 h) := rfl
theorem dLead4 : Statement (.dLead4) := rfl
theorem dInvalid (sym : Sym) : Statement (.dInvalid sym) := rfl
theorem dCtl (sym : Sym) : Statement (.dCtl sym) := rfl
theorem dBs : Statement (.dBs) := rfl
theorem dBel : Statement (.dBel) := rfl
theorem dLit (sym : Sym) : Statement (.dLit sym) := rfl
theorem dNul : Statement (.dNul) := rfl
theorem dTrail (payload : Sym) : Statement (.dTrail payload) := rfl
theorem pbyte (hb : Bool) (sym : Sym) : Statement (.pbyte hb sym) := rfl

end EncodedFormat

end Sys2Proof.Laws
end

