-- ==== Sys2Proof/Tests/Slice0.lean ====
section
/-! SUPPORT. Tests of one operation or one step each, and a witness for the hypotheses of every statement that has
some. Expected words, symbols, units and records are those of spec/30_encoding.md and spec/95_test_vectors.md. -/

namespace Sys2Proof.Tests

open Sys2Proof.Machine

/-! ### Helpers -/

/-- The encoder of a next state. -/
def encOf : Out → Option Enc
  | .next t => some t.enc
  | .fault _ => none
  | .refused _ => none

/-- The decoder of a next state. -/
def decOf : Out → Option Dec
  | .next t => some t.dec
  | .fault _ => none
  | .refused _ => none

/-- Why a command was refused. -/
def whyOf : Out → Option Refusal
  | .next _ => none
  | .fault _ => none
  | .refused r => some r

/-- What a call answered. -/
def answerOf {α : Type} : CallOut α → Option α
  | .next r => r.2
  | .fault _ => none
  | .refused _ => none

/-- The symbols in `ENC.SCR` after a step. -/
def symsAfter (o : Out) : Option (List Sym) := (encOf o).map fun e => e.scr.map Prod.snd

/-- The units in `DEC.OUT` after a step. -/
def unitsAfter (o : Out) : Option (List CodeUnit) := (decOf o).map fun d => d.out.map Prod.snd

/-- An encoder inside a call with these symbols classified from `n` units. -/
def encWith (n : Reg32) (syms : List Sym) : State :=
  State.reset.setEnc { encOpened with scr := memWriteAll [] 0 syms, spos := BitVec.ofNat 32 syms.length, ucnt := n }

/-- An encoder inside a call whose only unit so far is a high surrogate. -/
def encPending (h : CodeUnit) : State := State.reset.setEnc { encOpened with hsv := true, hs := h, ucnt := 1 }

/-- A decoder inside a call at a byte of its group with the stolen bits before it. -/
def decAt (stage : BitVec 3) (stolen : Byte) : State :=
  State.reset.setDec { decOpened 7 with stage := stage, stolen := stolen, bcnt := stage.setWidth 32 }

/-- A decoder inside a call that owes trailers. -/
def decOwing (rem : BitVec 2) (cp : Reg32) : State :=
  State.reset.setDec { decOpened 7 with rem := rem, cp := cp, stage := 1, bcnt := 1 }

/-- A state with other capacities. -/
def withCaps (scr out dec : Option Nat) (s : State) : State :=
  { s with caps := { encScr := scr, encOut := out, decOut := dec } }

/-! ### Ill-formed operands, one for each check of WellFormed -/

theorem test_ovl_refuses_literal : (Instr.eOvl 0x41).wf = false := by decide
theorem test_ovl_refuses_shifted_control : (Instr.eOvl 0x0D).wf = false := by decide
theorem test_ctl_refuses_shift_out : (Instr.eCtl 0x0E).wf = false := by decide
theorem test_lit_refuses_delete : (Instr.eLit 0x7F).wf = false := by decide
theorem test_two_refuses_ascii : (Instr.eTwo 0 0x41).wf = false := by decide
theorem test_three_refuses_two_symbol_unit : (Instr.eThree 0 0x0F 0x7F).wf = false := by decide
theorem test_three_refuses_high_surrogate : (Instr.eThree 3 0x30 0).wf = false := by decide
theorem test_three_refuses_low_surrogate : (Instr.eThree 3 0x3F 0x7F).wf = false := by decide
theorem test_invalid_refuses_lead4 : (Instr.dInvalid 0x14).wf = false := by decide
theorem test_dctl_refuses_bs : (Instr.dCtl 0x1E).wf = false := by decide
theorem test_dlit_refuses_nul : (Instr.dLit 0x7F).wf = false := by decide

/-! ### Words written out from the encodings of R60 to R67 -/

theorem test_decode_enc_begin : decode (.cmd .enc 0x000000000) = .ok .encBegin := by decide
theorem test_decode_enc_unit : decode (.cmd .enc 0x10000D83D) = .ok (.encUnit 0xD83D) := by decide
theorem test_decode_enc_end : decode (.cmd .enc 0x200000000) = .ok .encEnd := by decide
theorem test_decode_dec_prepare : decode (.cmd .dec 0x80000000D) = .ok (.decPrepare 13) := by decide
theorem test_decode_dec_byte : decode (.cmd .dec 0x9000000C8) = .ok (.decByte 0xC8 false) := by decide
theorem test_decode_dec_byte_final : decode (.cmd .dec 0x900000121) = .ok (.decByte 0x21 true) := by decide
theorem test_decode_dec_finish : decode (.cmd .dec 0xA00000000) = .ok .decFinish := by decide
theorem test_decode_other_block : decode (.cmd .enc 0x900000041) = .error .reservedOp := by decide
theorem test_decode_must_be_zero : decode (.cmd .dec 0x900000200) = .error .nonzeroMustBeZero := by decide
theorem test_decode_e_nul : decode (.unit16 0x0000) = .ok .eNul := by decide
theorem test_decode_e_ovl : decode (.unit16 0x001B) = .ok (.eOvl 0x1B) := by decide
theorem test_decode_e_ovl_delete : decode (.unit16 0x007F) = .ok (.eOvl 0x7F) := by decide
theorem test_decode_e_bel : decode (.unit16 0x0007) = .ok .eBel := by decide
theorem test_decode_e_bs : decode (.unit16 0x0008) = .ok .eBs := by decide
theorem test_decode_e_ctl : decode (.unit16 0x000D) = .ok (.eCtl 0x0D) := by decide
theorem test_decode_e_lit : decode (.unit16 0x007E) = .ok (.eLit 0x7E) := by decide
theorem test_decode_e_two : decode (.unit16 0x03A9) = .ok (.eTwo 0x7 0x29) := by decide
theorem test_decode_e_three : decode (.unit16 0x20AC) = .ok (.eThree 0 0x41 0x2C) := by decide
theorem test_decode_e_high : decode (.unit16 0xD83D) = .ok (.eHigh 0x03D) := by decide
theorem test_decode_e_low : decode (.unit16 0xDE00) = .ok (.eLow 0x200) := by decide
theorem test_decode_d_lead2 : decode (.sym7 false 0x0F) = .ok (.dLead2 0xF) := by decide
theorem test_decode_d_lead3 : decode (.sym7 false 0x13) = .ok (.dLead3 3) := by decide
theorem test_decode_d_lead4 : decode (.sym7 false 0x14) = .ok .dLead4 := by decide
theorem test_decode_d_invalid : decode (.sym7 false 0x15) = .ok (.dInvalid 0x15) := by decide
theorem test_decode_d_ctl : decode (.sym7 false 0x1D) = .ok (.dCtl 0x1D) := by decide
theorem test_decode_d_bs : decode (.sym7 false 0x1E) = .ok .dBs := by decide
theorem test_decode_d_bel : decode (.sym7 false 0x1F) = .ok .dBel := by decide
theorem test_decode_d_lit : decode (.sym7 false 0x7E) = .ok (.dLit 0x7E) := by decide
theorem test_decode_d_nul : decode (.sym7 false 0x7F) = .ok .dNul := by decide
theorem test_decode_d_trail : decode (.sym7 true 0x15) = .ok (.dTrail 0x15) := by decide
theorem test_decode_pbyte : decode (.pbyte8 0x94) = .ok (.pbyte true 0x14) := by decide
theorem test_table_command : decodeTableWord 40 0x900000121 = some (.decByte 0x21 true) := by decide
theorem test_table_unit : decodeTableWord 16 0x0800 = some (.eThree 0 0x10 0) := by decide
theorem test_table_symbol : decodeTableWord 8 0x14 = some .dLead4 := by decide
theorem test_table_byte : decodeTableWord 8 0xC1 = some (.pbyte true 0x41) := by decide

/-! ### The encoder, one step (spec/95 2.1, 2.2, P1) -/

theorem test_begin_clears_an_error :
    encOf (exec .encBegin (State.reset.setEnc (encRaise 3 0xDC00 9))) = some encOpened := by decide
theorem test_unit_three_symbols :
    symsAfter (exec (.encUnit 0x20AC) (encWith 1 [0x41])) = some [0x41, 0x10, 0x41, 0x2C] := by decide
theorem test_unit_outside_a_call : whyOf (exec (.encUnit 0x41) State.reset) = some .outsideCall := by decide
theorem test_end_packs_eight_symbols :
    (encOf (exec .encEnd (encWith 8 [0x41, 0x42, 0x43, 0x44, 0x45, 0x46, 0x47, 0x48]))).map
      (fun e => (e.out.map Prod.snd, e.len, e.phase)) =
      some ([0xC1, 0x42, 0x43, 0xC4, 0x45, 0x46, 0x47], 7, .done) := by decide
theorem test_end_trailing_high :
    (encOf (exec .encEnd (encPending 0xD800))).map (fun e => (encStatus e, e.einfo, e.eidx)) =
      some (0x0000001B, 0xD800, 0) := by decide
theorem test_nul : symsAfter (exec .eNul (encWith 1 [0x41])) = some [0x41, 0x7F] := by decide
theorem test_ovl : symsAfter (exec (.eOvl 0x1B) (encWith 0 [])) = some [0x00, 0x1B] := by decide
theorem test_bel : symsAfter (exec .eBel (encWith 0 [])) = some [0x1F] := by decide
theorem test_bs : symsAfter (exec .eBs (encWith 0 [])) = some [0x1E] := by decide
theorem test_ctl : symsAfter (exec (.eCtl 0x0D) (encWith 0 [])) = some [0x1D] := by decide
theorem test_lit : symsAfter (exec (.eLit 0x7E) (encWith 0 [])) = some [0x7E] := by decide
theorem test_lit_after_high :
    (encOf (exec (.eLit 0x41) (encPending 0xD800))).map (fun e => (encStatus e, e.einfo, e.eidx)) =
      some (0x0000002B, 0x0041, 1) := by decide
theorem test_two : symsAfter (exec (.eTwo 0x7 0x29) (encWith 0 [])) = some [0x07, 0x29] := by decide
theorem test_three : symsAfter (exec (.eThree 3 0x2F 0x7F) (encWith 0 [])) = some [0x13, 0x2F, 0x7F] := by decide
theorem test_high_waits :
    (encOf (exec (.eHigh 0x03D) (encWith 0 []))).map (fun e => (e.hs, e.ucnt, e.spos, encStatus e)) =
      some (0xD83D, 1, 0, 0x00000081) := by decide
theorem test_low_completes_the_pair :
    symsAfter (exec (.eLow 0x200) (encPending 0xD83D)) = some [0x14, 0x07, 0x6C, 0x00] := by decide
theorem test_low_alone :
    (encOf (exec (.eLow 0x3FF) (encWith 1 [0x41]))).map (fun e => (encStatus e, e.einfo, e.eidx)) =
      some (0x0000003B, 0xDFFF, 1) := by decide

/-! ### The decoder, one step (spec/95 2.4 to 2.6, P2) -/

theorem test_prepare :
    (decOf (exec (.decPrepare 13) (decOwing 2 0x2000))).map (fun d => (decStatus d, d.expect, d.cp)) =
      some (0x00000001, 13, 0) := by decide
theorem test_seventh_byte_delivers_the_stolen_symbol :
    (decOf (exec (.decByte 0x47 true) (decAt 6 0x24))).map (fun d => (d.out.map Prod.snd, d.bcnt, decStatus d)) =
      some ([0x0047, 0x0048], 7, 0x00000081) := by decide
theorem test_phantom_lead :
    (decOf (exec (.decByte 0x41 false) (decAt 6 0x00))).map (fun d => (d.out.map Prod.snd, d.rem, d.ph)) =
      some ([0x0041], 1, true) := by decide
theorem test_finish_drops_the_phantom :
    (decOf (exec .decFinish (State.reset.setDec { decOpened 7 with rem := 1, ph := true, bcnt := 7 }))).map
      decStatus = some 0x00000006 := by decide
theorem test_finish_truncated :
    (decOf (exec .decFinish (decOwing 1 0x80))).map (fun d => (d.phase, d.einfo, d.eidx)) =
      some (.faulted, 0x10000080, 1) := by decide
theorem test_lead2 :
    (decOf (exec (.dLead2 0x1) (decAt 4 0x08))).map (fun d => (d.cp, d.stolen, decStatus d)) =
      some (0x80, 0x10, 0x00005201) := by decide
theorem test_lead3 :
    (decOf (exec (.dLead3 3) (decAt 0 0))).map (fun d => (d.cp, decStatus d)) = some (0xC000, 0x00001401) := by decide
theorem test_lead4 :
    (decOf (exec .dLead4 (decAt 1 0))).map (fun d => (d.cp, decStatus d)) = some (0, 0x00002601) := by decide
theorem test_invalid :
    (decOf (exec (.dInvalid 0x18) (decAt 1 0))).map (fun d => (d.phase, d.einfo, d.eidx, d.cause)) =
      some (.faulted, 0x00000018, 1, 1) := by decide
theorem test_dctl : unitsAfter (exec (.dCtl 0x1D) (decAt 0 0)) = some [0x000D] := by decide
theorem test_dbs : unitsAfter (exec .dBs (decAt 0 0)) = some [0x0008] := by decide
theorem test_dbel : unitsAfter (exec .dBel (decAt 0 0)) = some [0x0007] := by decide
theorem test_dlit : unitsAfter (exec (.dLit 0x20) (decAt 0 0)) = some [0x0020] := by decide
theorem test_dnul : unitsAfter (exec .dNul (decAt 0 0)) = some [0x0000] := by decide
theorem test_trail_emits_a_pair :
    unitsAfter (exec (.dTrail 0x00) (decOwing 1 0x1F600)) = some [0xD83D, 0xDE00] := by decide
theorem test_trail_out_of_range :
    (decOf (exec (.dTrail 0x00) (decOwing 1 0x110000))).map (fun d => (d.cause, d.einfo)) =
      some (3, 0x00110000) := by decide
theorem test_pbyte_as_trailer_then_stolen_classified :
    (decOf (exec (.pbyte true 0x10) (decAt 6 0x20))).map (fun d => (d.rem, d.cp, decStatus d)) =
      some (1, 0x2080, 0x00000201) := by decide

/-! ### The ports -/

theorem test_rst_clears_one_block :
    decOf (step ((decOwing 2 0x2000).setPending [.rst .dec])) = some Dec.reset := by decide
theorem test_reserved_word_refused_even_when_faulted :
    whyOf (step ((State.reset.setEnc (encRaise 3 0xDC00 0)).setPending [.cmd .enc 0x300000000])) =
      some (.reservedEncoding .reservedOp) := by decide
theorem test_fetch_word_runs_a_class :
    unitsAfter (step (State.reset.withFetchWord 8 0x41)) = some [0x0041] := by decide

/-! ### The calls (spec/95 sections 1 and 2, P5) -/

theorem test_encode_call_of_the_empty_text : answerOf (encodeCall [] State.reset) = some ([], 0) := by decide
theorem test_encode_call_of_a_lone_low : answerOf (encodeCall [0xDC00] State.reset) = none := by decide
theorem test_decode_call_sends_the_first_bytes :
    answerOf (decodeCall [0x41, 0x15] 1 State.reset) = some [0x0041] := by decide
theorem test_finish_decode_of_an_empty_stream : answerOf (finishDecode (decAt 0 0)) = some [] := by decide

/-! ### Witnesses: a concrete state and operands that meet the hypotheses of a statement

`witness_<Name>` belongs to `Obligations.<Name>`; a statement with several clauses has several. -/

theorem witness_DecodeInvertsEncode : (Instr.eThree 0 0x10 0).wf = true ∧ (Instr.eThree 3 0x40 0).wf = true := by
  decide
theorem witness_EncodeInvertsDecode : decode (.cmd .dec 0x9000001FF) = .ok (.decByte 0xFF true) := by decide

theorem witness_ReservedCommandWordsAreRefused_op :
    (State.reset.setPending [.cmd .enc 0x300000000]).pending = .cmd .enc 0x300000000 :: [] ∧
      (cmdOp 0x300000000).toNat ≠ 0 ∧ (cmdOp 0x300000000).toNat ≠ 1 ∧ (cmdOp 0x300000000).toNat ≠ 2 ∧
      (State.reset.setPending [.cmd .dec 0x700000000]).pending = .cmd .dec 0x700000000 :: [] ∧
      (cmdOp 0x700000000).toNat ≠ 8 ∧ (cmdOp 0x700000000).toNat ≠ 9 ∧ (cmdOp 0x700000000).toNat ≠ 10 := by decide
theorem witness_ReservedCommandWordsAreRefused_enc :
    (cmdOp 0x200000001).toNat = 2 ∧ (cmdArg 0x200000001).toNat ≠ 0 ∧ (cmdOp 0x080000000).toNat = 0 ∧
      (cmdArg 0x080000000).toNat ≠ 0 ∧ (cmdOp 0x100010000).toNat = 1 ∧ 2 ^ 16 ≤ (cmdArg 0x100010000).toNat := by decide
theorem witness_ReservedCommandWordsAreRefused_dec :
    (cmdOp 0xA00000001).toNat = 10 ∧ (cmdArg 0xA00000001).toNat ≠ 0 ∧ (cmdOp 0x900000200).toNat = 9 ∧
      2 ^ 9 ≤ (cmdArg 0x900000200).toNat := by decide

theorem witness_StepRunsTheDecodedCommand :
    ((encWith 0 []).setPending [.cmd .enc 0x100000041]).pending = .cmd .enc 0x100000041 :: [] ∧
      decode (.cmd .enc 0x100000041) = .ok (.encUnit 0x0041) := by decide
theorem witness_ClassesRunAsTheCommandThatCarriesThem : (Instr.dLead2 0xF).wf = true ∧ (Instr.eOvl 0x7F).wf = true := by
  decide
theorem witness_TableWordsRunAtTheNextStep :
    (tableItem 40 0x900000121 = some (.cmd .dec 0x900000121) ∧
      decode (.cmd .dec 0x900000121) = .ok (.decByte 0x21 true)) ∧
    (tableItem 16 0xFFFF = some (.unit16 0xFFFF) ∧ decode (.unit16 0xFFFF) = .ok (.eThree 3 0x7F 0x7F)) ∧
    (tableItem 8 0x7F = some (.sym7 false 0x7F) ∧ decode (.sym7 false 0x7F) = .ok .dNul) ∧
    (tableItem 8 0x80 = some (.pbyte8 0x80) ∧ decode (.pbyte8 0x80) = .ok (.pbyte true 0)) := by decide

theorem witness_OneSymbolClassesAppendTheirSymbol :
    EncReady (withCaps (some 2) none none (encWith 1 [0x41])) 1 ∧ isPrintable 0x20 = true ∧ isPrintable 0x7E = true ∧
      isShiftedControl 0x09 = true ∧ isShiftedControl 0x0D = true := by decide
theorem witness_TwoSymbolClassesAppendTheirSymbols :
    EncReady (withCaps (some 3) none none (encWith 1 [0x41])) 2 ∧ isOverlongControl 0x01 = true ∧
      isOverlongControl 0x0E = true ∧ isOverlongControl 0x7F = true ∧ (1 : BitVec 4) ≠ 0 := by decide
theorem witness_ThreeSymbolClassAppendsItsSymbols :
    EncReady (withCaps (some 4) none none (encWith 1 [0x41])) 3 ∧ isThreeSymbol 0 0x10 0 = true ∧
      isThreeSymbol 3 0x2F 0x7F = true := by decide
theorem witness_HighSurrogateWaits :
    (encWith 0xFFFFFFFE []).enc.phase = .active ∧ (encWith 0xFFFFFFFE []).enc.hsv = false ∧
      (encWith 0xFFFFFFFE []).enc.ucnt.toNat < lenMax := by decide
theorem witness_LowSurrogateCompletesThePairOrFaults_pair :
    let s := withCaps (some 4) none none (encPending 0xDBFF)
    s.enc.phase = .active ∧ s.enc.hsv = true ∧ isHighSurrogate s.enc.hs = true ∧
      capFits s.caps.encScr (s.enc.spos.toNat + 4) = true ∧ s.enc.spos.toNat + 4 ≤ lenMax ∧
      s.enc.ucnt.toNat < lenMax := by decide
theorem witness_LowSurrogateCompletesThePairOrFaults_alone :
    (encWith 0 []).enc.phase = .active ∧ (encWith 0 []).enc.hsv = false := by decide
theorem witness_UnitAfterPendingHighMustBeLow :
    isUnitInstr (.encUnit 0xDBFF) = true ∧ (encPending 0xD800).enc.phase = .active ∧
      (encPending 0xD800).enc.hsv = true ∧ isLowSurrogate (unitOfInstr (.encUnit 0xDBFF)) = false ∧
      isUnitInstr (.eThree 3 0x40 0) = true ∧ isLowSurrogate (unitOfInstr (.eThree 3 0x40 0)) = false := by decide
theorem witness_EncUnitAppendsTheSymbolsOfItsUnit :
    isHighSurrogate 0xD7FF = false ∧ isLowSurrogate 0xD7FF = false ∧
      EncReady (withCaps (some 3) none none (encWith 0 [])) (unitSyms 0xD7FF).length ∧
      isHighSurrogate 0xE000 = false ∧ isLowSurrogate 0xE000 = false ∧
      EncReady (withCaps (some 3) none none (encWith 0 [])) (unitSyms 0xE000).length := by decide
theorem witness_UnitCommandsCompleteWithRoom :
    let s := withCaps (some 5) none none (encWith 1 [0x41])
    isUnitInstr (.eLow 0) = true ∧ s.enc.phase = .active ∧
      capFits s.caps.encScr (s.enc.spos.toNat + 4) = true ∧ s.enc.spos.toNat + 4 ≤ lenMax ∧
      s.enc.ucnt.toNat < lenMax := by decide
theorem witness_UnitCommandFrame :
    (isUnitInstr (.eTwo 0xF 0x7F) = true ∧ (Instr.eTwo 0xF 0x7F).wf = true ∧ (encWith 1 [0x41]).enc.phase = .active ∧
      ∃ t, exec (.eTwo 0xF 0x7F) (encWith 1 [0x41]) = .next t ∧ t.enc.phase = .active) ∧
    (isUnitInstr (.encUnit 0xDFFF) = true ∧ (Instr.encUnit 0xDFFF).wf = true ∧
      ∃ t, exec (.encUnit 0xDFFF) (encPending 0xDBFF) = .next t ∧ t.enc.phase = .active) := by
  refine ⟨⟨by decide, by decide, by decide, _, rfl, by decide⟩, by decide, by decide, _, rfl, by decide⟩

theorem witness_EncEndPacksTheScratchArea :
    let s := withCaps none (some 1) none (encWith 1 [0x41])
    s.enc.phase = .active ∧ s.enc.hsv = false ∧ [(0x41 : Sym)].length = s.enc.spos.toNat ∧
      (∀ j : Nat, j < [(0x41 : Sym)].length → memRead s.enc.scr j = [(0x41 : Sym)][j]?) ∧
      capFits s.caps.encOut (7 * ([(0x41 : Sym)].length / 8) + [(0x41 : Sym)].length % 8) = true := by
  refine ⟨by decide, by decide, by decide, fun j hj => ?_, by decide⟩
  obtain rfl : j = 0 := by simpa using hj
  decide
theorem witness_PackCutsGroupsAndTail :
    [(0x41 : Sym), 0x42, 0x43, 0x44, 0x45, 0x46, 0x47].length = 7 ∧
      [(0x41 : Sym), 0x42, 0x43, 0x44, 0x45, 0x46, 0x47].length < 8 := by decide
theorem witness_TrailingHighSurrogateFaults :
    (encPending 0xDBFF).enc.phase = .active ∧ (encPending 0xDBFF).enc.hsv = true := by decide

theorem witness_PhaseTable_encoder :
    (isUnitInstr .eNul = true ∧ State.reset.enc.phase = .idle) ∧
      (State.reset.setEnc (packedEnc [] encOpened)).enc.phase = .done ∧
      (State.reset.setEnc (encRaise 1 0xD800 0)).enc.phase = .faulted ∧
      (encWith 0 []).enc.phase = .active ∧ (∃ t, exec .eNul (encWith 0 []) = .next t) ∧
      ∃ t, exec .encEnd (encWith 0 []) = .next t :=
  ⟨by decide, by decide, by decide, by decide, ⟨_, rfl⟩, ⟨_, rfl⟩⟩
theorem witness_PhaseTable_decoder :
    (isByteInstr .dNul = true ∧ State.reset.dec.phase = .idle) ∧
      (State.reset.setDec (finishedDec (decOpened 0))).dec.phase = .done ∧
      (State.reset.setDec (decRaise 1 0x15 Dec.reset)).dec.phase = .faulted ∧
      (decAt 0 0).dec.phase = .active ∧ (∃ t, exec .dNul (decAt 0 0) = .next t) ∧
      ∃ t, exec .decFinish (decAt 0 0) = .next t :=
  ⟨by decide, by decide, by decide, by decide, ⟨_, rfl⟩, ⟨_, rfl⟩⟩

theorem witness_BlocksAreIsolated :
    (isEncInstr .encEnd = true ∧ ∃ t, exec .encEnd (encWith 1 [0x41]) = .next t) ∧
      isEncInstr .decFinish = false ∧ ∃ t, exec .decFinish (decAt 0 0) = .next t :=
  ⟨⟨by decide, _, rfl⟩, by decide, _, rfl⟩
theorem witness_InstructionsLeaveTheHostSideAlone :
    (∃ t, exec .encEnd (encWith 1 [0x41]) = .next t) ∧ ∃ t, exec .encEnd (State.reset.setEnc (encRaise 1 0xD800 0)) = .next t :=
  ⟨⟨_, rfl⟩, ⟨_, rfl⟩⟩
theorem witness_EncodingErrorsAreEnteredAndRecorded :
    (∃ t, exec .encEnd (encPending 0xD800) = .next t ∧ (encPending 0xD800).enc.phase ≠ .faulted ∧
      t.enc.phase = .faulted ∧ t.enc.cause = 1) ∧
    (∃ t, exec (.encUnit 0x41) (encPending 0xD800) = .next t ∧ t.enc.phase = .faulted ∧ t.enc.cause = 2) ∧
    ∃ t, exec (.eLow 0) (encWith 0 []) = .next t ∧ (encWith 0 []).enc.phase ≠ .faulted ∧ t.enc.phase = .faulted ∧
      t.enc.cause = 3 :=
  ⟨⟨_, rfl, by decide, by decide, by decide⟩, ⟨_, rfl, by decide, by decide⟩,
    ⟨_, rfl, by decide, by decide, by decide⟩⟩

theorem decInv_decAt : DecInv (decAt 6 0x24).dec := by
  constructor <;> decide
theorem decInv_decOwing : DecInv (decOwing 1 0x110000).dec := by
  constructor <;> decide
theorem encInv_encPending : EncInv (encPending 0xD800).enc := by
  constructor <;> decide

theorem witness_DecodingErrorsAreEnteredAndRecorded_direct :
    ((Instr.dInvalid 0x15).wf = true ∧ DecInv (decAt 6 0x24).dec ∧ (decAt 6 0x24).dec.phase ≠ .faulted ∧
      ∃ t, exec (.dInvalid 0x15) (decAt 6 0x24) = .next t ∧ t.dec.phase = .faulted ∧ t.dec.cause = 1) ∧
    ((Instr.dTrail 0).wf = true ∧ DecInv (decOwing 1 0x110000).dec ∧ (decOwing 1 0x110000).dec.phase ≠ .faulted ∧
      ∃ t, exec (.dTrail 0) (decOwing 1 0x110000) = .next t ∧ t.dec.phase = .faulted ∧ t.dec.cause = 3) ∧
    (Instr.decFinish.wf = true ∧
      ∃ t, exec .decFinish (decOwing 1 0x110000) = .next t ∧ t.dec.phase = .faulted ∧ t.dec.cause = 2) :=
  ⟨⟨by decide, decInv_decAt, by decide, _, rfl, by decide, by decide⟩,
    ⟨by decide, decInv_decOwing, by decide, _, rfl, by decide, by decide⟩, by decide, _, rfl, by decide, by decide⟩

/-- A decoder before the seventh byte of a group with two trailers owed to a code point from 0x110000. -/
def decOwingTwo : State :=
  State.reset.setDec { decOpened 7 with rem := 2, cp := 0x110000, stage := 6, bcnt := 6 }

theorem decInv_decOwingTwo : DecInv decOwingTwo.dec := by
  constructor <;> decide
theorem decInv_decAt_stolen : DecInv (decAt 6 0x0A).dec := by
  constructor <;> decide

theorem witness_DecodingErrorsAreEnteredAndRecorded_stolen :
    ((Instr.decByte 0xC7 false).wf = true ∧ DecInv (decAt 6 0x0A).dec ∧ (decAt 6 0x0A).dec.phase ≠ .faulted ∧
      ∃ t, exec (.decByte 0xC7 false) (decAt 6 0x0A) = .next t ∧ t.dec.phase = .faulted ∧ t.dec.cause = 1 ∧
        t.dec.einfo = 0x01000015) ∧
    ((Instr.pbyte false 0).wf = true ∧ DecInv decOwingTwo.dec ∧ decOwingTwo.dec.phase ≠ .faulted ∧
      ∃ t, exec (.pbyte false 0) decOwingTwo = .next t ∧ t.dec.phase = .faulted ∧ t.dec.cause = 3 ∧
        t.dec.einfo = 0x01110000) :=
  ⟨⟨by decide, decInv_decAt_stolen, by decide, _, rfl, by decide, by decide, by decide⟩,
    by decide, decInv_decOwingTwo, by decide, _, rfl, by decide, by decide, by decide⟩

theorem witness_LimitsRefuseTheWholeCommand_scratch :
    let s := withCaps (some 2) none none (encWith 0 [])
    s.enc.phase = .active ∧ s.enc.hsv = false ∧ unitSyms 0x20AC ≠ [] ∧
      capFits s.caps.encScr (s.enc.spos.toNat + (unitSyms 0x20AC).length) = false := by decide
theorem witness_LimitsRefuseTheWholeCommand_counter :
    let s := encWith 0xFFFFFFFF []
    s.enc.phase = .active ∧ s.enc.hsv = false ∧ isLowSurrogate 0xD800 = false ∧
      capFits s.caps.encScr (s.enc.spos.toNat + (unitSyms 0xD800).length) = true ∧
      s.enc.spos.toNat + (unitSyms 0xD800).length ≤ lenMax ∧ s.enc.ucnt.toNat = lenMax := by decide
theorem witness_LimitsRefuseTheWholeCommand_output :
    let s := withCaps none (some 0) none (encWith 1 [0x41])
    s.enc.phase = .active ∧ s.enc.hsv = false ∧
      capFits s.caps.encOut (7 * (s.enc.spos.toNat / 8) + s.enc.spos.toNat % 8) = false := by decide
theorem witness_LimitsRefuseTheWholeCommand_positions :
    let s := State.reset.setEnc { encOpened with spos := 0xFFFFFFFD }
    let t := State.reset.setEnc { (encPending 0xD800).enc with spos := 0xFFFFFFFC }
    s.enc.phase = .active ∧ s.enc.hsv = false ∧
      capFits s.caps.encScr (s.enc.spos.toNat + (unitSyms 0x20AC).length) = true ∧
      lenMax < s.enc.spos.toNat + (unitSyms 0x20AC).length ∧ t.enc.phase = .active ∧ t.enc.hsv = true ∧
      isLowSurrogate 0xDC00 = true ∧ capFits t.caps.encScr (t.enc.spos.toNat + 4) = true ∧
      lenMax < t.enc.spos.toNat + 4 := by decide
theorem witness_LimitsRefuseTheWholeCommand_pair :
    let s := withCaps (some 3) none none (encPending 0xD800)
    let t := State.reset.setEnc { (encPending 0xD800).enc with ucnt := 0xFFFFFFFF }
    s.enc.phase = .active ∧ s.enc.hsv = true ∧ isLowSurrogate 0xDFFF = true ∧
      capFits s.caps.encScr (s.enc.spos.toNat + 4) = false ∧ t.enc.phase = .active ∧ t.enc.hsv = true ∧
      capFits t.caps.encScr (t.enc.spos.toNat + 4) = true ∧ t.enc.spos.toNat + 4 ≤ lenMax ∧
      t.enc.ucnt.toNat = lenMax := by decide
theorem witness_CapacityNeverChangesAResult :
    ∃ t, exec (.eLow 0x200) (withCaps (some 4) none none (encPending 0xD83D)) = .next t := ⟨_, rfl⟩

/-- The decoder of `decAt` with one more stolen bit gathered, as the direct symbol meets it. -/
def begunAt (stage : BitVec 3) (stolen : Byte) (hb : Bool) : Dec := gatherBit hb (decAt stage stolen).dec

theorem witness_LimitsRefuseTheWholeCommand_direct :
    (decAt 0 0).dec.phase = .active ∧ (decAt 0 0).dec.fin = false ∧
      processSymbol (some 0) ((0xA0 : Byte).extractLsb' 0 7) false (begunAt 0 0 true) = .refused .bufferFull ∧
      (State.reset.setDec { decOpened 7 with bcnt := 0xFFFFFFFF }).dec.stage ≠ 6 ∧
      (State.reset.setDec { decOpened 7 with bcnt := 0xFFFFFFFF }).dec.bcnt.toNat = lenMax ∧
      ∃ d, processSymbol none ((0x41 : Byte).extractLsb' 0 7) false
        (gatherBit false { decOpened 7 with bcnt := 0xFFFFFFFF }) = .ok d :=
  ⟨by decide, by decide, by decide, by decide, by decide, _, rfl⟩
theorem witness_LimitsRefuseTheWholeCommand_stolen :
    (decAt 6 0x24).dec.stage = 6 ∧
      (∃ d, processSymbol (some 1) ((0x47 : Byte).extractLsb' 0 7) false (begunAt 6 0x24 false) = .ok d ∧
        processSymbol (some 1) (d.stolen.extractLsb' 0 7) true { d with stolen := 0, stage := 0 } =
          .refused .bufferFull) ∧
      ({ decOpened 7 with stage := 6, bcnt := 0xFFFFFFFF } : Dec).bcnt.toNat = lenMax ∧
      ∃ d d2, processSymbol none ((0x41 : Byte).extractLsb' 0 7) false
          (gatherBit false { decOpened 7 with stage := 6, bcnt := 0xFFFFFFFF }) = .ok d ∧
        processSymbol none (d.stolen.extractLsb' 0 7) true { d with stolen := 0, stage := 0 } = .ok d2 :=
  ⟨by decide, ⟨_, rfl, by decide⟩, by decide, _, _, rfl, rfl⟩

theorem witness_DecByteProcessesDirectThenStolen_raised :
    (decAt 6 0).dec.phase = .active ∧ (decAt 6 0).dec.fin = false ∧
      ∃ d, processSymbol none ((0x95 : Byte).extractLsb' 0 7) false (begunAt 6 0 true) = .raised d :=
  ⟨by decide, by decide, _, rfl⟩
theorem witness_DecByteProcessesDirectThenStolen_direct :
    (decAt 5 0).dec.stage ≠ 6 ∧ (decAt 5 0).dec.bcnt.toNat < lenMax ∧
      ∃ d, processSymbol none ((0x41 : Byte).extractLsb' 0 7) false (begunAt 5 0 false) = .ok d :=
  ⟨by decide, by decide, _, rfl⟩
theorem witness_DecByteProcessesDirectThenStolen_stolen :
    (decAt 6 0x24).dec.stage = 6 ∧ (decAt 6 0x24).dec.bcnt.toNat < lenMax ∧
      (∃ d d2, processSymbol none ((0x47 : Byte).extractLsb' 0 7) false (begunAt 6 0x24 false) = .ok d ∧
        processSymbol none (d.stolen.extractLsb' 0 7) true { d with stolen := 0, stage := 0 } = .ok d2) ∧
      ∃ d d2, processSymbol none ((0xC7 : Byte).extractLsb' 0 7) false (begunAt 6 0x0A true) = .ok d ∧
        processSymbol none (d.stolen.extractLsb' 0 7) true { d with stolen := 0, stage := 0 } = .raised d2 :=
  ⟨by decide, by decide, ⟨_, _, rfl, rfl⟩, ⟨_, _, rfl, rfl⟩⟩

theorem witness_SingleSymbolsEmitTheirUnit :
    (decAt 0 0).dec.rem = 0 ∧ UnitsFit (some 1) (decAt 0 0).dec 1 ∧ isPrintable 0x20 = true ∧
      isPrintable 0x7E = true ∧ isControlSymbol 0x19 = true ∧ isControlSymbol 0x1D = true := by decide
theorem witness_LeadSymbolsOpenACodePoint :
    (decAt 0 0).dec.rem = 0 ∧ (0x0F : Sym).toNat ≤ 0x0F ∧ 0x10 ≤ (0x10 : Sym).toNat ∧ (0x13 : Sym).toNat ≤ 0x13 := by
  decide
theorem witness_InvalidSymbolRaises :
    (decAt 0 0).dec.rem = 0 ∧ isInvalidSymbol 0x15 = true ∧ isInvalidSymbol 0x18 = true := by decide

/-- What a trailer makes of the bits gathered so far. -/
def gathered (d : Dec) (x : Sym) : Reg32 := d.cp ||| (x.setWidth 32 <<< (7 * (d.rem.toNat - 1)))

theorem witness_TrailersGatherAndEmit_more : (decOwing 2 0).dec.rem ≠ 0 ∧ (decOwing 2 0).dec.rem ≠ 1 := by decide
theorem witness_TrailersGatherAndEmit_unit :
    (decOwing 1 0xFF80).dec.rem = 1 ∧ (gathered (decOwing 1 0xFF80).dec 0x7F).toNat < 0x10000 ∧
      UnitsFit (some 1) (decOwing 1 0xFF80).dec 1 := by decide
theorem witness_TrailersGatherAndEmit_pair :
    (decOwing 1 0x10000).dec.rem = 1 ∧ 0x10000 ≤ (gathered (decOwing 1 0x10000).dec 0).toNat ∧
      (gathered (decOwing 1 0x10FF80).dec 0x7F).toNat ≤ 0x10FFFF ∧ UnitsFit (some 2) (decOwing 1 0x10000).dec 2 := by
  decide
theorem witness_TrailersGatherAndEmit_refused :
    (decOwing 1 0x10000).dec.rem = 1 ∧ 0x10000 ≤ (gathered (decOwing 1 0x10000).dec 0).toNat ∧
      (gathered (decOwing 1 0x10000).dec 0).toNat ≤ 0x10FFFF ∧
      capFits (some 1) ((decOwing 1 0x10000).dec.len.toNat + 2) = false ∧
      (decOwing 1 0x10000).dec.len.toNat + 2 ≤ lenMax := by decide
theorem witness_TrailersGatherAndEmit_range :
    (decOwing 1 0x110000).dec.rem = 1 ∧ 0x10FFFF < (gathered (decOwing 1 0x110000).dec 0).toNat := by decide

theorem witness_SingleSymbolBytesEmitTheirUnit :
    DecReady (withCaps none none (some 1) (decAt 5 0x12)) 1 ∧ (decAt 5 0x12).dec.rem = 0 ∧
      (decAt 5 0x12).dec.stage.toNat < 6 ∧ isPrintable 0x7E = true ∧ isControlSymbol 0x19 = true := by decide
theorem witness_LeadBytesOpenACodePoint :
    DecReady (withCaps none none (some 0) (decAt 5 0)) 0 ∧ (decAt 5 0).dec.rem = 0 ∧
      (decAt 5 0).dec.stage.toNat < 6 := by decide
theorem witness_TrailerBytesGatherAndEmit :
    DecReady (withCaps none none (some 2) (decOwing 1 0x10FF80)) 2 ∧ (decOwing 1 0x10FF80).dec.rem ≠ 0 ∧
      (decOwing 1 0x10FF80).dec.stage.toNat < 6 ∧ (decOwing 1 0x10FF80).dec.rem = 1 ∧
      0x10000 ≤ (gathered (decOwing 1 0x10FF80).dec 0x7F).toNat ∧
      (gathered (decOwing 1 0x10FF80).dec 0x7F).toNat ≤ 0x10FFFF ∧
      (gathered (decOwing 1 0xFF80).dec 0x7F).toNat < 0x10000 ∧ DecReady (decOwing 3 0) 2 ∧
      (decOwing 3 0).dec.rem ≠ 1 := by decide
theorem witness_InvalidSymbolByteFaults :
    (decAt 6 0x24).dec.phase = .active ∧ (decAt 6 0x24).dec.fin = false ∧ (decAt 6 0x24).dec.rem = 0 ∧
      isInvalidSymbol 0x18 = true := by decide
theorem witness_ByteCommandsCompleteWithRoom :
    isByteInstr (.dTrail 0x7F) = true ∧ DecReady (withCaps none none (some 3) (decAt 6 0x24)) 3 := by decide
theorem witness_ByteCommandFrame :
    (isByteInstr (.decByte 0xC7 true) = true ∧ (decAt 6 0x24).dec.phase = .active ∧ (decAt 6 0x24).dec.stage = 6 ∧
      ∃ t, exec (.decByte 0xC7 true) (decAt 6 0x24) = .next t ∧ t.dec.phase = .active) ∧
    (decAt 5 0x12).dec.stage ≠ 6 ∧
      ∃ t, exec (.pbyte true 0x41) (decAt 5 0x12) = .next t ∧ t.dec.phase = .active :=
  ⟨⟨by decide, by decide, by decide, _, rfl, by decide⟩, by decide, _, rfl, by decide⟩
theorem witness_FullGroupFeedsItsEightSymbols :
    (decAt 0 0).dec.phase = .active ∧ (decAt 0 0).dec.fin = false ∧ (decAt 0 0).dec.stage = 0 ∧
      (decAt 0 0).dec.stolen = 0 ∧ (decAt 0 0).dec.bcnt.toNat + 7 ≤ lenMax ∧
      ∃ d, feedSyms (decAt 0 0).caps.decOut
        [(0x41, false), (0x42, false), (0x43, false), (0x44, false), (0x45, false), (0x46, false), (0x47, false),
          (0x48, true)] (decAt 0 0).dec = .ok d :=
  ⟨by decide, by decide, by decide, by decide, by decide, _, rfl⟩
theorem witness_FinalByteClosesTheStream :
    (State.reset.setDec { decOpened 1 with fin := true, bcnt := 1, stage := 1 }).dec.phase = .active ∧
      isByteInstr (.pbyte false 0x41) = true ∧
      (State.reset.setDec { decOpened 1 with fin := true, bcnt := 1, stage := 1 }).dec.fin = true ∧
      ∃ t, exec (.decByte 0x41 true) (decAt 0 0) = .next t ∧ t.dec.phase = .active :=
  ⟨by decide, by decide, by decide, _, rfl, by decide⟩
theorem witness_DecFinishDeliversOrTruncates :
    ((decAt 3 0).dec.phase = .active ∧ (decAt 3 0).dec.rem = 0) ∧
      ((decOpened 7).phase = .active ∧ { decOpened 7 with rem := 1, ph := true }.ph = true) ∧
      (decOwing 3 0).dec.phase = .active ∧ (decOwing 3 0).dec.rem ≠ 0 ∧ (decOwing 3 0).dec.ph = false := by decide

theorem witness_ResetClearsOneInstance :
    ((encPending 0xD800).setPending [.rst .enc]).pending = .rst .enc :: [] ∧
      ((decOwing 2 0).setPending [.rst .dec]).pending = .rst .dec :: [] := by decide
theorem witness_AfterResetOnlyBeginsHaveAMeaning :
    State.reset.enc = State.reset.enc ∧ State.reset.dec = State.reset.dec ∧
      ∀ t, exec .encEnd State.reset ≠ .next t :=
  ⟨rfl, rfl, fun t h => by simp [exec, execEncEnd, inCall, State.reset, Enc.reset] at h⟩
theorem witness_RegisterReadsHaveNoSideEffect :
    ((encPending 0xD800).setPending [.readReg .enc 7]).pending = .readReg .enc 7 :: [] ∧
      ((decOwing 2 0).setPending [.readReg .dec 0]).pending = .readReg .dec 0 :: [] := by decide
theorem witness_ResultReadsFindTheResult :
    (((State.reset.setEnc (packedEnc [0xC1] encOpened)).setPending [.readBuf .enc 0]).pending = .readBuf .enc 0 :: [] ∧
      (packedEnc [0xC1] encOpened).phase = .done ∧ (0 : Reg32).toNat < (packedEnc [0xC1] encOpened).len.toNat ∧
      memRead (packedEnc [0xC1] encOpened).out 0 = some 0xC1) ∧
    (State.reset.setPending [.readBuf .dec 0]).pending = .readBuf .dec 0 :: [] ∧
      (finishedDec { decOpened 1 with out := [(0, 0x41)], len := 1 }).phase = .done ∧
      (0 : Reg32).toNat < (finishedDec { decOpened 1 with out := [(0, 0x41)], len := 1 }).len.toNat ∧
      memRead (finishedDec { decOpened 1 with out := [(0, 0x41)], len := 1 }).out 0 = some 0x41 := by decide
theorem witness_OnlyCommandsAndResetChangeAnInstance :
    State.reset.pending = [] ∧
      (∃ t, step (State.reset.setPending [.cmd .enc 0x000000000]) = .next t ∧ t.enc ≠ State.reset.enc) ∧
      ∃ t, step (State.reset.setPending [.cmd .dec 0x800000007]) = .next t ∧ t.dec ≠ State.reset.dec :=
  ⟨rfl, ⟨_, rfl, by decide⟩, ⟨_, rfl, by decide⟩⟩

theorem witness_EveryStepKeepsTheEncoderInvariant :
    EncInv ((encPending 0xD800).setPending [.cmd .enc 0x10000DC00]).enc ∧
      ∃ t, step ((encPending 0xD800).setPending [.cmd .enc 0x10000DC00]) = .next t :=
  ⟨encInv_encPending, _, rfl⟩
theorem witness_EveryStepKeepsTheDecoderInvariant :
    DecInv ((decAt 6 0x24).setPending [.cmd .dec 0x900000147]).dec ∧
      ∃ t, step ((decAt 6 0x24).setPending [.cmd .dec 0x900000147]) = .next t :=
  ⟨decInv_decAt, _, rfl⟩
theorem witness_EveryStepKeepsTheSizeBounds :
    (EncBound ((encPending 0xD800).setPending [.cmd .enc 0x10000DC00]).enc ∧
      ∃ t, step ((encPending 0xD800).setPending [.cmd .enc 0x10000DC00]) = .next t) ∧
    DecBound ((decAt 6 0x24).setPending [.cmd .dec 0x900000147]).dec ∧
      ∃ t, step ((decAt 6 0x24).setPending [.cmd .dec 0x900000147]) = .next t :=
  ⟨⟨by unfold EncBound; decide, _, rfl⟩, by unfold DecBound; decide, _, rfl⟩

theorem witness_ChunksLeaveNoMark :
    [(0xC1 : Byte)] ≠ [] ∧ ([[(0x41 : Byte)], []].flatten ++ []).length ≤ lenMax := by decide
theorem witness_EncodeCallPacksTheClassifiedText :
    State.reset.caps.encScr = none ∧ State.reset.caps.encOut = none ∧ 3 * [(0xD83D : CodeUnit), 0xDE00].length ≤ lenMax ∧
      wellFormedText [0xD83D, 0xDE00] = true ∧ wellFormedText [0xDE00, 0xD83D] = false := by decide
theorem witness_DecodeOfEncodeIsTheText :
    State.reset.caps = Caps.default ∧ wellFormedText [0x0041, 0xD83D, 0xDE00] = true ∧
      3 * [(0x0041 : CodeUnit), 0xD83D, 0xDE00].length ≤ lenMax := by decide
/-- A decoder whose text has reached the end of `dec.len`. -/
def decFull (len : Reg32) (rem : BitVec 2) (cp : Reg32) : Dec := { decOpened 7 with len := len, rem := rem, cp := cp }

theorem witness_SymbolsWithoutRoomAreRefused_single :
    (decFull 1 0 0).rem = 0 ∧ isControlSymbol 0x19 = true ∧ capFits (some 1) ((decFull 1 0 0).len.toNat + 1) = false ∧
      (decFull 0xFFFFFFFF 1 0xFF80).rem = 1 ∧ (gathered (decFull 0xFFFFFFFF 1 0xFF80) 0x7F).toNat < 0x10000 ∧
      capFits none ((decFull 0xFFFFFFFF 1 0xFF80).len.toNat + 1) = true ∧
      lenMax < (decFull 0xFFFFFFFF 1 0xFF80).len.toNat + 1 := by decide
theorem witness_SymbolsWithoutRoomAreRefused_pair :
    (decFull 0xFFFFFFFE 1 0x10000).rem = 1 ∧ 0x10000 ≤ (gathered (decFull 0xFFFFFFFE 1 0x10000) 0).toNat ∧
      (gathered (decFull 0xFFFFFFFE 1 0x10000) 0).toNat ≤ 0x10FFFF ∧
      capFits (some 0xFFFFFFFF) ((decFull 0xFFFFFFFE 1 0x10000).len.toNat + 2) = false ∧
      (decFull 0xFFFFFFFE 1 0x10000).len.toNat + 1 ≤ lenMax ∧
      capFits none ((decFull 0xFFFFFFFE 1 0x10000).len.toNat + 2) = true ∧
      lenMax < (decFull 0xFFFFFFFE 1 0x10000).len.toNat + 2 ∧
      capFits (some 0x100000000) ((decFull 0xFFFFFFFF 1 0x10000).len.toNat + 1) = true ∧
      lenMax < (decFull 0xFFFFFFFF 1 0x10000).len.toNat + 1 := by decide
theorem witness_CallsAnswerTheResultOrNothing :
    let e := packedEnc [0xC1, 0x42] encOpened
    let d := finishedDec { decOpened 1 with out := [(0, 0x41)], len := 1 }
    e.phase = .done ∧ dense e.out e.len.toNat ∧ d.phase = .done ∧ dense d.out d.len.toNat ∧
      State.reset.enc.phase ≠ .done ∧ State.reset.dec.phase ≠ .done := by decide

end Sys2Proof.Tests
end

/-! PROOFS, family 00_scope. The forms in which an instruction runs, and what follows from the form alone: which block
a command touches, what it leaves to the host, and that a capacity decides only whether it answers. -/

namespace Sys2Proof.Machine

/-! ### A step with a command word in front (R6, R53) -/

/-- A step takes the first of the host's coming events from the queue. -/
theorem step_of_pending {s : State} {ev : HostEvent} {rest : List HostEvent} (h : s.pending = ev :: rest) :
    step s = takeEvent ev (s.setPending rest) := by
  rw [step, h]

/-- A command word that decodes to an instruction is that instruction. -/
theorem takeEvent_cmd_of_decode {blk : Block} {w : CmdWord} {i : Instr} (h : decode (.cmd blk w) = .ok i) (s : State) :
    takeEvent (.cmd blk w) s = exec i s := by
  rw [takeEvent, takeCommand, h]

/-- Settles O7: the queue gives the word (R53), the decoder the instruction (R6). -/
theorem stepRunsTheDecodedCommand : Obligations.StepRunsTheDecodedCommand := by
  intro s blk w rest i hpending hdecode
  rw [step_of_pending hpending, takeEvent_cmd_of_decode hdecode]

/-! ### The forms of an instruction

Twenty-seven instructions run in six forms: the four commands without a class, the unit command and the byte command,
the last two with the class of a unit or of a symbol in the middle. -/

/-- What a class of units does inside the unit command of `u`, as `symAct` says it for a class of symbols. -/
def unitAct (cap : Option Nat) (u : CodeUnit) : UnitOp → Enc → Result Enc
  | .lit sym => classLit cap sym
  | .ctl ch => classCtl cap ch
  | .nul => classNul cap
  | .bel => classBel cap
  | .bs => classBs cap
  | .ovl raw => classOvl cap raw
  | .two hi lo => classTwo cap hi lo
  | .three hi mid lo => classThree cap hi mid lo
  | .high _ => classHigh u
  | .low _ => classLow u

/-- The dispatch of R101 runs the class of the decoded unit. -/
theorem classAct_eq_unitAct (cap : Option Nat) (u : CodeUnit) : classAct cap u = unitAct cap u (decodeUnit u) := by
  unfold classAct
  cases decodeUnit u <;> rfl

/-- A direct symbol is its class outside a code point and a trailer inside one (R77, R170). -/
theorem processSymbol_eq_directOf (cap : Option Nat) (x : Sym) :
    processSymbol cap x false = directOf cap x (symAct cap (decodeSym false x) false) := by
  funext d
  by_cases hrem : d.rem = 0
  · rw [processSymbol_classified cap x false d hrem, directOf, if_pos hrem]
  · rw [processSymbol_trail cap x false d hrem, directOf, if_neg hrem]

/-- `ENC_UNIT` and each class of units runs as the unit command of its unit around the act of one class. -/
theorem exec_of_isUnitInstr {i : Instr} (h : isUnitInstr i = true) :
    ∃ op, ∀ s, exec i s = unitCommand (unitOfInstr i) (unitAct s.caps.encScr (unitOfInstr i) op) s := by
  cases i with
  | encUnit u => exact ⟨decodeUnit u, fun s => by rw [unitOfInstr, ← classAct_eq_unitAct]; rfl⟩
  | eNul => exact ⟨.nul, fun _ => rfl⟩
  | eOvl raw => exact ⟨.ovl raw, fun _ => rfl⟩
  | eBel => exact ⟨.bel, fun _ => rfl⟩
  | eBs => exact ⟨.bs, fun _ => rfl⟩
  | eCtl ch => exact ⟨.ctl ch, fun _ => rfl⟩
  | eLit sym => exact ⟨.lit sym, fun _ => rfl⟩
  | eTwo hi lo => exact ⟨.two hi lo, fun _ => rfl⟩
  | eThree hi mid lo => exact ⟨.three hi mid lo, fun _ => rfl⟩
  | eHigh payload => exact ⟨.high payload, fun _ => rfl⟩
  | eLow payload => exact ⟨.low payload, fun _ => rfl⟩
  | _ => cases h

/-- `DEC_BYTE`, a byte on the wire and each class of symbols runs as the byte command of its symbol around the act of
one class. -/
theorem exec_of_isByteInstr {i : Instr} (h : isByteInstr i = true) :
    ∃ op fin, ∀ s, exec i s =
      byteCommand (hbOfInstr i) fin (directOf s.caps.decOut (symOfInstr i) (symAct s.caps.decOut op false)) s := by
  cases i with
  | decByte b fin =>
    exact ⟨decodeSym false (pbyteSym b), fin, fun s => by rw [symOfInstr, ← processSymbol_eq_directOf]; rfl⟩
  | pbyte hb sym => exact ⟨decodeSym false sym, false, fun s => by rw [symOfInstr, ← processSymbol_eq_directOf]; rfl⟩
  | dTrail payload =>
    exact ⟨decodeSym false payload, false, fun s => by rw [symOfInstr, encodeSym, ← processSymbol_eq_directOf]; rfl⟩
  | dLead2 hi => exact ⟨.lead2 hi, false, fun _ => rfl⟩
  | dLead3 hi => exact ⟨.lead3 hi, false, fun _ => rfl⟩
  | dLead4 => exact ⟨.lead4, false, fun _ => rfl⟩
  | dInvalid sym => exact ⟨.invalid sym, false, fun _ => rfl⟩
  | dCtl sym => exact ⟨.ctl sym, false, fun _ => rfl⟩
  | dBs => exact ⟨.bs, false, fun _ => rfl⟩
  | dBel => exact ⟨.bel, false, fun _ => rfl⟩
  | dLit sym => exact ⟨.lit sym, false, fun _ => rfl⟩
  | dNul => exact ⟨.nul, false, fun _ => rfl⟩
  | _ => cases h

/-- The commands of the encoder. -/
theorem isEncInstr_cases {i : Instr} (h : isEncInstr i = true) :
    i = .encBegin ∨ isUnitInstr i = true ∨ i = .encEnd := by
  simp only [isEncInstr, Bool.or_eq_true, beq_iff_eq] at h
  tauto

/-- The commands of the decoder. -/
theorem not_isEncInstr_cases {i : Instr} (h : isEncInstr i = false) :
    (∃ n, i = .decPrepare n) ∨ isByteInstr i = true ∨ i = .decFinish := by
  cases i with
  | decPrepare n => exact .inl ⟨n, rfl⟩
  | decFinish => exact .inr (.inr rfl)
  | _ => simp_all [isEncInstr, isUnitInstr, isByteInstr]

/-! ### What an answer can change -/

/-- An encoder command inside its frame changes the encoder alone. -/
theorem inCall_encOutcome_next {p : Phase} {s t : State} {r : Result Enc} (h : inCall p s (encOutcome s r) = .next t) :
    ∃ e, t = s.setEnc e := by
  rcases inCall_next h with ⟨-, h⟩ | ⟨-, rfl⟩
  · obtain ⟨e, -, rfl⟩ := encOutcome_next h
    exact ⟨e, rfl⟩
  · exact ⟨t.enc, rfl⟩

/-- A decoder command inside its frame changes the decoder alone. -/
theorem inCall_decOutcome_next {p : Phase} {s t : State} {r : Result Dec} (h : inCall p s (decOutcome s r) = .next t) :
    ∃ d, t = s.setDec d := by
  rcases inCall_next h with ⟨-, h⟩ | ⟨-, rfl⟩
  · obtain ⟨d, -, rfl⟩ := decOutcome_next h
    exact ⟨d, rfl⟩
  · exact ⟨t.dec, rfl⟩

/-- `ENC_END` changes the encoder, and counts the draw of its scratch area if it ran at all (log entry 7). -/
theorem execEncEnd_next {s t : State} (h : execEncEnd s = .next t) :
    ∃ e, t = s.setEnc e ∨ t = s.drawn.setEnc e := by
  rcases inCall_next h with ⟨-, h⟩ | ⟨-, rfl⟩
  · obtain ⟨e, -, rfl⟩ := encOutcome_next h
    exact ⟨e, .inr rfl⟩
  · exact ⟨t.enc, .inl rfl⟩

/-- An encoder instruction that answers changes the encoder alone, but for the draw of `ENC_END`. -/
theorem exec_enc_next {i : Instr} {s t : State} (hi : isEncInstr i = true) (h : exec i s = .next t) :
    ∃ e, t = s.setEnc e ∨ (i = .encEnd ∧ t = s.drawn.setEnc e) := by
  rcases isEncInstr_cases hi with rfl | hunit | rfl
  · cases h
    exact ⟨encOpened, .inl rfl⟩
  · obtain ⟨op, hexec⟩ := exec_of_isUnitInstr hunit
    rw [hexec] at h
    obtain ⟨e, he⟩ := inCall_encOutcome_next h
    exact ⟨e, .inl he⟩
  · obtain ⟨e, he | he⟩ := execEncEnd_next h
    · exact ⟨e, .inl he⟩
    · exact ⟨e, .inr ⟨rfl, he⟩⟩

/-- A decoder instruction that answers changes the decoder alone. -/
theorem exec_dec_next {i : Instr} {s t : State} (hi : isEncInstr i = false) (h : exec i s = .next t) :
    ∃ d, t = s.setDec d := by
  rcases not_isEncInstr_cases hi with ⟨n, rfl⟩ | hbyte | rfl
  · cases h
    exact ⟨decOpened n, rfl⟩
  · obtain ⟨op, fin, hexec⟩ := exec_of_isByteInstr hbyte
    rw [hexec] at h
    exact inCall_decOutcome_next h
  · exact inCall_decOutcome_next h

/-- Settles O26: an answer replaces one block and at most counts a draw (`exec_enc_next`, `exec_dec_next`). -/
theorem instructionsLeaveTheHostSideAlone : Obligations.InstructionsLeaveTheHostSideAlone := by
  intro i s t h
  cases hi : isEncInstr i with
  | true =>
    obtain ⟨e, rfl | ⟨rfl, rfl⟩⟩ := exec_enc_next hi h
    · refine ⟨rfl, rfl, rfl, ?_⟩
      split
      · exact .inl rfl
      · rfl
    · exact ⟨rfl, rfl, rfl, .inr rfl⟩
  | false =>
    obtain ⟨d, rfl⟩ := exec_dec_next hi h
    have hne : i ≠ .encEnd := fun hend => by simp [hend, isEncInstr] at hi
    exact ⟨rfl, rfl, rfl, by rw [if_neg hne]; rfl⟩

/-! ### What an outcome depends on -/

/-- The frame of R14 looks at the phase, not at the state. -/
theorem inCall_mapNext (p : Phase) (f : State → State) (s : State) (command : Out) :
    inCall p (f s) (mapNext f command) = mapNext f (inCall p s command) := by
  cases p <;> rfl

theorem encOutcome_setDec (s : State) (r : Result Enc) (d : Dec) :
    encOutcome (s.setDec d) r = mapNext (·.setDec d) (encOutcome s r) := by
  cases r <;> rfl

theorem decOutcome_setEnc (s : State) (r : Result Dec) (e : Enc) :
    decOutcome (s.setEnc e) r = mapNext (·.setEnc e) (decOutcome s r) := by
  cases r <;> rfl

/-- An encoder command inside its frame runs alike beside any decoder. -/
theorem inCall_encOutcome_setDec (p : Phase) (s : State) (r : Result Enc) (d : Dec) :
    inCall p (s.setDec d) (encOutcome (s.setDec d) r) = mapNext (·.setDec d) (inCall p s (encOutcome s r)) := by
  rw [encOutcome_setDec]
  exact inCall_mapNext p (·.setDec d) s _

/-- A decoder command inside its frame runs alike beside any encoder. -/
theorem inCall_decOutcome_setEnc (p : Phase) (s : State) (r : Result Dec) (e : Enc) :
    inCall p (s.setEnc e) (decOutcome (s.setEnc e) r) = mapNext (·.setEnc e) (inCall p s (decOutcome s r)) := by
  rw [decOutcome_setEnc]
  exact inCall_mapNext p (·.setEnc e) s _

/-- `ENC_END` runs alike beside any decoder. -/
theorem execEncEnd_setDec (s : State) (d : Dec) :
    execEncEnd (s.setDec d) = mapNext (·.setDec d) (execEncEnd s) := by
  have hdrawn : encOutcome (s.setDec d).drawn (packCommand s.caps.encOut s.draws s.enc) =
      mapNext (·.setDec d) (encOutcome s.drawn (packCommand s.caps.encOut s.draws s.enc)) :=
    encOutcome_setDec s.drawn _ d
  simp only [execEncEnd, State.setDec_enc, State.setDec_caps, State.setDec_draws, hdrawn]
  exact inCall_mapNext s.enc.phase (·.setDec d) s _

/-- An encoder instruction runs alike beside any decoder. -/
theorem exec_enc_setDec {i : Instr} (hi : isEncInstr i = true) (s : State) (d : Dec) :
    exec i (s.setDec d) = mapNext (·.setDec d) (exec i s) := by
  rcases isEncInstr_cases hi with rfl | hunit | rfl
  · rfl
  · obtain ⟨op, hexec⟩ := exec_of_isUnitInstr hunit
    rw [hexec, hexec]
    exact inCall_encOutcome_setDec _ s _ d
  · exact execEncEnd_setDec s d

/-- A decoder instruction runs alike beside any encoder. -/
theorem exec_dec_setEnc {i : Instr} (hi : isEncInstr i = false) (s : State) (e : Enc) :
    exec i (s.setEnc e) = mapNext (·.setEnc e) (exec i s) := by
  rcases not_isEncInstr_cases hi with ⟨n, rfl⟩ | hbyte | rfl
  · rfl
  · obtain ⟨op, fin, hexec⟩ := exec_of_isByteInstr hbyte
    rw [hexec, hexec]
    exact inCall_decOutcome_setEnc _ s _ e
  · exact inCall_decOutcome_setEnc _ s _ e

/-- Settles O25: what a command writes is `exec_enc_next` and `exec_dec_next`, what it reads is `exec_enc_setDec` and
`exec_dec_setEnc`. -/
theorem blocksAreIsolated : Obligations.BlocksAreIsolated := by
  intro i s
  refine ⟨fun hi => ⟨fun t h => ?_, exec_enc_setDec hi s⟩, fun hi => ⟨fun t h => ?_, exec_dec_setEnc hi s⟩⟩
  · obtain ⟨e, rfl | ⟨-, rfl⟩⟩ := exec_enc_next hi h <;> rfl
  · obtain ⟨d, rfl⟩ := exec_dec_next hi h
    rfl

/-! ### Capacities (R4, R47)

A capacity is looked at in `overLimit` alone, and there it can only refuse. So every stretch of a command is, with the
buffers unbounded, what it was or an answer where it was refused; `andThen` keeps this. -/

/-- `r'` is `r`, or stands where `r` was refused. -/
def Result.Widens {α : Type} (r r' : Result α) : Prop := r' = r ∨ ∃ why, r = .refused why

theorem Result.Widens.refl {α : Type} (r : Result α) : r.Widens r := .inl rfl

theorem Result.Widens.of_refused {α : Type} (why : Refusal) (r : Result α) : (Result.refused why).Widens r :=
  .inr ⟨why, rfl⟩

theorem Result.Widens.andThen {α : Type} {r r' : Result α} {f f' : α → Result α} (hr : r.Widens r')
    (hf : ∀ a, (f a).Widens (f' a)) : (r.andThen f).Widens (r'.andThen f') := by
  rcases hr with rfl | ⟨why, rfl⟩
  · cases r' with
    | ok a => exact hf a
    | raised a => exact .refl _
    | refused why => exact .refl _
  · exact .of_refused why _

/-- What fits a capacity fits an unbounded buffer. -/
theorem overLimit_unbounded {cap : Option Nat} {n : Nat} (h : overLimit cap n = none) : overLimit none n = none :=
  (overLimit_none_iff none n).2 ⟨rfl, ((overLimit_none_iff cap n).1 h).2⟩

theorem emit_widens (cap : Option Nat) (syms : List Sym) (e : Enc) : (emit cap syms e).Widens (emit none syms e) := by
  unfold emit
  cases h : overLimit cap (e.spos.toNat + syms.length) with
  | none => rw [overLimit_unbounded h]; exact .refl _
  | some why => exact .of_refused why _

theorem pairComplete_widens (cap : Option Nat) (u : CodeUnit) (e : Enc) :
    (pairComplete cap u e).Widens (pairComplete none u e) :=
  (emit_widens cap _ e).andThen fun _ => .refl _

theorem unitAct_widens (cap : Option Nat) (u : CodeUnit) (op : UnitOp) (e : Enc) :
    (unitAct cap u op e).Widens (unitAct none u op e) := by
  cases op with
  | high payload => exact .refl _
  | low payload => exact .refl _
  | _ => exact emit_widens cap _ e

theorem acceptUnit_widens (cap : Option Nat) (u : CodeUnit) (op : UnitOp) (e : Enc) :
    (acceptUnit cap u (unitAct cap u op) e).Widens (acceptUnit none u (unitAct none u op) e) := by
  unfold acceptUnit
  split
  · split
    · exact pairComplete_widens cap u e
    · exact .refl _
  · exact unitAct_widens cap u op e

theorem packCommand_widens (cap : Option Nat) (n : Nat) (e : Enc) :
    (packCommand cap n e).Widens (packCommand none n e) := by
  unfold packCommand
  split
  · exact .refl _
  · cases h : overLimit cap (pack (scratchSyms n e)).length with
    | none => simp only [h, overLimit_unbounded h]; exact .refl _
    | some why => simp only [h]; exact .of_refused why _

theorem emitUnit_widens (cap : Option Nat) (w : CodeUnit) (d : Dec) :
    (emitUnit cap w d).Widens (emitUnit none w d) := by
  unfold emitUnit
  cases h : overLimit cap (d.len.toNat + 1) with
  | none => rw [overLimit_unbounded h]; exact .refl _
  | some why => exact .of_refused why _

theorem emitCodePoint_widens (cap : Option Nat) (c : Reg32) (stolen : Bool) (d : Dec) :
    (emitCodePoint cap c stolen d).Widens (emitCodePoint none c stolen d) := by
  unfold emitCodePoint
  split
  · exact emitUnit_widens cap _ d
  · split
    · exact (emitUnit_widens cap _ d).andThen (emitUnit_widens cap _)
    · exact .refl _

theorem symTrail_widens (cap : Option Nat) (x : Sym) (stolen : Bool) (d : Dec) :
    (symTrail cap x stolen d).Widens (symTrail none x stolen d) := by
  simp only [symTrail]
  split
  · exact emitCodePoint_widens cap _ stolen _
  · exact .refl _

theorem symAct_widens (cap : Option Nat) (op : SymOp) (stolen : Bool) (d : Dec) :
    (symAct cap op stolen d).Widens (symAct none op stolen d) := by
  cases op with
  | lead2 h => exact .refl _
  | lead3 h => exact .refl _
  | lead4 => exact .refl _
  | invalid sym => exact .refl _
  | trail payload => exact symTrail_widens cap payload stolen d
  | _ => exact emitUnit_widens cap _ _

theorem directOf_widens (cap : Option Nat) (x : Sym) (op : SymOp) (d : Dec) :
    (directOf cap x (symAct cap op false) d).Widens (directOf none x (symAct none op false) d) := by
  unfold directOf
  split
  · exact symAct_widens cap op false d
  · exact symTrail_widens cap x false d

theorem deliverStolen_widens (cap : Option Nat) (d : Dec) : (deliverStolen cap d).Widens (deliverStolen none d) := by
  unfold deliverStolen
  split
  · exact symAct_widens cap _ true _
  · exact .refl _

theorem acceptByte_widens (cap : Option Nat) (hb fin : Bool) (x : Sym) (op : SymOp) (d : Dec) :
    (acceptByte cap hb fin (directOf cap x (symAct cap op false)) d).Widens
      (acceptByte none hb fin (directOf none x (symAct none op false)) d) := by
  unfold acceptByte
  split
  · exact .refl _
  · exact ((directOf_widens cap x op _).andThen (deliverStolen_widens cap)).andThen fun _ => .refl _

/-- The state with all three buffers unbounded (R3). -/
def State.unbounded (s : State) : State := { s with caps := Caps.default }

/-- `o'` answers what `o` answers, capacities aside. -/
def AnswersUnbounded (o o' : Out) : Prop := ∀ t, o = .next t → o' = .next t.unbounded

theorem encOutcome_unbounded (s : State) {r r' : Result Enc} (h : r.Widens r') :
    AnswersUnbounded (encOutcome s r) (encOutcome s.unbounded r') := by
  intro t ht
  rcases h with rfl | ⟨why, rfl⟩
  · obtain ⟨e, rfl | rfl, rfl⟩ := encOutcome_next ht <;> rfl
  · cases ht

theorem decOutcome_unbounded (s : State) {r r' : Result Dec} (h : r.Widens r') :
    AnswersUnbounded (decOutcome s r) (decOutcome s.unbounded r') := by
  intro t ht
  rcases h with rfl | ⟨why, rfl⟩
  · obtain ⟨d, rfl | rfl, rfl⟩ := decOutcome_next ht <;> rfl
  · cases ht

theorem inCall_unbounded (p : Phase) (s : State) {o o' : Out} (h : AnswersUnbounded o o') :
    AnswersUnbounded (inCall p s o) (inCall p s.unbounded o') := by
  intro t ht
  rcases inCall_next ht with ⟨rfl, ho⟩ | ⟨rfl, rfl⟩
  · exact h t ho
  · rfl

/-- An instruction answers with unbounded buffers what it answers under its capacities. -/
theorem exec_unbounded (i : Instr) (s : State) : AnswersUnbounded (exec i s) (exec i s.unbounded) := by
  cases hi : isEncInstr i with
  | true =>
    rcases isEncInstr_cases hi with rfl | hunit | rfl
    · exact encOutcome_unbounded s (.refl (.ok encOpened))
    · obtain ⟨op, hexec⟩ := exec_of_isUnitInstr hunit
      rw [hexec, hexec]
      exact inCall_unbounded _ s (encOutcome_unbounded s
        ((acceptUnit_widens s.caps.encScr (unitOfInstr i) op s.enc).andThen fun _ => .refl _))
    · exact inCall_unbounded _ s (encOutcome_unbounded s.drawn (packCommand_widens s.caps.encOut s.draws s.enc))
  | false =>
    rcases not_isEncInstr_cases hi with ⟨n, rfl⟩ | hbyte | rfl
    · exact decOutcome_unbounded s (.refl (.ok (decOpened n)))
    · obtain ⟨op, fin, hexec⟩ := exec_of_isByteInstr hbyte
      rw [hexec, hexec]
      exact inCall_unbounded _ s (decOutcome_unbounded s
        (acceptByte_widens s.caps.decOut (hbOfInstr i) fin (symOfInstr i) op s.dec))
    · exact inCall_unbounded _ s (decOutcome_unbounded s (.refl (finishCommand s.dec)))

/-- Settles O30: a capacity is only a reason to refuse (`exec_unbounded`). -/
theorem capacityNeverChangesAResult : Obligations.CapacityNeverChangesAResult :=
  fun i s => exec_unbounded i s

end Sys2Proof.Machine

/-! PROOFS, family 10_state. What a step can do to each block, the two invariants that every step keeps, and what
follows from the phase and the room of a call. -/

namespace Sys2Proof.Machine

/-! ### Buffers that hold exactly the elements below a position (R41 to R43) -/

/-- The element at the end is the next one (R45). -/
theorem dense_memWrite {w : Nat} {m : Memory w} {n : Nat} (v : BitVec w) (h : dense m n) :
    dense (memWrite m n v) (n + 1) := by
  have hlt : ∀ p ∈ m, p.1 < n := fun p hp => by
    have hmem : p.1 ∈ m.map Prod.fst := List.mem_map_of_mem hp
    rwa [h, List.mem_range] at hmem
  rw [memWrite_end m n v hlt, dense, List.map_append, h, List.range_succ]
  rfl

/-- A run of elements appended at the end (R45, R130). -/
theorem dense_memWriteAll {w : Nat} (l : List (BitVec w)) {m : Memory w} {n : Nat} (h : dense m n) :
    dense (memWriteAll m n l) (n + l.length) := by
  induction l generalizing m n with
  | nil => exact h
  | cons v t ih =>
    rw [memWriteAll, List.length_cons, Nat.add_comm t.length, ← Nat.add_assoc]
    exact ih (dense_memWrite v h)

/-! ### What a step can do to a block (R6, R53, R215) -/

/-- A step that answers found nothing to do, or took the first of the coming events. -/
theorem takeEvent_of_step {s t : State} (h : step s = .next t) :
    t = s ∨ ∃ ev rest, s.pending = ev :: rest ∧ takeEvent ev (s.setPending rest) = .next t := by
  cases hp : s.pending with
  | nil => rw [step, hp] at h; cases h; exact .inl rfl
  | cons ev rest => exact .inr ⟨ev, rest, rfl, step_of_pending hp ▸ h⟩

theorem mustBeZero_ok {ok : Bool} {i j : Instr} (h : mustBeZero ok i = .ok j) : j = i := by
  cases ok <;> cases h
  rfl

/-- The commands that the encoder takes from its port (R61). -/
theorem decodeEncCmd_cases {op : BitVec 4} {arg : Reg32} {i : Instr} (h : decodeEncCmd op arg = .ok i) :
    i = .encBegin ∨ (∃ u, i = .encUnit u) ∨ i = .encEnd := by
  unfold decodeEncCmd at h
  split at h
  · exact .inl (mustBeZero_ok h)
  · exact .inr (.inl ⟨_, mustBeZero_ok h⟩)
  · exact .inr (.inr (mustBeZero_ok h))
  · cases h

/-- The commands that the decoder takes from its port (R62). -/
theorem decodeDecCmd_cases {op : BitVec 4} {arg : Reg32} {i : Instr} (h : decodeDecCmd op arg = .ok i) :
    (∃ n, i = .decPrepare n) ∨ (∃ b fin, i = .decByte b fin) ∨ i = .decFinish := by
  unfold decodeDecCmd at h
  split at h
  · cases h; exact .inl ⟨_, rfl⟩
  · exact .inr (.inl ⟨_, _, mustBeZero_ok h⟩)
  · exact .inr (.inr (mustBeZero_ok h))
  · cases h

/-- A command word that answers is a command of its port's block, run. -/
theorem takeEvent_cmd_next {blk : Block} {w : CmdWord} {s t : State} (h : takeEvent (.cmd blk w) s = .next t) :
    ∃ i, decodeCmd blk w = .ok i ∧ exec i s = .next t := by
  cases hd : decode (.cmd blk w) with
  | ok i => exact ⟨i, hd, takeEvent_cmd_of_decode hd s ▸ h⟩
  | error why => rw [takeEvent, takeCommand, hd] at h; cases h

/-- Everything a step can do to the encoder: nothing, `rst`, `ENC_BEGIN`, or one of the two commands of a call. -/
theorem step_enc_cases {s t : State} (h : step s = .next t) :
    t.enc = s.enc ∨ t.enc = Enc.reset ∨ t.enc = encOpened ∨
      ∃ rest, (∃ u, execEncUnit u (s.setPending rest) = .next t) ∨ execEncEnd (s.setPending rest) = .next t := by
  rcases takeEvent_of_step h with rfl | ⟨ev, rest, -, hev⟩
  · exact .inl rfl
  cases ev with
  | cmd blk w =>
    obtain ⟨i, hi, hexec⟩ := takeEvent_cmd_next hev
    cases blk with
    | enc =>
      rcases decodeEncCmd_cases hi with rfl | ⟨u, rfl⟩ | rfl
      · cases hexec; exact .inr (.inr (.inl rfl))
      · exact .inr (.inr (.inr ⟨rest, .inl ⟨u, hexec⟩⟩))
      · exact .inr (.inr (.inr ⟨rest, .inr hexec⟩))
    | dec =>
      have hblock : isEncInstr i = false := by
        rcases decodeDecCmd_cases hi with ⟨n, rfl⟩ | ⟨b, fin, rfl⟩ | rfl <;> rfl
      obtain ⟨d, rfl⟩ := exec_dec_next hblock hexec
      exact .inl rfl
  | rst blk => cases hev; cases blk <;> simp [resetBlock]
  | readReg blk sel => cases hev; exact .inl rfl
  | readBuf blk idx => cases hev; simp

/-- Everything a step can do to the decoder: nothing, `rst`, `DEC_PREPARE`, or one of the two commands of a call. -/
theorem step_dec_cases {s t : State} (h : step s = .next t) :
    t.dec = s.dec ∨ t.dec = Dec.reset ∨ (∃ n, t.dec = decOpened n) ∨
      ∃ rest, (∃ b fin, execDecByte b fin (s.setPending rest) = .next t) ∨
        execDecFinish (s.setPending rest) = .next t := by
  rcases takeEvent_of_step h with rfl | ⟨ev, rest, -, hev⟩
  · exact .inl rfl
  cases ev with
  | cmd blk w =>
    obtain ⟨i, hi, hexec⟩ := takeEvent_cmd_next hev
    cases blk with
    | enc =>
      have hblock : isEncInstr i = true := by
        rcases decodeEncCmd_cases hi with rfl | ⟨u, rfl⟩ | rfl <;> rfl
      obtain ⟨e, rfl | ⟨-, rfl⟩⟩ := exec_enc_next hblock hexec <;> exact .inl rfl
    | dec =>
      rcases decodeDecCmd_cases hi with ⟨n, rfl⟩ | ⟨b, fin, rfl⟩ | rfl
      · cases hexec; exact .inr (.inr (.inl ⟨n, rfl⟩))
      · exact .inr (.inr (.inr ⟨rest, .inl ⟨b, fin, hexec⟩⟩))
      · exact .inr (.inr (.inr ⟨rest, .inr hexec⟩))
  | rst blk => cases hev; cases blk <;> simp [resetBlock]
  | readReg blk sel => cases hev; exact .inl rfl
  | readBuf blk idx => cases hev; simp

/-! ### The frame of a command in each phase (R14) -/

theorem inCall_active {p : Phase} (hp : p = .active) (s : State) (command : Out) : inCall p s command = command := by
  rw [hp]; rfl

theorem inCall_idle_or_done {p : Phase} (hp : p = .idle ∨ p = .done) (s : State) (command : Out) :
    inCall p s command = .refused .outsideCall := by
  rcases hp with rfl | rfl <;> rfl

theorem inCall_faulted {p : Phase} (hp : p = .faulted) (s : State) (command : Out) : inCall p s command = .next s := by
  rw [hp]; rfl

/-! ### Stretches that are not refused -/

/-- The stretch of a command is not refused: it goes on or raises. -/
def Result.Answers {α : Type} (r : Result α) : Prop := ∀ why, r ≠ .refused why

theorem Result.answers_ok {α : Type} (a : α) : (Result.ok a).Answers := fun _ h => nomatch h

theorem Result.answers_raised {α : Type} (a : α) : (Result.raised a).Answers := fun _ h => nomatch h

/-- Two stretches answer when the first does and the second does from wherever the first can end. -/
theorem Result.Answers.andThen {α : Type} {r : Result α} {f : α → Result α} (hr : r.Answers)
    (hf : ∀ a, r = .ok a → (f a).Answers) : (r.andThen f).Answers := by
  cases r with
  | ok a => exact hf a rfl
  | raised a => exact answers_raised a
  | refused why => exact absurd rfl (hr why)

theorem encOutcome_answers (s : State) {r : Result Enc} (h : r.Answers) : ∃ t, encOutcome s r = .next t := by
  cases r with
  | ok e => exact ⟨_, rfl⟩
  | raised e => exact ⟨_, rfl⟩
  | refused why => exact absurd rfl (h why)

theorem decOutcome_answers (s : State) {r : Result Dec} (h : r.Answers) : ∃ t, decOutcome s r = .next t := by
  cases r with
  | ok e => exact ⟨_, rfl⟩
  | raised e => exact ⟨_, rfl⟩
  | refused why => exact absurd rfl (h why)

/-- What holds more holds less (R47). -/
theorem capFits_mono {cap : Option Nat} {m n : Nat} (hmn : m ≤ n) (h : capFits cap n = true) :
    capFits cap m = true := by
  cases cap with
  | none => rfl
  | some c => simp only [capFits, Option.all_some, decide_eq_true_eq] at *; omega

/-! ### The encoder's operations (R101, R114, R130) -/

/-- What `emit` has done when it went on. -/
theorem emit_eq_ok {cap : Option Nat} {syms : List Sym} {e e' : Enc} (h : emit cap syms e = .ok e') :
    e.spos.toNat + syms.length ≤ lenMax ∧
      e' = { e with scr := memWriteAll e.scr e.spos.toNat syms, spos := e.spos + BitVec.ofNat 32 syms.length } := by
  rcases emit_cases cap syms e with ⟨-, hlen, hk⟩ | ⟨why, hk, -⟩ <;> rw [hk] at h <;> cases h
  exact ⟨hlen, rfl⟩

theorem emit_ne_raised {cap : Option Nat} {syms : List Sym} {e e' : Enc} : emit cap syms e ≠ .raised e' := by
  intro h
  rcases emit_cases cap syms e with ⟨-, -, hk⟩ | ⟨why, hk, -⟩ <;> rw [hk] at h <;> cases h

/-- A list no longer than the room there is. -/
theorem emit_answers {cap : Option Nat} {syms : List Sym} {e : Enc} {k : Nat} (hk : syms.length ≤ k)
    (hcap : capFits cap (e.spos.toNat + k) = true) (hlen : e.spos.toNat + k ≤ lenMax) : (emit cap syms e).Answers := by
  rw [emit_ok (capFits_mono (by omega) hcap) (by omega)]
  exact Result.answers_ok _

/-- The classes of units in three kinds: those with symbols of their own, at most three (R64), the high surrogates
that wait, and the low ones that raise. -/
theorem unitAct_cases (cap : Option Nat) (u : CodeUnit) (op : UnitOp) :
    (∃ syms, syms.length ≤ 3 ∧ unitAct cap u op = emit cap syms) ∨
      ((∃ payload, op = .high payload) ∧ unitAct cap u op = classHigh u) ∨
      ((∃ payload, op = .low payload) ∧ unitAct cap u op = classLow u) := by
  cases op with
  | high payload => exact .inr (.inl ⟨⟨payload, rfl⟩, rfl⟩)
  | low payload => exact .inr (.inr ⟨⟨payload, rfl⟩, rfl⟩)
  | three hi mid lo => exact .inl ⟨symsThree hi mid lo, by simp [symsThree], rfl⟩
  | two hi lo => exact .inl ⟨symsTwo hi lo, by simp [symsTwo], rfl⟩
  | ovl raw => exact .inl ⟨[symOvl, raw], by simp, rfl⟩
  | nul => exact .inl ⟨[symNul], by simp, rfl⟩
  | bel => exact .inl ⟨[symBel], by simp, rfl⟩
  | bs => exact .inl ⟨[symBs], by simp, rfl⟩
  | ctl ch => exact .inl ⟨[ch + ctlOffset], by simp, rfl⟩
  | lit sym => exact .inl ⟨[sym], by simp, rfl⟩

/-- A class of units that goes on leaves the phase and the count to the unit command. -/
theorem unitAct_frame {cap : Option Nat} {u : CodeUnit} {op : UnitOp} {e e' : Enc} (h : unitAct cap u op e = .ok e') :
    e'.phase = e.phase ∧ e'.ucnt = e.ucnt := by
  rcases unitAct_cases cap u op with ⟨syms, -, hk⟩ | ⟨-, hk⟩ | ⟨-, hk⟩ <;> rw [hk] at h
  · obtain ⟨-, rfl⟩ := emit_eq_ok h; exact ⟨rfl, rfl⟩
  · cases h; exact ⟨rfl, rfl⟩
  · cases h

/-- Only a lone low surrogate raises (R112). -/
theorem unitAct_raised {cap : Option Nat} {u : CodeUnit} {op : UnitOp} {e e' : Enc}
    (h : unitAct cap u op e = .raised e') : e' = encRaise causeLoneLow u e.ucnt := by
  rcases unitAct_cases cap u op with ⟨syms, -, hk⟩ | ⟨-, hk⟩ | ⟨-, hk⟩ <;> rw [hk] at h
  · exact absurd h emit_ne_raised
  · cases h
  · cases h; rfl

theorem unitAct_answers {cap : Option Nat} {u : CodeUnit} {op : UnitOp} {e : Enc}
    (hcap : capFits cap (e.spos.toNat + 4) = true) (hlen : e.spos.toNat + 4 ≤ lenMax) :
    (unitAct cap u op e).Answers := by
  rcases unitAct_cases cap u op with ⟨syms, hsyms, hk⟩ | ⟨-, hk⟩ | ⟨-, hk⟩ <;> rw [hk]
  · exact emit_answers (by omega) hcap hlen
  · exact Result.answers_ok _
  · exact Result.answers_raised _

/-- A completed pair is its symbols and the pending unit taken away (R112). -/
theorem pairComplete_eq_ok {cap : Option Nat} {u : CodeUnit} {e e' : Enc} (h : pairComplete cap u e = .ok e') :
    ∃ e1, emit cap (symsFour (pairCodePoint e.hs u)) e = .ok e1 ∧ e' = { e1 with hsv := false, hs := 0 } := by
  obtain ⟨e1, h1, h2⟩ := Result.andThen_ok h
  cases h2
  exact ⟨e1, h1, rfl⟩

theorem pairComplete_frame {cap : Option Nat} {u : CodeUnit} {e e' : Enc} (h : pairComplete cap u e = .ok e') :
    e'.phase = e.phase ∧ e'.ucnt = e.ucnt := by
  obtain ⟨e1, h1, rfl⟩ := pairComplete_eq_ok h
  obtain ⟨-, rfl⟩ := emit_eq_ok h1
  exact ⟨rfl, rfl⟩

/-- What the unit command leaves to its count: the phase and the counter itself. -/
theorem acceptUnit_frame {cap : Option Nat} {u : CodeUnit} {op : UnitOp} {e e' : Enc}
    (h : acceptUnit cap u (unitAct cap u op) e = .ok e') : e'.phase = e.phase ∧ e'.ucnt = e.ucnt := by
  unfold acceptUnit at h
  split_ifs at h
  · exact pairComplete_frame h
  · exact unitAct_frame h

/-- Four symbols are the most that a unit gives, those of a completed pair (R72). -/
theorem acceptUnit_answers {cap : Option Nat} {u : CodeUnit} {op : UnitOp} {e : Enc}
    (hcap : capFits cap (e.spos.toNat + 4) = true) (hlen : e.spos.toNat + 4 ≤ lenMax) :
    (acceptUnit cap u (unitAct cap u op) e).Answers := by
  unfold acceptUnit
  split_ifs
  · exact (emit_answers (k := 4) (by simp [symsFour]) hcap hlen).andThen fun _ _ => Result.answers_ok _
  · exact Result.answers_raised _
  · exact unitAct_answers hcap hlen

/-- A result that went on has a length that its register holds (R24). -/
theorem packCommand_eq_ok {cap : Option Nat} {n : Nat} {e e' : Enc} (h : packCommand cap n e = .ok e') :
    ∃ bytes, bytes.length ≤ lenMax ∧ e' = packedEnc bytes e := by
  unfold packCommand at h
  split at h
  · cases h
  · cases hlim : overLimit cap (pack (scratchSyms n e)).length with
    | none =>
      simp only [hlim, Result.ok.injEq] at h
      exact ⟨_, ((overLimit_none_iff _ _).1 hlim).2, h.symm⟩
    | some why => simp [hlim] at h

theorem packCommand_eq_raised {cap : Option Nat} {n : Nat} {e e' : Enc} (h : packCommand cap n e = .raised e') :
    e' = encRaise causeTrailingHigh e.hs (e.ucnt - 1) := by
  rcases packCommand_cases cap n e with ⟨-, hk⟩ | ⟨-, hk⟩ | ⟨why, -, hk, -⟩ <;> rw [hk] at h <;> cases h
  rfl

/-- Only a high surrogate decodes to the class that waits (R64, R111). -/
theorem decodeUnit_high {u : CodeUnit} {payload : BitVec 10} (h : decodeUnit u = .high payload) :
    isHighSurrogate u = true := by
  simp only [decodeUnit] at h
  split_ifs at h with _ _ _ _ _ _ _ hhigh
  simpa [isHighSurrogate] using hhigh

/-! ### The encoder's invariant -/

/-- `rst`, a begin and an error leave an encoder that differs from reset in its phase and its record alone (R36, R37,
R206). -/
theorem encInv_cleared {p : Phase} {cause : BitVec 3} {info : CodeUnit} {idx : Reg32} (hlegal : cause.toNat ≤ 3)
    (hcause : cause ≠ 0 ↔ p = .faulted) (hrecord : p ≠ .faulted → info = 0 ∧ idx = 0) :
    EncInv { Enc.reset with phase := p, cause := cause, einfo := info, eidx := idx } where
  hs_zero _ := rfl
  hs_high h := nomatch h
  hs_counted h := nomatch h
  working_zero _ := ⟨rfl, rfl⟩
  len_zero _ := rfl
  cause_legal := hlegal
  cause_faulted := hcause
  record_zero := hrecord
  scr_dense := rfl
  out_dense := rfl

theorem encInv_reset : EncInv Enc.reset :=
  encInv_cleared (p := .idle) (cause := 0) (by decide) (by decide) fun _ => ⟨rfl, rfl⟩

theorem encInv_opened : EncInv encOpened :=
  encInv_cleared (p := .active) (cause := 0) (by decide) (by decide) fun _ => ⟨rfl, rfl⟩

theorem encInv_raise {cause : BitVec 3} (hcause : cause ≠ 0) (hlegal : cause.toNat ≤ 3)
    (info : CodeUnit) (idx : Reg32) : EncInv (encRaise cause info idx) :=
  encInv_cleared hlegal ⟨fun _ => rfl, fun _ => hcause⟩ fun h => absurd rfl h

/-- Symbols appended in an open call. -/
theorem EncInv.emit {cap : Option Nat} {syms : List Sym} {e e' : Enc} (inv : EncInv e) (hp : e.phase = .active)
    (h : emit cap syms e = .ok e') : EncInv e' := by
  obtain ⟨hlen, rfl⟩ := emit_eq_ok h
  have hpos : (e.spos + BitVec.ofNat 32 syms.length).toNat = e.spos.toNat + syms.length := by
    simp only [lenMax] at hlen
    simp only [BitVec.toNat_add, BitVec.toNat_ofNat]
    omega
  exact { inv with
    working_zero := fun hne => absurd hp hne
    scr_dense := by simpa only [hpos] using dense_memWriteAll syms inv.scr_dense }

/-- The pending surrogate taken away (R112). -/
theorem EncInv.clear_pending {e : Enc} (inv : EncInv e) : EncInv { e with hsv := false, hs := 0 } :=
  { inv with
    hs_zero := fun _ => rfl
    hs_high := fun h => nomatch h
    hs_counted := fun h => nomatch h }

/-- A counter below its end does not wrap to 0 (R24). -/
theorem succ_ne_zero_of_lt_lenMax {c : Reg32} (h : c.toNat < lenMax) : c + 1 ≠ 0 := by
  simp only [lenMax] at h
  bv_omega

/-- A unit counted. -/
theorem EncInv.count {e : Enc} (inv : EncInv e) (hp : e.phase = .active) (hcnt : e.ucnt.toNat < lenMax) :
    EncInv { e with ucnt := e.ucnt + 1 } :=
  { inv with
    hs_counted := fun _ => succ_ne_zero_of_lt_lenMax hcnt
    working_zero := fun hne => absurd hp hne }

/-- A high surrogate counted and left pending (R111). -/
theorem EncInv.count_pending {e : Enc} {u : CodeUnit} (inv : EncInv e) (hp : e.phase = .active)
    (hu : isHighSurrogate u = true) (hcnt : e.ucnt.toNat < lenMax) :
    EncInv { e with hsv := true, hs := u, ucnt := e.ucnt + 1 } :=
  { inv with
    hs_zero := fun h => nomatch h
    hs_high := fun _ => ⟨hp, hu⟩
    hs_counted := fun _ => succ_ne_zero_of_lt_lenMax hcnt
    working_zero := fun hne => absurd hp hne }

/-- The result takes the place of the working registers (R37, R130). `ENC.OUT` was empty, because its length is 0
outside DONE. -/
theorem EncInv.packed {e : Enc} {bytes : List Byte} (inv : EncInv e) (hp : e.phase = .active)
    (hlen : bytes.length ≤ lenMax) : EncInv (packedEnc bytes e) := by
  have hnofault : e.phase ≠ .faulted := by rw [hp]; decide
  have hempty : dense e.out 0 := by
    have hzero := inv.len_zero (by rw [hp]; decide)
    simpa [hzero] using inv.out_dense
  have hbytes : (BitVec.ofNat 32 bytes.length).toNat = bytes.length := by
    simp only [lenMax] at hlen
    simp only [BitVec.toNat_ofNat]
    omega
  exact {
    hs_zero := fun _ => rfl
    hs_high := fun h => nomatch h
    hs_counted := fun h => nomatch h
    working_zero := fun _ => ⟨rfl, rfl⟩
    len_zero := fun hne => absurd rfl hne
    cause_legal := inv.cause_legal
    cause_faulted := ⟨fun h => absurd (inv.cause_faulted.1 h) hnofault, fun h => nomatch h⟩
    record_zero := fun _ => inv.record_zero hnofault
    scr_dense := rfl
    out_dense := by simpa [packedEnc, hbytes] using dense_memWriteAll bytes hempty }

theorem execEncUnit_keeps_encInv {u : CodeUnit} {s t : State} (inv : EncInv s.enc) (h : execEncUnit u s = .next t) :
    EncInv t.enc := by
  rw [execEncUnit, classAct_eq_unitAct] at h
  rcases unitCommand_next h with ⟨-, rfl⟩ | ⟨-, -, -, rfl⟩ | ⟨hp, -, -, e, hpair, hcnt, rfl⟩ |
    ⟨hp, -, ⟨e, hact, rfl⟩ | ⟨e, hact, hcnt, rfl⟩⟩
  · exact inv
  · exact encInv_raise (by decide) (by decide) _ _
  · obtain ⟨e1, hemit, rfl⟩ := pairComplete_eq_ok hpair
    exact (inv.emit hp hemit).clear_pending.count ((pairComplete_frame hpair).1.trans hp) hcnt
  · rw [State.setEnc_enc, unitAct_raised hact]
    exact encInv_raise (by decide) (by decide) _ _
  · have hphase := (unitAct_frame hact).1.trans hp
    rcases unitAct_cases s.caps.encScr u (decodeUnit u) with ⟨syms, -, hcls⟩ | ⟨⟨payload, hop⟩, hcls⟩ | ⟨-, hcls⟩ <;>
      rw [hcls] at hact
    · exact (inv.emit hp hact).count hphase hcnt
    · cases hact
      exact inv.count_pending hp (decodeUnit_high hop) hcnt
    · cases hact

theorem execEncEnd_keeps_encInv {s t : State} (inv : EncInv s.enc) (h : execEncEnd s = .next t) : EncInv t.enc := by
  rcases inCall_next h with ⟨hp, hrun⟩ | ⟨-, rfl⟩
  · obtain ⟨e, hpack | hpack, rfl⟩ := encOutcome_next hrun
    · obtain ⟨bytes, hlen, rfl⟩ := packCommand_eq_ok hpack
      exact inv.packed hp hlen
    · rw [State.setEnc_enc, packCommand_eq_raised hpack]
      exact encInv_raise (by decide) (by decide) _ _
  · exact inv

/-- Settles O52: what a step can do to the encoder (`step_enc_cases`), each case with its own lemma. -/
theorem everyStepKeepsTheEncoderInvariant : Obligations.EveryStepKeepsTheEncoderInvariant := by
  intro s t inv h
  rcases step_enc_cases h with henc | henc | henc | ⟨rest, ⟨u, hexec⟩ | hexec⟩
  · rwa [henc]
  · rw [henc]; exact encInv_reset
  · rw [henc]; exact encInv_opened
  · exact execEncUnit_keeps_encInv (s := s.setPending rest) inv hexec
  · exact execEncEnd_keeps_encInv (s := s.setPending rest) inv hexec

/-! ### The decoder's operations (R152, R170, R181) -/

/-- Only inside a code point does a symbol decode to a trailer (R77). -/
theorem decodeSym_trail {inside : Bool} {x payload : Sym} (h : decodeSym inside x = .trail payload) :
    inside = true := by
  simp only [decodeSym] at h
  split_ifs at h with hinside
  exact hinside

/-- A class of symbols that goes on leaves the unpacker's registers alone, whatever symbol it is run for. -/
theorem symAct_frame {cap : Option Nat} {op : SymOp} {stolen : Bool} {d d' : Dec}
    (h : symAct cap op stolen d = .ok d') : SameGroup d d' := by
  cases op with
  | lead2 hi => cases h; simp [SameGroup]
  | lead3 hi => cases h; simp [SameGroup]
  | lead4 => cases h; simp [SameGroup]
  | invalid sym => cases h
  | trail payload => exact (symTrail_ok h).1
  | _ => exact (emitUnit_frame h).1

/-- A class of symbols that raises leaves the error entry (R206). -/
theorem symAct_raised {cap : Option Nat} {op : SymOp} {stolen : Bool} {d d' : Dec}
    (h : symAct cap op stolen d = .raised d') : ∃ cause info, d' = decRaise cause info d := by
  cases op with
  | lead2 hi => cases h
  | lead3 hi => cases h
  | lead4 => cases h
  | invalid sym => cases h; exact ⟨_, _, rfl⟩
  | trail payload => exact ⟨_, symTrail_raised h⟩
  | _ => exact absurd h emitUnit_not_raised

/-- A direct symbol runs as the act of one class: the one given, or the trailer's. -/
theorem directOf_cases (cap : Option Nat) (x : Sym) (op : SymOp) (d : Dec) :
    ∃ op', directOf cap x (symAct cap op false) d = symAct cap op' false d := by
  by_cases hrem : d.rem = 0
  · exact ⟨op, by rw [directOf, if_pos hrem]⟩
  · exact ⟨.trail x, by rw [directOf, if_neg hrem]; rfl⟩

theorem deliverStolen_frame {cap : Option Nat} {d d' : Dec} (h : deliverStolen cap d = .ok d') :
    d'.phase = d.phase ∧ d'.bcnt = d.bcnt := by
  rcases deliverStolen_cases cap d with ⟨-, hk⟩ | ⟨-, hk⟩ <;> rw [hk] at h
  · obtain ⟨hphase, -, -, -, hbcnt, -⟩ := processSymbol_frame h
    exact ⟨hphase, hbcnt⟩
  · cases h; exact ⟨rfl, rfl⟩

theorem deliverStolen_raised {cap : Option Nat} {d d' : Dec} (h : deliverStolen cap d = .raised d') :
    ∃ cause info, (cause = causeInvalidSymbol ∨ cause = causeCpRange) ∧ d' = decRaise cause info d := by
  rcases deliverStolen_cases cap d with ⟨-, hk⟩ | ⟨-, hk⟩ <;> rw [hk] at h
  · obtain ⟨cause, info, hcause, rfl⟩ := processSymbol_raised h
    exact ⟨cause, info, hcause, rfl⟩
  · cases h

/-- A length that fits does not wrap (R24). -/
theorem add_one_toNat_of_fits {cap : Option Nat} {d : Dec} {k : Nat} (h : UnitsFit cap d (k + 1)) :
    (d.len + 1).toNat = d.len.toNat + 1 := by
  have hlen := h.2
  simp only [lenMax] at hlen
  bv_omega

theorem seedTwo_toNat (h : BitVec 4) : (seedTwo h).toNat = h.toNat * 2 ^ 7 := by
  simp only [seedTwo, BitVec.toNat_shiftLeft, BitVec.toNat_setWidth, Nat.shiftLeft_eq]
  omega

theorem seedThree_toNat (h : BitVec 2) : (seedThree h).toNat = h.toNat * 2 ^ 14 := by
  simp only [seedThree, BitVec.toNat_shiftLeft, BitVec.toNat_setWidth, Nat.shiftLeft_eq]
  omega

/-- A trailer is or-ed in at the upper end of the bits still owed (R73), as a number. -/
theorem gather_toNat (cp : Reg32) (rem : BitVec 2) (x : Sym) :
    (gather cp rem x).toNat = cp.toNat ||| x.toNat * 2 ^ (7 * (rem.toNat - 1)) := by
  have hrem : 7 * (rem.toNat - 1) ≤ 14 := by omega
  have hpow : 2 ^ (7 * (rem.toNat - 1)) ≤ 2 ^ 14 := Nat.pow_le_pow_right (by decide) hrem
  have hlt : x.toNat * 2 ^ (7 * (rem.toNat - 1)) < 2 ^ 32 := by
    calc x.toNat * 2 ^ (7 * (rem.toNat - 1)) ≤ 127 * 2 ^ 14 := Nat.mul_le_mul (by omega) hpow
      _ < 2 ^ 32 := by decide
  have hx : x.toNat % 2 ^ 32 = x.toNat := Nat.mod_eq_of_lt (by omega)
  simp only [gather, BitVec.toNat_or, BitVec.toNat_shiftLeft, BitVec.toNat_setWidth, Nat.shiftLeft_eq, hx,
    Nat.mod_eq_of_lt hlt]

theorem gather_lt {cp : Reg32} (hcp : cp.toNat < 2 ^ 21) (rem : BitVec 2) (x : Sym) :
    (gather cp rem x).toNat < 2 ^ 21 := by
  have hpow : 2 ^ (7 * (rem.toNat - 1)) ≤ 2 ^ 14 := Nat.pow_le_pow_right (by decide) (by omega)
  rw [gather_toNat]
  refine Nat.or_lt_two_pow hcp ?_
  calc x.toNat * 2 ^ (7 * (rem.toNat - 1)) ≤ 127 * 2 ^ 14 := Nat.mul_le_mul (by omega) hpow
    _ < 2 ^ 21 := by decide

/-- A trailer leaves seven bits fewer owed, and those are still 0 (R18). -/
theorem gather_owed {cp : Reg32} {rem : BitVec 2} (hrem : rem ≠ 0) (hcp : cp.toNat % 2 ^ (7 * rem.toNat) = 0)
    (x : Sym) : (gather cp rem x).toNat % 2 ^ (7 * (rem - 1).toNat) = 0 := by
  have hpred : (rem - 1).toNat = rem.toNat - 1 := by bv_omega
  have hcp' : cp.toNat % 2 ^ (7 * (rem.toNat - 1)) = 0 :=
    Nat.mod_eq_zero_of_dvd ((Nat.pow_dvd_pow 2 (by omega)).trans (Nat.dvd_of_mod_eq_zero hcp))
  rw [gather_toNat, hpred, Nat.or_mod_two_pow, hcp', Nat.mul_mod_left]
  rfl

/-- The phantom lead is the stolen 0x00 (R171, R177). -/
theorem phantomFlag_lead2 {stolen : Bool} {hi : BitVec 4} (h : phantomFlag stolen (encodeSym (.lead2 hi)) = true) :
    stolen = true ∧ hi = 0 := by
  simp only [phantomFlag, encodeSym, Bool.and_eq_true, beq_iff_eq] at h
  obtain ⟨hstolen, hzero⟩ := h
  have hnat : hi.toNat = 0 := by
    simpa using (BitVec.toNat_append 0#3 hi).symm.trans (congrArg BitVec.toNat hzero)
  exact ⟨hstolen, BitVec.eq_of_toNat_eq hnat⟩

/-- A symbol leaves the phantom flag only where it was stolen and a lead of nothing (R22, R177). -/
theorem processSymbol_ph {cap : Option Nat} {x : Sym} {stolen : Bool} {d d' : Dec}
    (h : processSymbol cap x stolen d = .ok d') (hph : d'.ph = true) : stolen = true ∧ d'.rem = 1 ∧ d'.cp = 0 := by
  cases hop : decodeSym (d.rem != 0) x with rw [processSymbol, hop] at h
  | lead2 hi =>
    cases h
    obtain ⟨hstolen, rfl⟩ := phantomFlag_lead2 hph
    exact ⟨hstolen, rfl, rfl⟩
  | lead3 hi => cases h; cases hph
  | lead4 => cases h; cases hph
  | invalid sym => cases h
  | trail payload =>
    obtain ⟨-, hflag, -⟩ := symTrail_ok h
    rw [hflag] at hph; cases hph
  | _ =>
    obtain ⟨-, -, -, hflag⟩ := emitUnit_frame h
    rw [hflag] at hph; cases hph

theorem shiftStolen_toNat (stolen : Byte) (hb : Bool) :
    (shiftStolen stolen hb).toNat = stolen.toNat % 128 * 2 + hb.toNat := by
  simp [shiftStolen, BitVec.toNat_concat]

/-- One more stolen bit, one more place (R19). -/
theorem shiftStolen_lt {stolen : Byte} {n : Nat} (h : stolen.toNat < 2 ^ n) (hb : Bool) :
    (shiftStolen stolen hb).toNat < 2 ^ (n + 1) := by
  have hbit := hb.toNat_lt
  have hmod := Nat.mod_le stolen.toNat 128
  rw [shiftStolen_toNat, Nat.pow_succ]
  omega

/-! ### The decoder's invariant between the symbols of a byte -/

/-- What of the decoder's invariant holds in an open call also between the two symbols of a byte. Left out are the
bounds on the stage and the stolen bits, which are the unpacker's, and what the phantom flag implies, which the bit
just gathered can break. -/
structure SymInv (d : Dec) : Prop where
  /-- A symbol is met in an open call alone (R14). -/
  phase_active : d.phase = .active
  /-- R201, R202. -/
  no_error : d.cause = 0 ∧ d.einfo = 0 ∧ d.eidx = 0
  /-- R18. -/
  cp_zero : d.rem = 0 → d.cp = 0
  /-- R13, R18. -/
  cp_bound : d.cp.toNat < 2 ^ 21
  /-- R18. -/
  cp_owed : d.cp.toNat % 2 ^ (7 * d.rem.toNat) = 0
  /-- R43, R189. -/
  out_dense : dense d.out d.len.toNat

/-- An open call has no error recorded. -/
theorem DecInv.no_error {d : Dec} (inv : DecInv d) (hp : d.phase = .active) :
    d.cause = 0 ∧ d.einfo = 0 ∧ d.eidx = 0 := by
  have hnofault : d.phase ≠ .faulted := by rw [hp]; decide
  exact ⟨not_not.1 fun h => hnofault (inv.cause_faulted.1 h), inv.record_zero hnofault⟩

/-- The invariant gives its part to the byte that begins. -/
theorem DecInv.symInv {d : Dec} (inv : DecInv d) (hp : d.phase = .active) (hb : Bool) : SymInv (gatherBit hb d) :=
  ⟨hp, inv.no_error hp, inv.cp_zero, inv.cp_bound, inv.cp_owed, inv.out_dense⟩

/-- The whole invariant, from its part and what the unpacker and the phantom flag add. -/
theorem SymInv.decInv {d : Dec} (inv : SymInv d) (hstage : d.stage.toNat ≤ 6)
    (hstolen : d.stolen.toNat < 2 ^ d.stage.toNat)
    (hph : d.ph = true → d.rem = 1 ∧ d.cp = 0 ∧ d.stage = 0 ∧ d.stolen = 0) : DecInv d := by
  obtain ⟨hcause, hinfo, hidx⟩ := inv.no_error
  have hp := inv.phase_active
  exact { inv with
    stage_bound := hstage
    stolen_bound := hstolen
    ph_lead := hph
    working_zero := fun h => absurd hp h
    len_zero := fun h => by rcases h with h | h <;> rw [hp] at h <;> cases h
    cause_legal := by simp [hcause]
    cause_faulted := by simp [hcause, hp]
    record_zero := fun _ => ⟨hinfo, hidx⟩ }

theorem SymInv.emitUnit {cap : Option Nat} {w : CodeUnit} {d d' : Dec} (inv : SymInv d)
    (h : emitUnit cap w d = .ok d') : SymInv d' := by
  rcases emitUnit_cases cap w d with ⟨hfit, hk⟩ | ⟨why, hk, -⟩ <;> rw [hk] at h <;> cases h
  exact { inv with
    out_dense := by simpa only [add_one_toNat_of_fits hfit] using dense_memWrite w inv.out_dense }

theorem SymInv.emitCodePoint {cap : Option Nat} {c : Reg32} {stolen : Bool} {d d' : Dec} (inv : SymInv d)
    (h : emitCodePoint cap c stolen d = .ok d') : SymInv d' := by
  unfold Machine.emitCodePoint at h
  split_ifs at h
  · exact inv.emitUnit h
  · obtain ⟨d1, hhigh, hlow⟩ := Result.andThen_ok h
    exact (inv.emitUnit hhigh).emitUnit hlow

theorem SymInv.set_ph {d : Dec} (inv : SymInv d) (ph : Bool) : SymInv { d with ph := ph } := { inv with }

/-- A code point ended. -/
theorem SymInv.close {d : Dec} (inv : SymInv d) : SymInv { d with ph := false, rem := 0, cp := 0 } :=
  { inv with cp_zero := fun _ => rfl, cp_bound := by simp, cp_owed := by simp }

/-- A code point begun or gone on with: some bits owed, all of them 0. -/
theorem SymInv.lead {d : Dec} {rem : BitVec 2} {cp : Reg32} (ph : Bool) (inv : SymInv d) (hrem : rem ≠ 0)
    (hbound : cp.toNat < 2 ^ 21) (howed : cp.toNat % 2 ^ (7 * rem.toNat) = 0) :
    SymInv { d with ph := ph, rem := rem, cp := cp } :=
  { inv with cp_zero := fun h => absurd h hrem, cp_bound := hbound, cp_owed := howed }

theorem SymInv.symTrail {cap : Option Nat} {x : Sym} {stolen : Bool} {d d' : Dec} (inv : SymInv d) (hrem : d.rem ≠ 0)
    (h : symTrail cap x stolen d = .ok d') : SymInv d' := by
  obtain ⟨-, -, ⟨-, -, -, hemit⟩ | ⟨hne, rfl⟩⟩ := symTrail_ok h
  · exact inv.close.emitCodePoint hemit
  · have hleft : d.rem - 1 ≠ 0 := by bv_omega
    exact inv.lead false hleft (gather_lt inv.cp_bound d.rem x) (gather_owed hrem inv.cp_owed x)

/-- Every symbol keeps it, classified or a trailer. -/
theorem processSymbol_keeps_symInv {cap : Option Nat} {x : Sym} {stolen : Bool} {d d' : Dec} (inv : SymInv d)
    (h : processSymbol cap x stolen d = .ok d') : SymInv d' := by
  cases hop : decodeSym (d.rem != 0) x with rw [processSymbol, hop] at h
  | lead2 hi =>
    cases h
    refine inv.lead _ (by decide) ?_ ?_ <;> rw [seedTwo_toNat]
    · omega
    · exact Nat.mul_mod_left _ _
  | lead3 hi =>
    cases h
    refine inv.lead _ (by decide) ?_ ?_ <;> rw [seedThree_toNat]
    · omega
    · exact Nat.mul_mod_left _ _
  | lead4 => cases h; exact inv.lead _ (by decide) (by decide) (by decide)
  | invalid sym => cases h
  | trail payload => exact inv.symTrail (bne_iff_ne.1 (decodeSym_trail hop)) h
  | _ => exact (inv.set_ph false).emitUnit h

/-! ### The decoder's invariant -/

/-- `rst`, a begin and an error leave a decoder that differs from reset in its phase, its hint and its record alone
(R36, R37, R206). -/
theorem decInv_cleared {p : Phase} {expect : Reg32} {cause : BitVec 3} {info idx : Reg32}
    (hexpect : p ≠ .active → expect = 0) (hlegal : cause.toNat ≤ 3)
    (hcause : cause ≠ 0 ↔ p = .faulted) (hrecord : p ≠ .faulted → info = 0 ∧ idx = 0) :
    DecInv { Dec.reset with phase := p, expect := expect, cause := cause, einfo := info, eidx := idx } where
  cp_zero _ := rfl
  cp_bound := by simp
  cp_owed := rfl
  stage_bound := by simp
  stolen_bound := by simp
  ph_lead h := nomatch h
  working_zero h := ⟨rfl, rfl, rfl, rfl, rfl, rfl, hexpect h⟩
  len_zero _ := rfl
  cause_legal := hlegal
  cause_faulted := hcause
  record_zero := hrecord
  out_dense := rfl

theorem decInv_reset : DecInv Dec.reset :=
  decInv_cleared (p := .idle) (cause := 0) (fun _ => rfl) (by decide) (by decide) fun _ => ⟨rfl, rfl⟩

theorem decInv_opened (n : Reg32) : DecInv (decOpened n) :=
  decInv_cleared (p := .active) (cause := 0) (fun h => absurd rfl h) (by decide) (by decide) fun _ => ⟨rfl, rfl⟩

theorem decInv_raise {cause : BitVec 3} (hcause : cause ≠ 0) (hlegal : cause.toNat ≤ 3) (info : Reg32) (d : Dec) :
    DecInv (decRaise cause info d) :=
  decInv_cleared (fun _ => rfl) hlegal ⟨fun _ => rfl, fun _ => hcause⟩ fun h => absurd rfl h

/-- The error entries of the two causes that a symbol raises (R203). -/
theorem decInv_symbolError {cause : BitVec 3} (h : cause = causeInvalidSymbol ∨ cause = causeCpRange) (info : Reg32)
    (d : Dec) : DecInv (decRaise cause info d) := by
  rcases h with rfl | rfl <;> exact decInv_raise (by decide) (by decide) info d

/-- A text finished (R185, R37). -/
theorem DecInv.finished {d : Dec} (inv : DecInv d) (hp : d.phase = .active) : DecInv (finishedDec d) := by
  obtain ⟨hcause, hrecord⟩ := inv.no_error hp
  exact {
    cp_zero := fun _ => rfl
    cp_bound := by simp
    cp_owed := rfl
    stage_bound := by simp
    stolen_bound := by simp
    ph_lead := fun h => nomatch h
    working_zero := fun _ => ⟨rfl, rfl, rfl, rfl, rfl, rfl, rfl⟩
    len_zero := fun h => by rcases h with h | h <;> cases h
    cause_legal := inv.cause_legal
    cause_faulted := by simp [hcause]
    record_zero := fun _ => hrecord
    out_dense := inv.out_dense }

/-- A byte whose two symbols went on. At the seventh byte the group starts anew and the stolen symbol may be the
phantom lead; before it the stolen bits grow by one and the direct symbol has cleared the phantom flag. -/
theorem decInv_of_symbols {cap : Option Nat} {hb fin : Bool} {x : Sym} {d d1 d2 : Dec} (inv : DecInv d)
    (hp : d.phase = .active) (h1 : processSymbol cap x false (gatherBit hb d) = .ok d1)
    (h2 : deliverStolen cap d1 = .ok d2) : DecInv { d2 with bcnt := d2.bcnt + 1, fin := fin } := by
  have hsym1 : SymInv d1 := processSymbol_keeps_symInv (inv.symInv hp hb) h1
  obtain ⟨-, hstage1, hstolen1, -⟩ := processSymbol_frame h1
  rcases deliverStolen_cases cap d1 with ⟨-, hk⟩ | ⟨hne, hk⟩ <;> rw [hk] at h2
  · have hsym2 : SymInv d2 := processSymbol_keeps_symInv (d := { d1 with stolen := 0, stage := 0 }) { hsym1 with } h2
    obtain ⟨-, hstage2, hstolen2, -⟩ := processSymbol_frame h2
    refine SymInv.decInv { hsym2 with } (by simp [hstage2]) (by simp [hstage2, hstolen2]) fun hph => ?_
    obtain ⟨-, hrem, hcp⟩ := processSymbol_ph h2 hph
    exact ⟨hrem, hcp, hstage2, hstolen2⟩
  · cases h2
    rw [gatherBit_stage] at hstage1
    rw [gatherBit_stolen] at hstolen1
    have hbound := inv.stage_bound
    have hsucc : d1.stage.toNat = d.stage.toNat + 1 := by bv_omega
    refine SymInv.decInv { hsym1 with } (by simp only; bv_omega) ?_ fun hph => ?_
    · simp only [hsucc, hstolen1]
      exact shiftStolen_lt inv.stolen_bound hb
    · exact nomatch (processSymbol_ph h1 hph).1

theorem execDecByte_keeps_decInv {b : Byte} {fin : Bool} {s t : State} (inv : DecInv s.dec)
    (h : execDecByte b fin s = .next t) : DecInv t.dec := by
  rcases byteCommand_next h with ⟨-, rfl⟩ |
    ⟨hp, -, ⟨d, h1, rfl⟩ | ⟨d1, h1, ⟨d, h2, rfl⟩ | ⟨d2, h2, -, rfl⟩⟩⟩
  · exact inv
  · obtain ⟨cause, info, hcause, rfl⟩ := processSymbol_raised h1
    exact decInv_symbolError hcause info _
  · obtain ⟨cause, info, hcause, rfl⟩ := deliverStolen_raised h2
    exact decInv_symbolError hcause info _
  · exact decInv_of_symbols inv hp h1 h2

theorem execDecFinish_keeps_decInv {s t : State} (inv : DecInv s.dec) (h : execDecFinish s = .next t) :
    DecInv t.dec := by
  rcases inCall_next h with ⟨hp, hrun⟩ | ⟨-, rfl⟩
  · rcases finishCommand_cases s.dec with ⟨-, -, hk⟩ | ⟨-, hk⟩ <;> rw [hk] at hrun <;> cases hrun
    · exact decInv_raise (by decide) (by decide) _ _
    · exact inv.finished hp
  · exact inv

/-- Settles O53: what a step can do to the decoder (`step_dec_cases`), each case with its own lemma. -/
theorem everyStepKeepsTheDecoderInvariant : Obligations.EveryStepKeepsTheDecoderInvariant := by
  intro s t inv h
  rcases step_dec_cases h with hdec | hdec | ⟨n, hdec⟩ | ⟨rest, ⟨b, fin, hexec⟩ | hexec⟩
  · rwa [hdec]
  · rw [hdec]; exact decInv_reset
  · rw [hdec]; exact decInv_opened n
  · exact execDecByte_keeps_decInv (s := s.setPending rest) inv hexec
  · exact execDecFinish_keeps_decInv (s := s.setPending rest) inv hexec

/-! ### Commands with room answer (R14, R47, R51) -/

/-- Settles O18: the unit is accepted (`acceptUnit_answers`), and its count is below its end. -/
theorem unitCommandsCompleteWithRoom : Obligations.UnitCommandsCompleteWithRoom := by
  intro s i hi hp hcap hlen hcnt
  obtain ⟨op, hexec⟩ := exec_of_isUnitInstr hi
  rw [hexec, unitCommand, inCall_active hp]
  refine encOutcome_answers s ((acceptUnit_answers hcap hlen).andThen fun e he => ?_)
  rw [countUnit_ok (by rw [(acceptUnit_frame he).2]; exact hcnt)]
  exact Result.answers_ok _

theorem UnitsFit.mono {cap : Option Nat} {d : Dec} {j k : Nat} (hjk : j ≤ k) (h : UnitsFit cap d k) :
    UnitsFit cap d j :=
  ⟨capFits_mono (by omega) h.1, by have := h.2; omega⟩

theorem emitUnit_answers {cap : Option Nat} {w : CodeUnit} {d : Dec} (h : UnitsFit cap d 1) :
    (emitUnit cap w d).Answers := by
  rw [emitUnit_ok h]; exact Result.answers_ok _

/-- A unit takes the room of one. -/
theorem UnitsFit.after_emitUnit {cap : Option Nat} {w : CodeUnit} {d d' : Dec} {k : Nat} (h : UnitsFit cap d (k + 1))
    (hemit : emitUnit cap w d = .ok d') : UnitsFit cap d' k := by
  rw [emitUnit_ok (h.mono (by omega))] at hemit
  cases hemit
  have hlen := add_one_toNat_of_fits h
  obtain ⟨hcap, hmax⟩ := h
  refine ⟨?_, ?_⟩ <;> simp only [hlen]
  · simpa only [Nat.add_assoc, Nat.add_comm 1 k] using hcap
  · omega

theorem emitCodePoint_answers {cap : Option Nat} {c : Reg32} {stolen : Bool} {d : Dec} (h : UnitsFit cap d 2) :
    (emitCodePoint cap c stolen d).Answers := by
  have hone : UnitsFit cap d 1 := h.mono (by omega)
  unfold emitCodePoint
  split_ifs
  · exact emitUnit_answers hone
  · exact (emitUnit_answers hone).andThen fun d' hd' => emitUnit_answers (h.after_emitUnit hd')
  · exact Result.answers_raised _

/-- A code point takes the room of at most two (R183). -/
theorem UnitsFit.after_emitCodePoint {cap : Option Nat} {c : Reg32} {stolen : Bool} {d d' : Dec} {k : Nat}
    (h : UnitsFit cap d (k + 2)) (hemit : emitCodePoint cap c stolen d = .ok d') : UnitsFit cap d' k := by
  unfold emitCodePoint at hemit
  split_ifs at hemit
  · exact (h.mono (by omega)).after_emitUnit hemit
  · obtain ⟨d1, hhigh, hlow⟩ := Result.andThen_ok hemit
    exact (h.after_emitUnit (k := k + 1) hhigh).after_emitUnit hlow

theorem symTrail_answers {cap : Option Nat} {x : Sym} {stolen : Bool} {d : Dec} (h : UnitsFit cap d 2) :
    (symTrail cap x stolen d).Answers := by
  simp only [symTrail]
  split
  · exact emitCodePoint_answers h
  · exact Result.answers_ok _

/-- One unit is the most that a class gives, but for the trailer's two. -/
theorem symAct_answers {cap : Option Nat} {op : SymOp} {stolen : Bool} {d : Dec} (h : UnitsFit cap d 1)
    (htrail : (∃ payload, op = .trail payload) → UnitsFit cap d 2) : (symAct cap op stolen d).Answers := by
  cases op with
  | lead2 hi => exact Result.answers_ok _
  | lead3 hi => exact Result.answers_ok _
  | lead4 => exact Result.answers_ok _
  | invalid sym => exact Result.answers_raised _
  | trail payload => exact symTrail_answers (htrail ⟨payload, rfl⟩)
  | _ => exact emitUnit_answers h

/-- The most units that the next symbol can give: one that is classified, two where a trailer may end its code point
(R51). -/
def Dec.unitsAhead (d : Dec) : Nat := if d.rem = 0 then 1 else 2

theorem Dec.unitsAhead_le (d : Dec) : d.unitsAhead ≤ 2 := by
  unfold unitsAhead; split <;> omega

theorem processSymbol_answers {cap : Option Nat} {x : Sym} {stolen : Bool} {d : Dec} (h : UnitsFit cap d d.unitsAhead) :
    (processSymbol cap x stolen d).Answers := by
  refine symAct_answers (h.mono (by unfold Dec.unitsAhead; split <;> omega)) fun ⟨payload, hop⟩ => ?_
  rwa [Dec.unitsAhead, if_neg (bne_iff_ne.1 (decodeSym_trail hop))] at h

theorem symTrail_leaves_room {cap : Option Nat} {x : Sym} {stolen : Bool} {d d' : Dec} (h : UnitsFit cap d 3)
    (hok : symTrail cap x stolen d = .ok d') : UnitsFit cap d' d'.unitsAhead := by
  obtain ⟨-, -, ⟨-, hrem, -, hemit⟩ | ⟨-, rfl⟩⟩ := symTrail_ok hok
  · rw [Dec.unitsAhead, if_pos hrem]
    exact UnitsFit.after_emitCodePoint (d := { d with ph := false, rem := 0, cp := 0 }) h hemit
  · exact UnitsFit.mono (d := { d with ph := false, rem := d.rem - 1, cp := gather d.cp d.rem x })
      ((Dec.unitsAhead_le _).trans (by omega)) h

/-- Three units are room for a symbol and the next one: a symbol that gives two ends its code point, so the next gives
at most one (R51). -/
theorem symAct_leaves_room {cap : Option Nat} {op : SymOp} {stolen : Bool} {d d' : Dec} (h : UnitsFit cap d 3)
    (hok : symAct cap op stolen d = .ok d') : UnitsFit cap d' d'.unitsAhead := by
  have hahead := d'.unitsAhead_le
  cases op with
  | lead2 hi => cases hok; exact h.mono (by omega)
  | lead3 hi => cases hok; exact UnitsFit.mono (by omega) h
  | lead4 => cases hok; exact UnitsFit.mono (by omega) h
  | invalid sym => cases hok
  | trail payload => exact symTrail_leaves_room h hok
  | _ => exact (UnitsFit.after_emitUnit (d := { d with ph := false }) h hok).mono hahead

theorem deliverStolen_answers {cap : Option Nat} {d : Dec} (h : UnitsFit cap d d.unitsAhead) :
    (deliverStolen cap d).Answers := by
  rcases deliverStolen_cases cap d with ⟨-, hk⟩ | ⟨-, hk⟩ <;> rw [hk]
  · exact processSymbol_answers h
  · exact Result.answers_ok _

theorem countByte_answers {fin : Bool} {d : Dec} (h : d.bcnt.toNat < lenMax) : (countByte fin d).Answers := by
  rcases countByte_cases fin d with ⟨-, hk⟩ | ⟨hfull, -⟩
  · rw [hk]; exact Result.answers_ok _
  · omega

/-- Settles O41: the direct symbol answers and leaves room for the stolen one (`symAct_leaves_room`), and the count is
below its end. -/
theorem byteCommandsCompleteWithRoom : Obligations.ByteCommandsCompleteWithRoom := by
  intro s i hi ⟨hp, hfin, hroom, hcnt⟩
  obtain ⟨op, fin, hexec⟩ := exec_of_isByteInstr hi
  obtain ⟨op', hdirect⟩ :=
    directOf_cases s.caps.decOut (symOfInstr i) op (gatherBit (hbOfInstr i) s.dec)
  have hfit : UnitsFit s.caps.decOut (gatherBit (hbOfInstr i) s.dec) 3 := hroom
  rw [hexec, byteCommand, inCall_active hp, acceptByte, if_neg (by simp [hfin]), unpackByte, hdirect]
  refine decOutcome_answers s (((symAct_answers (hfit.mono (by omega)) fun _ => hfit.mono (by omega)).andThen
    fun d1 h1 => deliverStolen_answers (symAct_leaves_room hfit h1)).andThen fun d2 h2 => countByte_answers ?_)
  obtain ⟨d1, h1, h2⟩ := Result.andThen_ok h2
  obtain ⟨-, -, -, -, hbcnt, -⟩ := symAct_frame h1
  rw [(deliverStolen_frame h2).2, hbcnt]
  exact hcnt

/-! ### The phase table (R14) -/

/-- A data or end command of the encoder runs in the frame of R14. -/
theorem exec_enc_inCall {i : Instr} (hi : isUnitInstr i = true ∨ i = .encEnd) (s : State) :
    ∃ command, exec i s = inCall s.enc.phase s command := by
  rcases hi with hunit | rfl
  · obtain ⟨op, hexec⟩ := exec_of_isUnitInstr hunit
    exact ⟨_, hexec s⟩
  · exact ⟨_, rfl⟩

/-- A data or end command of the decoder runs in the frame of R14. -/
theorem exec_dec_inCall {i : Instr} (hi : isByteInstr i = true ∨ i = .decFinish) (s : State) :
    ∃ command, exec i s = inCall s.dec.phase s command := by
  rcases hi with hbyte | rfl
  · obtain ⟨op, fin, hexec⟩ := exec_of_isByteInstr hbyte
    exact ⟨_, hexec s⟩
  · exact ⟨_, rfl⟩

theorem exec_unit_phase {i : Instr} {s t : State} (hi : isUnitInstr i = true) (hp : s.enc.phase = .active)
    (h : exec i s = .next t) : t.enc.phase = .faulted ∨ t.enc.phase = .active := by
  obtain ⟨op, hexec⟩ := exec_of_isUnitInstr hi
  rw [hexec] at h
  rcases unitCommand_next h with ⟨hf, rfl⟩ | ⟨-, -, -, rfl⟩ | ⟨-, -, -, e, hpair, -, rfl⟩ |
    ⟨-, -, ⟨e, hact, rfl⟩ | ⟨e, hact, -, rfl⟩⟩
  · exact .inl hf
  · exact .inl rfl
  · exact .inr ((pairComplete_frame hpair).1.trans hp)
  · exact .inl (by rw [unitAct_raised hact]; rfl)
  · exact .inr ((unitAct_frame hact).1.trans hp)

theorem execEncEnd_phase {s t : State} (hp : s.enc.phase = .active) (h : execEncEnd s = .next t) :
    t.enc.phase = .faulted ∨ t.enc.phase = .done := by
  rw [execEncEnd, inCall_active hp] at h
  obtain ⟨e, hpack | hpack, rfl⟩ := encOutcome_next h
  · obtain ⟨bytes, -, rfl⟩ := packCommand_eq_ok hpack
    exact .inr rfl
  · exact .inl (by rw [packCommand_eq_raised hpack]; rfl)

theorem exec_byte_phase {i : Instr} {s t : State} (hi : isByteInstr i = true) (hp : s.dec.phase = .active)
    (h : exec i s = .next t) : t.dec.phase = .faulted ∨ t.dec.phase = .active := by
  obtain ⟨op, fin, hexec⟩ := exec_of_isByteInstr hi
  obtain ⟨op', hdirect⟩ :=
    directOf_cases s.caps.decOut (symOfInstr i) op (gatherBit (hbOfInstr i) s.dec)
  rw [hexec] at h
  rcases byteCommand_next h with ⟨hf, rfl⟩ | ⟨-, -, ⟨d, h1, rfl⟩ | ⟨d1, h1, ⟨d, h2, rfl⟩ | ⟨d2, h2, -, rfl⟩⟩⟩
  · exact .inl hf
  · rw [hdirect] at h1
    obtain ⟨cause, info, rfl⟩ := symAct_raised h1
    exact .inl rfl
  · obtain ⟨cause, info, -, rfl⟩ := deliverStolen_raised h2
    exact .inl rfl
  · rw [hdirect] at h1
    exact .inr (((deliverStolen_frame h2).1.trans (symAct_frame h1).1).trans hp)

theorem execDecFinish_phase {s t : State} (hp : s.dec.phase = .active) (h : execDecFinish s = .next t) :
    t.dec.phase = .faulted ∨ t.dec.phase = .done := by
  rw [execDecFinish, inCall_active hp] at h
  rcases finishCommand_cases s.dec with ⟨-, -, hk⟩ | ⟨-, hk⟩ <;> rw [hk] at h <;> cases h
  · exact .inl rfl
  · exact .inr rfl

/-- Settles O24: the frame decides outside ACTIVE (`exec_enc_inCall`, `exec_dec_inCall`), and in ACTIVE each kind of
command has its own lemma. -/
theorem phaseTable : Obligations.PhaseTable := by
  intro s
  refine ⟨⟨⟨_, rfl, rfl⟩, fun i hi => ?_⟩, fun n => ⟨_, rfl, rfl⟩, fun i hi => ?_⟩
  · obtain ⟨command, hexec⟩ := exec_enc_inCall hi s
    refine ⟨fun hp => by rw [hexec, inCall_idle_or_done hp], fun hp => by rw [hexec, inCall_faulted hp],
      fun t hp ht => ?_⟩
    rcases hi with hunit | rfl
    · rw [if_neg (by rintro rfl; cases hunit)]
      exact exec_unit_phase hunit hp ht
    · exact execEncEnd_phase hp ht
  · obtain ⟨command, hexec⟩ := exec_dec_inCall hi s
    refine ⟨fun hp => by rw [hexec, inCall_idle_or_done hp], fun hp => by rw [hexec, inCall_faulted hp],
      fun t hp ht => ?_⟩
    rcases hi with hbyte | rfl
    · rw [if_neg (by rintro rfl; cases hbyte)]
      exact exec_byte_phase hbyte hp ht
    · exact execDecFinish_phase hp ht

/-! ### The registers (R30 to R32) -/

theorem encReg_zero (e : Enc) : encReg e 0 = encStatus e := rfl

theorem decReg_zero (d : Dec) : decReg d 0 = decStatus d := rfl

/-- Fields side by side as a sum. -/
theorem toNat_append_eq_add {m n : Nat} (x : BitVec m) (y : BitVec n) :
    (x ++ y).toNat = x.toNat * 2 ^ n + y.toNat := by
  rw [BitVec.toNat_append, ← Nat.shiftLeft_add_eq_or_of_lt y.isLt, Nat.shiftLeft_eq]

theorem bit_toNat_mul (b : Bool) (n : Nat) : b.toNat * n = if b then n else 0 := by
  cases b <;> simp

/-- `ENC_STATUS` by its fields (R30). -/
theorem encStatus_toNat (e : Enc) :
    (encStatus e).toNat = e.phase.code.toNat + (doneFlag e.phase).toNat * 2 ^ 2 + (errFlag e.phase).toNat * 2 ^ 3 +
      e.cause.toNat * 2 ^ 4 + e.hsv.toNat * 2 ^ 7 := by
  simp only [encStatus, toNat_append_eq_add, BitVec.toNat_ofBool, BitVec.toNat_zero]
  omega

/-- `DEC_STATUS` by its fields (R31). -/
theorem decStatus_toNat (d : Dec) :
    (decStatus d).toNat = d.phase.code.toNat + (doneFlag d.phase).toNat * 2 ^ 2 + (errFlag d.phase).toNat * 2 ^ 3 +
      d.cause.toNat * 2 ^ 4 + d.fin.toNat * 2 ^ 7 + d.ph.toNat * 2 ^ 8 + d.rem.toNat * 2 ^ 9 +
      d.stage.toNat * 2 ^ 12 := by
  simp only [decStatus, toNat_append_eq_add, BitVec.toNat_ofBool, BitVec.toNat_zero]
  omega

/-- Settles O48: the status words by their fields, the other registers by the map itself. -/
theorem registerMaps : Obligations.RegisterMaps := by
  refine ⟨fun e => ⟨?_, rfl, rfl, rfl, BitVec.toNat_setWidth_of_le (by decide),
      BitVec.toNat_setWidth_of_le (by decide), rfl, rfl⟩,
    fun d => ⟨?_, rfl, rfl, BitVec.toNat_setWidth_of_le (by decide), rfl, rfl, rfl, rfl⟩, by decide⟩
  · rw [encReg_zero, encStatus_toNat]
    cases e.phase <;> simp [Phase.code, doneFlag, errFlag, bit_toNat_mul]
  · rw [decReg_zero, decStatus_toNat]
    cases d.phase <;> simp [Phase.code, doneFlag, errFlag, bit_toNat_mul]

/-- Settles O49: a read is the step of its event (R32). -/
theorem registerReadsHaveNoSideEffect : Obligations.RegisterReadsHaveNoSideEffect :=
  fun _ _ _ => ⟨fun h => step_of_pending h, fun h => step_of_pending h⟩

/-! ### Reset (R36) -/

/-- Settles O54: the lemmas of `rst` for the invariants, and empty counters for the bounds. -/
theorem resetMeetsTheInvariants : Obligations.ResetMeetsTheInvariants :=
  ⟨encInv_reset, decInv_reset, by simp [EncBound, State.reset], by simp [DecBound, State.reset]⟩

end Sys2Proof.Machine

/-! PROOFS, family 20_memory. How large a result can be, what a limit refuses, and what the host finds in a result. -/

namespace Sys2Proof.Machine

/-! ### The size of a result (R48, R50, R158) -/

/-- At most three symbols a unit, with the unit counted. -/
theorem EncBound.count {e e' : Enc} {n : Nat} (bound : EncBound e) (hpos : e'.spos.toNat ≤ e.spos.toNat + n)
    (hn : n + (if e'.hsv then 3 else 0) ≤ 3 + (if e.hsv then 3 else 0)) (hucnt : e'.ucnt = e.ucnt)
    (hcnt : e'.ucnt.toNat < lenMax) : EncBound { e' with ucnt := e'.ucnt + 1 } := by
  have hsucc : (e.ucnt + 1).toNat = e.ucnt.toNat + 1 := by
    rw [hucnt] at hcnt
    simp only [lenMax] at hcnt
    bv_omega
  unfold EncBound at *
  simp only [hucnt, hsucc]
  omega

/-- A list of symbols takes no more positions than it has elements, and leaves the pending surrogate. -/
theorem emit_spos {cap : Option Nat} {syms : List Sym} {e e' : Enc} (h : emit cap syms e = .ok e') :
    e'.spos.toNat = e.spos.toNat + syms.length ∧ e'.hsv = e.hsv := by
  obtain ⟨hlen, rfl⟩ := emit_eq_ok h
  simp only [lenMax] at hlen
  refine ⟨?_, rfl⟩
  simp only [BitVec.toNat_add, BitVec.toNat_ofNat]
  omega

theorem encBound_raise (cause : BitVec 3) (info : CodeUnit) (idx : Reg32) : EncBound (encRaise cause info idx) := by
  simp [EncBound]

theorem execEncUnit_keeps_encBound {u : CodeUnit} {s t : State} (bound : EncBound s.enc)
    (h : execEncUnit u s = .next t) : EncBound t.enc := by
  rw [execEncUnit, classAct_eq_unitAct] at h
  rcases unitCommand_next h with ⟨-, rfl⟩ | ⟨-, -, -, rfl⟩ | ⟨-, hsv, -, e, hpair, hcnt, rfl⟩ |
    ⟨-, hsv, ⟨e, hact, rfl⟩ | ⟨e, hact, hcnt, rfl⟩⟩
  · exact bound
  · exact encBound_raise _ _ _
  · have hucnt := (pairComplete_frame hpair).2
    obtain ⟨e1, hemit, rfl⟩ := pairComplete_eq_ok hpair
    exact bound.count (n := 4) (emit_spos hemit).1.le (by simp [hsv]) hucnt hcnt
  · rw [State.setEnc_enc, unitAct_raised hact]
    exact encBound_raise _ _ _
  · have hucnt := (unitAct_frame hact).2
    rcases unitAct_cases s.caps.encScr u (decodeUnit u) with ⟨syms, hsyms, hcls⟩ | ⟨-, hcls⟩ | ⟨-, hcls⟩ <;>
      rw [hcls] at hact
    · obtain ⟨hpos, hpending⟩ := emit_spos hact
      exact bound.count hpos.le (by simp [hpending, hsv, hsyms]) hucnt hcnt
    · cases hact
      exact bound.count (n := 0) le_rfl (by simp [hsv]) hucnt hcnt
    · cases hact

theorem execEncEnd_keeps_encBound {s t : State} (bound : EncBound s.enc) (h : execEncEnd s = .next t) :
    EncBound t.enc := by
  rcases inCall_next h with ⟨-, hrun⟩ | ⟨-, rfl⟩
  · obtain ⟨e, hpack | hpack, rfl⟩ := encOutcome_next hrun
    · obtain ⟨bytes, -, rfl⟩ := packCommand_eq_ok hpack
      simp [EncBound, packedEnc]
    · rw [State.setEnc_enc, packCommand_eq_raised hpack]
      exact encBound_raise _ _ _
  · exact bound

/-- The units that the symbols taken so far account for: those written, and one for an open code point, which has
written none of its own. -/
def Dec.unitsDue (d : Dec) : Nat := d.len.toNat + if d.rem = 0 then 0 else 1

/-- `DecBound` counts the units due. -/
theorem decBound_iff (d : Dec) : DecBound d ↔
    (d.phase = .active → d.stage.toNat = d.bcnt.toNat % 7 ∧ d.unitsDue ≤ d.bcnt.toNat + d.bcnt.toNat / 7) :=
  Iff.rfl

/-- Without a unit written at most one more is due, that of an open code point. -/
theorem Dec.unitsDue_le_of_len {d d' : Dec} (h : d'.len = d.len) : d'.unitsDue ≤ d.unitsDue + 1 := by
  unfold unitsDue
  rw [h]
  split_ifs <;> omega

theorem emitUnit_unitsDue {cap : Option Nat} {w : CodeUnit} {d d' : Dec} (h : emitUnit cap w d = .ok d') :
    d'.unitsDue = d.unitsDue + 1 := by
  rcases emitUnit_cases cap w d with ⟨hfit, hk⟩ | ⟨why, hk, -⟩ <;> rw [hk] at h <;> cases h
  simp only [Dec.unitsDue, add_one_toNat_of_fits hfit]
  omega

theorem emitCodePoint_unitsDue_le {cap : Option Nat} {c : Reg32} {stolen : Bool} {d d' : Dec}
    (h : emitCodePoint cap c stolen d = .ok d') : d'.unitsDue ≤ d.unitsDue + 2 := by
  unfold emitCodePoint at h
  split_ifs at h
  · rw [emitUnit_unitsDue h]; omega
  · obtain ⟨d1, hhigh, hlow⟩ := Result.andThen_ok h
    rw [emitUnit_unitsDue hlow, emitUnit_unitsDue hhigh]

/-- A trailer that ends its code point writes at most two units and takes the place of the one that was due. -/
theorem symTrail_unitsDue_le {cap : Option Nat} {x : Sym} {stolen : Bool} {d d' : Dec}
    (h : symTrail cap x stolen d = .ok d') : d'.unitsDue ≤ d.unitsDue + 1 := by
  obtain ⟨-, -, ⟨hrem, -, -, hemit⟩ | ⟨-, rfl⟩⟩ := symTrail_ok h
  · have hopen : d.unitsDue = Dec.unitsDue { d with ph := false, rem := 0, cp := 0 } + 1 := by
      simp [Dec.unitsDue, hrem]
    rw [hopen]
    exact emitCodePoint_unitsDue_le hemit
  · exact Dec.unitsDue_le_of_len rfl

/-- A symbol accounts for at most one unit (R158). -/
theorem processSymbol_unitsDue_le {cap : Option Nat} {x : Sym} {stolen : Bool} {d d' : Dec}
    (h : processSymbol cap x stolen d = .ok d') : d'.unitsDue ≤ d.unitsDue + 1 := by
  cases hop : decodeSym (d.rem != 0) x with rw [processSymbol, hop] at h
  | lead2 hi => cases h; exact Dec.unitsDue_le_of_len rfl
  | lead3 hi => cases h; exact Dec.unitsDue_le_of_len rfl
  | lead4 => cases h; exact Dec.unitsDue_le_of_len rfl
  | invalid sym => cases h
  | trail payload => exact symTrail_unitsDue_le h
  | _ => exact (emitUnit_unitsDue (d := { d with ph := false }) h).le

/-- The bound speaks of an open call alone. -/
theorem decBound_of_not_active {d : Dec} (h : d.phase ≠ .active) : DecBound d := fun hp => absurd hp h

/-- A byte whose symbols went on: one symbol before the seventh byte of a group, two at it, where `n / 7` grows. -/
theorem decBound_of_symbols {cap : Option Nat} {hb fin : Bool} {x : Sym} {d d1 d2 : Dec} (bound : DecBound d)
    (hp : d.phase = .active) (h1 : processSymbol cap x false (gatherBit hb d) = .ok d1)
    (h2 : deliverStolen cap d1 = .ok d2) (hcnt : d2.bcnt.toNat < lenMax) :
    DecBound { d2 with bcnt := d2.bcnt + 1, fin := fin } := by
  obtain ⟨hstage, hdue⟩ := (decBound_iff d).1 bound hp
  have hdue1 : d1.unitsDue ≤ d.unitsDue + 1 := processSymbol_unitsDue_le (d := gatherBit hb d) h1
  obtain ⟨-, hstage1, -, -, hbcnt1, -⟩ := processSymbol_frame h1
  rw [gatherBit_stage] at hstage1
  have hbcnt2 : d2.bcnt = d.bcnt := (deliverStolen_frame h2).2.trans hbcnt1
  have hsucc : (d2.bcnt + 1).toNat = d.bcnt.toNat + 1 := by
    simp only [lenMax] at hcnt
    bv_omega
  refine (decBound_iff _).2 fun _ => ?_
  simp only [hsucc]
  rcases deliverStolen_cases cap d1 with ⟨hseven, hk⟩ | ⟨hne, hk⟩ <;> rw [hk] at h2
  · have hdue2 : d2.unitsDue ≤ d1.unitsDue + 1 :=
      processSymbol_unitsDue_le (d := { d1 with stolen := 0, stage := 0 }) h2
    obtain ⟨-, hstage2, -⟩ := processSymbol_frame h2
    have hzero : d2.stage.toNat = 0 := congrArg BitVec.toNat hstage2
    have hsix : d.stage.toNat = 6 := by bv_omega
    exact ⟨by simp only [hzero]; omega, by simp only [Dec.unitsDue] at *; omega⟩
  · cases h2
    have hstage' : d1.stage.toNat = d.stage.toNat + 1 := by bv_omega
    have hlt : d.stage.toNat ≠ 6 := by bv_omega
    exact ⟨by simp only [hstage']; omega, by simp only [Dec.unitsDue] at *; omega⟩

theorem execDecByte_keeps_decBound {b : Byte} {fin : Bool} {s t : State} (bound : DecBound s.dec)
    (h : execDecByte b fin s = .next t) : DecBound t.dec := by
  rcases byteCommand_next h with ⟨-, rfl⟩ |
    ⟨hp, -, ⟨d, h1, rfl⟩ | ⟨d1, h1, ⟨d, h2, rfl⟩ | ⟨d2, h2, hcnt, rfl⟩⟩⟩
  · exact bound
  · obtain ⟨cause, info, -, rfl⟩ := processSymbol_raised h1
    exact decBound_of_not_active (by simp)
  · obtain ⟨cause, info, -, rfl⟩ := deliverStolen_raised h2
    exact decBound_of_not_active (by simp)
  · exact decBound_of_symbols bound hp h1 h2 hcnt

theorem execDecFinish_keeps_decBound {s t : State} (bound : DecBound s.dec) (h : execDecFinish s = .next t) :
    DecBound t.dec := by
  rcases inCall_next h with ⟨hp, -⟩ | ⟨-, rfl⟩
  · rcases execDecFinish_phase hp h with hphase | hphase <;> exact decBound_of_not_active (by simp [hphase])
  · exact bound

/-- Settles O55: what a step can do to a block (`step_enc_cases`, `step_dec_cases`), each case with its own lemma. -/
theorem everyStepKeepsTheSizeBounds : Obligations.EveryStepKeepsTheSizeBounds := by
  intro s t h
  refine ⟨fun bound => ?_, fun bound => ?_⟩
  · rcases step_enc_cases h with henc | henc | henc | ⟨rest, ⟨u, hexec⟩ | hexec⟩
    · rwa [henc]
    · simp [henc, EncBound]
    · simp [henc, EncBound]
    · exact execEncUnit_keeps_encBound (s := s.setPending rest) bound hexec
    · exact execEncEnd_keeps_encBound (s := s.setPending rest) bound hexec
  · rcases step_dec_cases h with hdec | hdec | ⟨n, hdec⟩ | ⟨rest, ⟨b, fin, hexec⟩ | hexec⟩
    · rwa [hdec]
    · exact decBound_of_not_active (by simp [hdec])
    · simp [hdec, DecBound]
    · exact execDecByte_keeps_decBound (s := s.setPending rest) bound hexec
    · exact execDecFinish_keeps_decBound (s := s.setPending rest) bound hexec

/-! ### Limits (R24, R47) -/

/-- What does not fit the capacity is refused for the buffer. -/
theorem overLimit_bufferFull {cap : Option Nat} {n : Nat} (h : capFits cap n = false) :
    overLimit cap n = some .bufferFull := by
  cases cap with
  | none => cases h
  | some c =>
    simp only [capFits, Option.all_some, decide_eq_false_iff_not] at h
    rw [overLimit, if_pos (by simpa using h)]

/-- What fits the capacity and not the position register is refused for the counter. -/
theorem overLimit_counterLimit {cap : Option Nat} {n : Nat} (hcap : capFits cap n = true) (hlen : lenMax < n) :
    overLimit cap n = some .counterLimit := by
  cases h : overLimit cap n with
  | none => have := ((overLimit_none_iff cap n).1 h).2; omega
  | some why =>
    rcases overLimit_some cap n why h with ⟨-, hfull⟩ | ⟨rfl, -⟩
    · rw [hcap] at hfull; cases hfull
    · rfl

theorem emit_refused {cap : Option Nat} {syms : List Sym} {e : Enc} {why : Refusal}
    (h : overLimit cap (e.spos.toNat + syms.length) = some why) : emit cap syms e = .refused why := by
  rw [emit, h]

theorem emitUnit_refused {cap : Option Nat} {w : CodeUnit} {d : Dec} {why : Refusal}
    (h : overLimit cap (d.len.toNat + 1) = some why) : emitUnit cap w d = .refused why := by
  rw [emitUnit, h]

theorem countUnit_full {e : Enc} (h : e.ucnt.toNat = lenMax) : countUnit e = .refused .counterLimit := by
  rw [countUnit, if_pos h]

theorem countByte_full {fin : Bool} {d : Dec} (h : d.bcnt.toNat = lenMax) :
    countByte fin d = .refused .counterLimit := by
  rw [countByte, if_pos h]

/-! ### Symbols without room in DEC.OUT (R172 to R176, R181 to R183, R189) -/

/-- The classes that write one unit each (R172 to R176). -/
def writesUnit : SymOp → Bool
  | .lit _ => true
  | .ctl _ => true
  | .nul => true
  | .bel => true
  | .bs => true
  | .lead2 _ => false
  | .lead3 _ => false
  | .lead4 => false
  | .invalid _ => false
  | .trail _ => false

theorem symAct_of_writesUnit {op : SymOp} (h : writesUnit op = true) (cap : Option Nat) (stolen : Bool) (d : Dec) :
    ∃ w, symAct cap op stolen d = emitUnit cap w { d with ph := false } := by
  cases op with
  | lead2 hi => cases h
  | lead3 hi => cases h
  | lead4 => cases h
  | invalid sym => cases h
  | trail payload => cases h
  | _ => exact ⟨_, rfl⟩

/-- The symbols from 0x19 up are those of the classes that write a unit (R65). -/
theorem decodeSym_writesUnit {x : Sym} (h : 0x19 ≤ x.toNat) : writesUnit (decodeSym false x) = true := by
  simp only [decodeSym, Bool.false_eq_true, if_false, if_neg (show ¬x.toNat ≤ 0x0F by omega),
    if_neg (show ¬x.toNat ≤ 0x13 by omega), if_neg (show ¬x.toNat = 0x14 by omega),
    if_neg (show ¬x.toNat ≤ 0x18 by omega)]
  split_ifs <;> rfl

theorem le_toNat_of_single {x : Sym}
    (h : isPrintable x = true ∨ isControlSymbol x = true ∨ x = 0x7F ∨ x = 0x1F ∨ x = 0x1E) : 0x19 ≤ x.toNat := by
  simp only [isPrintable, isControlSymbol, Bool.and_eq_true, decide_eq_true_eq] at h
  rcases h with h | h | rfl | rfl | rfl
  · omega
  · omega
  · decide
  · decide
  · decide

/-- A symbol that writes one unit: a class of R172 to R176, or the end of a code point below 0x10000 (R182). -/
def WritesOne (d : Dec) (x : Sym) : Prop :=
  (d.rem = 0 ∧ 0x19 ≤ x.toNat) ∨ (d.rem = 1 ∧ (gather d.cp d.rem x).toNat < 0x10000)

/-- A symbol that writes a surrogate pair (R183). -/
def WritesPair (d : Dec) (x : Sym) : Prop :=
  d.rem = 1 ∧ 0x10000 ≤ (gather d.cp d.rem x).toNat ∧ (gather d.cp d.rem x).toNat ≤ 0x10FFFF

theorem symTrail_last {d : Dec} (hrem : d.rem = 1) (cap : Option Nat) (x : Sym) (stolen : Bool) :
    symTrail cap x stolen d =
      emitCodePoint cap (gather d.cp d.rem x) stolen { d with ph := false, rem := 0, cp := 0 } := by
  simp only [symTrail, if_pos hrem]

theorem processSymbol_last {d : Dec} (hrem : d.rem = 1) (cap : Option Nat) (x : Sym) (stolen : Bool) :
    processSymbol cap x stolen d =
      emitCodePoint cap (gather d.cp d.rem x) stolen { d with ph := false, rem := 0, cp := 0 } := by
  rw [processSymbol_trail cap x stolen d (by rw [hrem]; decide), symTrail_last hrem]

theorem WritesOne.eq_emitUnit {d : Dec} {x : Sym} (h : WritesOne d x) (cap : Option Nat) (stolen : Bool) :
    ∃ w d', d'.len = d.len ∧ processSymbol cap x stolen d = emitUnit cap w d' := by
  rcases h with ⟨hrem, hx⟩ | ⟨hrem, hc⟩
  · obtain ⟨w, hw⟩ := symAct_of_writesUnit (decodeSym_writesUnit hx) cap stolen d
    exact ⟨w, { d with ph := false }, rfl, (processSymbol_classified cap x stolen d hrem).trans hw⟩
  · exact ⟨_, { d with ph := false, rem := 0, cp := 0 }, rfl,
      by rw [processSymbol_last hrem, emitCodePoint, if_pos hc]⟩

theorem WritesPair.eq_emitUnit_twice {d : Dec} {x : Sym} (h : WritesPair d x) (cap : Option Nat) (stolen : Bool) :
    ∃ high low d', d'.len = d.len ∧
      processSymbol cap x stolen d = (emitUnit cap high d').andThen (emitUnit cap low) := by
  obtain ⟨hrem, hlow, hhigh⟩ := h
  exact ⟨_, _, { d with ph := false, rem := 0, cp := 0 }, rfl,
    by rw [processSymbol_last hrem, emitCodePoint, if_neg (by omega), if_pos hhigh]⟩

theorem WritesOne.refused {d : Dec} {x : Sym} {cap : Option Nat} {why : Refusal} (h : WritesOne d x) (stolen : Bool)
    (hlim : overLimit cap (d.len.toNat + 1) = some why) :
    processSymbol cap x stolen d = .refused why := by
  obtain ⟨w, d', hlen, hrun⟩ := h.eq_emitUnit cap stolen
  rw [hrun, emitUnit_refused (by rw [hlen, hlim])]

/-- No room for the high surrogate. -/
theorem WritesPair.refused_high {d : Dec} {x : Sym} {cap : Option Nat} {why : Refusal} (h : WritesPair d x)
    (stolen : Bool) (hlim : overLimit cap (d.len.toNat + 1) = some why) :
    processSymbol cap x stolen d = .refused why := by
  obtain ⟨high, low, d', hlen, hrun⟩ := h.eq_emitUnit_twice cap stolen
  rw [hrun, emitUnit_refused (by rw [hlen, hlim]), Result.refused_andThen]

/-- Room for the high surrogate and none for the low one. -/
theorem WritesPair.refused_low {d : Dec} {x : Sym} {cap : Option Nat} {why : Refusal} (h : WritesPair d x)
    (stolen : Bool) (hfit : UnitsFit cap d 1) (hlim : overLimit cap (d.len.toNat + 2) = some why) :
    processSymbol cap x stolen d = .refused why := by
  obtain ⟨high, low, d', hlen, hrun⟩ := h.eq_emitUnit_twice cap stolen
  have hfit' : UnitsFit cap d' 1 := by rwa [UnitsFit, hlen]
  have hone : (d.len + 1).toNat = d.len.toNat + 1 := add_one_toNat_of_fits (k := 0) hfit
  rw [hrun, emitUnit_ok hfit', Result.ok_andThen, emitUnit_refused]
  simpa only [hlen, hone, Nat.add_assoc] using hlim

/-- Settles O59: one unit is refused where it finds no room (`WritesOne.refused`), a pair where its high or its low
surrogate does (`WritesPair.refused_high`, `WritesPair.refused_low`). -/
theorem symbolsWithoutRoomAreRefused : Obligations.SymbolsWithoutRoomAreRefused := by
  intro cap stolen d x c single pair
  have hone : single → WritesOne d x := Or.imp (And.imp_right le_toNat_of_single) id
  refine ⟨fun h hfull => (hone h).refused stolen (overLimit_bufferFull hfull),
    fun h hcap hlen => (hone h).refused stolen (overLimit_counterLimit hcap hlen), fun (h : WritesPair d x) hfull => ?_,
    fun (h : WritesPair d x) hcap hlen => h.refused_high stolen (overLimit_counterLimit hcap hlen),
    fun (h : WritesPair d x) hcap hlen => ?_⟩
  · cases hhigh : capFits cap (d.len.toNat + 1) with
    | false => exact h.refused_high stolen (overLimit_bufferFull hhigh)
    | true =>
      rcases hfull with hfull | ⟨hfull, hlen⟩
      · rw [hhigh] at hfull; cases hfull
      · exact h.refused_low stolen ⟨hhigh, hlen⟩ (overLimit_bufferFull hfull)
  · have hhigh : capFits cap (d.len.toNat + 1) = true := capFits_mono (by omega) hcap
    rcases Nat.lt_or_ge lenMax (d.len.toNat + 1) with hover | hlen1
    · exact h.refused_high stolen (overLimit_counterLimit hhigh hover)
    · exact h.refused_low stolen ⟨hhigh, hlen1⟩ (overLimit_counterLimit hcap hlen)

/-! ### The symbols of a code unit (R64) -/

/-- The symbols that a class of units emits while no surrogate is pending: none for a surrogate. -/
def unitOpSyms : UnitOp → List Sym
  | .lit sym => [sym]
  | .ctl ch => [ch + ctlOffset]
  | .nul => [symNul]
  | .bel => [symBel]
  | .bs => [symBs]
  | .ovl raw => [symOvl, raw]
  | .two hi lo => symsTwo hi lo
  | .three hi mid lo => symsThree hi mid lo
  | .high _ => []
  | .low _ => []

theorem unitAct_of_syms {op : UnitOp} (h : unitOpSyms op ≠ []) (cap : Option Nat) (u : CodeUnit) :
    unitAct cap u op = emit cap (unitOpSyms op) := by
  cases op with
  | high payload => exact absurd rfl h
  | low payload => exact absurd rfl h
  | _ => rfl

/-- The lead of the two-symbol form as a number (R70). -/
theorem symsTwo_extractLsb' {u : CodeUnit} (h : u.toNat ≤ 0x07FF) :
    symsTwo (u.extractLsb' 7 4) (u.extractLsb' 0 7) = [BitVec.ofNat 7 (u.toNat / 128), u.extractLsb' 0 7] := by
  have htag : ∀ hi : BitVec 4, tag2 ||| hi.setWidth 7 = hi.setWidth 7 := by decide
  have hlead : (u.extractLsb' 7 4).setWidth 7 = BitVec.ofNat 7 (u.toNat / 128) := by
    apply BitVec.eq_of_toNat_eq
    simp only [BitVec.toNat_setWidth, BitVec.extractLsb'_toNat, BitVec.toNat_ofNat, Nat.shiftRight_eq_div_pow]
    omega
  rw [symsTwo, htag, hlead]

/-- The lead and the middle of the three-symbol form as numbers (R71). -/
theorem symsThree_extractLsb' (u : CodeUnit) :
    symsThree (u.extractLsb' 14 2) (u.extractLsb' 7 7) (u.extractLsb' 0 7) =
      [BitVec.ofNat 7 (0x10 + u.toNat / 16384), BitVec.ofNat 7 (u.toNat / 128 % 128), u.extractLsb' 0 7] := by
  have htag : ∀ hi : BitVec 2, tag3 ||| hi.setWidth 7 = BitVec.ofNat 7 (0x10 + hi.toNat) := by decide
  have hlead : (u.extractLsb' 14 2).toNat = u.toNat / 16384 := by
    simp only [BitVec.extractLsb'_toNat, Nat.shiftRight_eq_div_pow]
    omega
  have hmid : u.extractLsb' 7 7 = BitVec.ofNat 7 (u.toNat / 128 % 128) := by
    apply BitVec.eq_of_toNat_eq
    simp only [BitVec.extractLsb'_toNat, BitVec.toNat_ofNat, Nat.shiftRight_eq_div_pow]
    omega
  rw [symsThree, htag, hlead, hmid]

/-- The classes of the decoder emit the symbols column of R64. The two tables cut the range of a unit alike, so a branch
of one meets one branch of the other. -/
theorem unitOpSyms_decodeUnit (u : CodeUnit) : unitOpSyms (decodeUnit u) = unitSyms u := by
  have hlow : u.extractLsb' 0 7 = BitVec.ofNat 7 u.toNat := rfl
  have hctl : u.extractLsb' 0 7 + ctlOffset = BitVec.ofNat 7 (u.toNat + 0x10) := by
    rw [hlow, BitVec.ofNat_add]; rfl
  simp only [decodeUnit, unitSyms]
  split_ifs <;> simp only [unitOpSyms]
  any_goals omega
  · rfl
  · rfl
  · rfl
  · rw [hctl]
  · rw [hlow]
  · rfl
  · exact symsTwo_extractLsb' ‹_›
  · exact symsThree_extractLsb' u

/-! ### Units without room in ENC.SCR or at the end of a counter (R101, R112, R114) -/

/-- Only a low surrogate decodes to the class that ends a pair (R64, R112). -/
theorem decodeUnit_low {u : CodeUnit} {payload : BitVec 10} (h : decodeUnit u = .low payload) :
    isLowSurrogate u = true := by
  simp only [decodeUnit] at h
  split_ifs at h with _ _ _ _ _ _ _ _ hlow
  simpa [isLowSurrogate] using hlow

/-- A unit with symbols of its own is their emission. -/
theorem acceptUnit_of_unitSyms {u : CodeUnit} {e : Enc} (hsv : e.hsv = false) (h : unitSyms u ≠ []) (cap : Option Nat) :
    acceptUnit cap u (classAct cap u) e = emit cap (unitSyms u) e := by
  rw [← unitOpSyms_decodeUnit] at h ⊢
  rw [acceptUnit, if_neg (by simp [hsv]), classAct_eq_unitAct, unitAct_of_syms h]

/-- A unit that is no low surrogate goes on where its symbols have room. -/
theorem acceptUnit_ok_of_room {cap : Option Nat} {u : CodeUnit} {e : Enc} (hsv : e.hsv = false)
    (hu : isLowSurrogate u = false) (hcap : capFits cap (e.spos.toNat + (unitSyms u).length) = true)
    (hlen : e.spos.toNat + (unitSyms u).length ≤ lenMax) : ∃ e', acceptUnit cap u (classAct cap u) e = .ok e' := by
  rw [← unitOpSyms_decodeUnit] at hcap hlen
  rw [acceptUnit, if_neg (by simp [hsv]), classAct_eq_unitAct]
  cases hop : decodeUnit u with rw [hop] at hcap hlen
  | high payload => exact ⟨_, rfl⟩
  | low payload => rw [decodeUnit_low hop] at hu; cases hu
  | _ => exact ⟨_, emit_ok hcap hlen⟩

/-- A low surrogate after a pending one is the pair's four symbols, and then the pending unit is taken away. -/
theorem acceptUnit_of_pair {u : CodeUnit} {e : Enc} (hsv : e.hsv = true) (hu : isLowSurrogate u = true)
    (cap : Option Nat) (cls : Enc → Result Enc) :
    acceptUnit cap u cls e =
      (emit cap (symsFour (pairCodePoint e.hs u)) e).andThen fun e => .ok { e with hsv := false, hs := 0 } := by
  rw [acceptUnit, if_pos hsv, if_pos hu, pairComplete]

/-- A unit that is not accepted is a command that is refused. -/
theorem exec_encUnit_refused {u : CodeUnit} {s : State} {why : Refusal} (hp : s.enc.phase = .active)
    (h : acceptUnit s.caps.encScr u (classAct s.caps.encScr u) s.enc = .refused why) :
    exec (.encUnit u) s = .refused why := by
  rw [exec, execEncUnit, unitCommand, inCall_active hp, h, Result.refused_andThen, encOutcome_refused]

/-- A unit that is accepted and cannot be counted is refused (R24). -/
theorem exec_encUnit_count_full {u : CodeUnit} {s : State} {e : Enc} (hp : s.enc.phase = .active)
    (h : acceptUnit s.caps.encScr u (classAct s.caps.encScr u) s.enc = .ok e) (hcnt : s.enc.ucnt.toNat = lenMax) :
    exec (.encUnit u) s = .refused .counterLimit := by
  have hframe : e.ucnt = s.enc.ucnt := by
    rw [classAct_eq_unitAct] at h
    exact (acceptUnit_frame h).2
  rw [exec, execEncUnit, unitCommand, inCall_active hp, h, Result.ok_andThen, countUnit_full (by rw [hframe, hcnt]),
    encOutcome_refused]

/-- A unit whose own symbols pass a limit is refused. -/
theorem exec_encUnit_syms_refused {u : CodeUnit} {s : State} {why : Refusal} (hp : s.enc.phase = .active)
    (hsv : s.enc.hsv = false) (h : unitSyms u ≠ [])
    (hlim : overLimit s.caps.encScr (s.enc.spos.toNat + (unitSyms u).length) = some why) :
    exec (.encUnit u) s = .refused why :=
  exec_encUnit_refused hp (by rw [acceptUnit_of_unitSyms hsv h, emit_refused hlim])

/-- A low surrogate whose pair passes a limit is refused. -/
theorem exec_encUnit_pair_refused {u : CodeUnit} {s : State} {why : Refusal} (hp : s.enc.phase = .active)
    (hsv : s.enc.hsv = true) (hu : isLowSurrogate u = true)
    (hlim : overLimit s.caps.encScr (s.enc.spos.toNat + 4) = some why) : exec (.encUnit u) s = .refused why :=
  exec_encUnit_refused hp (by rw [acceptUnit_of_pair hsv hu, emit_refused hlim, Result.refused_andThen])

/-- Symbols that pass the end of `enc.spos` are there. -/
theorem unitSyms_ne_nil_of_lenMax_lt {u : CodeUnit} {e : Enc} (h : lenMax < e.spos.toNat + (unitSyms u).length) :
    unitSyms u ≠ [] := by
  intro hnil
  have hlt := e.spos.isLt
  simp only [hnil, List.length_nil, lenMax] at h
  omega

/-! ### A result without room in ENC.OUT (R130, R134) -/

theorem pack_of_length_lt {l : List Sym} (h : l.length < 8) : pack l = tail l := by
  unfold pack
  split
  · simp only [List.length_cons] at h; omega
  · rfl

/-- Eight symbols pack into seven bytes and each symbol of the partial group into one (R134). -/
theorem length_pack (l : List Sym) : (pack l).length = 7 * (l.length / 8) + l.length % 8 := by
  induction l using pack.induct with
  | case1 s0 s1 s2 s3 s4 s5 s6 s7 rest ih =>
    simp only [pack, group, List.length_append, List.length_cons, List.length_nil, ih]
    omega
  | case2 l hshort =>
    have hlt : l.length < 8 := by
      match l, hshort with
      | [], _ | [_], _ | [_, _], _ | [_, _, _], _ | [_, _, _, _], _ | [_, _, _, _, _], _ | [_, _, _, _, _, _], _
      | [_, _, _, _, _, _, _], _ => simp
      | s0 :: s1 :: s2 :: s3 :: s4 :: s5 :: s6 :: s7 :: rest, h => exact (h s0 s1 s2 s3 s4 s5 s6 s7 rest rfl).elim
    rw [pack_of_length_lt hlt, tail, List.length_map]
    omega

theorem length_scratchSyms (n : Nat) (e : Enc) : (scratchSyms n e).length = e.spos.toNat := by
  simp [scratchSyms]

theorem exec_encEnd_refused {s : State} {why : Refusal} (hp : s.enc.phase = .active) (hsv : s.enc.hsv = false)
    (hlim : overLimit s.caps.encOut (7 * (s.enc.spos.toNat / 8) + s.enc.spos.toNat % 8) = some why) :
    exec .encEnd s = .refused why := by
  have hbytes : overLimit s.caps.encOut (pack (scratchSyms s.draws s.enc)).length = some why := by
    rwa [length_pack, length_scratchSyms]
  simp only [exec, execEncEnd, inCall_active hp, packCommand, hsv, hbytes, Bool.false_eq_true, if_false,
    encOutcome_refused]

/-! ### Bytes without room in DEC.OUT or at the end of a counter (R152) -/

section
variable {s : State} {b : Byte} {fin : Bool} {d : Dec} {why : Refusal} (hp : s.dec.phase = .active)
  (hfin : s.dec.fin = false)
include hp hfin

/-- An open call that has not seen its final byte takes the byte. -/
theorem exec_decByte_active :
    exec (.decByte b fin) s =
      decOutcome s
        (unpackByte s.caps.decOut (pbyteHb b) fin (processSymbol s.caps.decOut (pbyteSym b) false) s.dec) := by
  rw [exec, execDecByte, byteCommand, inCall_active hp, acceptByte, if_neg (by simp [hfin])]

theorem exec_decByte_direct_refused
    (h : processSymbol s.caps.decOut (pbyteSym b) false (gatherBit (pbyteHb b) s.dec) = .refused why) :
    exec (.decByte b fin) s = .refused why := by
  rw [exec_decByte_active hp hfin, unpackByte, h, Result.refused_andThen, Result.refused_andThen, decOutcome_refused]

variable (h : processSymbol s.caps.decOut (pbyteSym b) false (gatherBit (pbyteHb b) s.dec) = .ok d)
include h

theorem exec_decByte_stolen_refused (hstolen : deliverStolen s.caps.decOut d = .refused why) :
    exec (.decByte b fin) s = .refused why := by
  rw [exec_decByte_active hp hfin, unpackByte, h, Result.ok_andThen, hstolen, Result.refused_andThen,
    decOutcome_refused]

/-- A byte whose symbols go on and that cannot be counted is refused (R24). -/
theorem exec_decByte_count_full {d2 : Dec} (hstolen : deliverStolen s.caps.decOut d = .ok d2)
    (hcnt : s.dec.bcnt.toNat = lenMax) : exec (.decByte b fin) s = .refused .counterLimit := by
  obtain ⟨-, -, -, -, hbcnt, -⟩ := processSymbol_frame h
  have hfull : d2.bcnt.toNat = lenMax := by rw [(deliverStolen_frame hstolen).2, hbcnt, gatherBit_bcnt, hcnt]
  rw [exec_decByte_active hp hfin, unpackByte, h, Result.ok_andThen, hstolen, Result.ok_andThen, countByte_full hfull,
    decOutcome_refused]

omit hp hfin

/-- The seventh byte of a group delivers the stolen symbol. -/
theorem deliverStolen_after_seventh (hsix : s.dec.stage = 6) :
    deliverStolen s.caps.decOut d =
      processSymbol s.caps.decOut (stolenSym d.stolen) true { d with stolen := 0, stage := 0 } := by
  obtain ⟨-, hstage, -⟩ := processSymbol_frame h
  rw [deliverStolen, if_pos (by rw [hstage, gatherBit_stage, hsix]; rfl)]

/-- No other byte does. -/
theorem deliverStolen_before_seventh (hne : s.dec.stage ≠ 6) : deliverStolen s.caps.decOut d = .ok d := by
  obtain ⟨-, hstage, -⟩ := processSymbol_frame h
  rw [deliverStolen, if_neg (by rw [hstage, gatherBit_stage]; bv_omega)]

end

/-- Settles O29: a unit's symbols or its pair without room (`exec_encUnit_syms_refused`, `exec_encUnit_pair_refused`), a
unit that cannot be counted (`exec_encUnit_count_full`), a result without room (`exec_encEnd_refused`), and the three
places where a byte is refused (the lemmas `exec_decByte_*`). -/
theorem limitsRefuseTheWholeCommand : Obligations.LimitsRefuseTheWholeCommand := by
  intro s
  refine ⟨fun u hp hsv => ⟨fun hne hfull => ?_, fun hcap hlen => ?_, fun hu hcap hlen hcnt => ?_⟩,
    fun u hp hsv hu => ⟨fun hfull => ?_, fun hcap hlen => ?_, fun hcap hlen hcnt => ?_⟩,
    fun hp hsv hfull => exec_encEnd_refused hp hsv (overLimit_bufferFull hfull), fun b fin hp hfin => ?_⟩
  · exact exec_encUnit_syms_refused hp hsv hne (overLimit_bufferFull hfull)
  · exact exec_encUnit_syms_refused hp hsv (unitSyms_ne_nil_of_lenMax_lt hlen) (overLimit_counterLimit hcap hlen)
  · obtain ⟨e, he⟩ := acceptUnit_ok_of_room hsv hu hcap hlen
    exact exec_encUnit_count_full hp he hcnt
  · exact exec_encUnit_pair_refused hp hsv hu (overLimit_bufferFull hfull)
  · exact exec_encUnit_pair_refused hp hsv hu (overLimit_counterLimit hcap hlen)
  · have hpair := acceptUnit_of_pair hsv hu s.caps.encScr (classAct s.caps.encScr u)
    rw [emit_ok hcap hlen, Result.ok_andThen] at hpair
    exact exec_encUnit_count_full hp hpair hcnt
  · refine ⟨fun why h => exec_decByte_direct_refused hp hfin h, fun d h => ⟨fun hne hcnt => ?_, fun hsix => ?_⟩⟩
    · exact exec_decByte_count_full hp hfin h (deliverStolen_before_seventh h hne) hcnt
    · have hdeliver := deliverStolen_after_seventh h hsix
      exact ⟨fun why hstolen => exec_decByte_stolen_refused hp hfin h (hdeliver.trans hstolen),
        fun d2 hstolen hcnt => exec_decByte_count_full hp hfin h (hdeliver.trans hstolen) hcnt⟩

/-! ### Reads of a result (R46) -/

/-- A defined read finds the element that is there. -/
theorem bufValue_of_done {w : Nat} {p : Phase} {len idx : Reg32} {m : Memory w} {x : BitVec w} (hp : p = .done)
    (hidx : idx.toNat < len.toNat) (hx : memRead m idx.toNat = some x) (free : BitVec w) :
    bufValue p len idx m free = x := by
  have hdefined : readDefined p len idx = true := by simp [readDefined, hp, hidx]
  rw [bufValue, if_pos hdefined, hx, Option.getD_some]

/-- Settles O50: the step is `readBuf`, and the value on the port is `bufValue_of_done`. -/
theorem resultReadsFindTheResult : Obligations.ResultReadsFindTheResult := by
  intro s idx rest
  refine ⟨fun h => ⟨encBufData idx s, step_of_pending h, fun x hp hidx hx => ?_⟩,
    fun h => ⟨decBufData idx s, step_of_pending h, fun x hp hidx hx => ?_⟩⟩
  · exact bufValue_of_done hp hidx hx _
  · exact bufValue_of_done hp hidx hx _

end Sys2Proof.Machine

/-! PROOFS, family 30_encoding. The round trips of the four formats, the rows of the opcode table, and the calls
that the host makes of the commands. -/

namespace Sys2Proof.Machine

/-! ### Fields -/

/-- A field by its value. -/
theorem extractLsb'_eq_of_toNat {n start len : Nat} {v : BitVec n} {x : BitVec len}
    (h : v.toNat / 2 ^ start % 2 ^ len = x.toNat) : v.extractLsb' start len = x := by
  apply BitVec.eq_of_toNat_eq
  rw [BitVec.extractLsb'_toNat, Nat.shiftRight_eq_div_pow, h]

/-- The field at the top of a word is 0 exactly where the word's value lies below it. -/
theorem extractLsb'_top_eq_zero_iff {start len : Nat} (v : BitVec (start + len)) :
    v.extractLsb' start len = 0 ↔ v.toNat < 2 ^ start := by
  have hdiv : v.toNat / 2 ^ start < 2 ^ len := Nat.div_lt_of_lt_mul (Nat.pow_add 2 start len ▸ v.isLt)
  rw [← BitVec.toNat_inj, BitVec.extractLsb'_toNat, Nat.shiftRight_eq_div_pow, Nat.mod_eq_of_lt hdiv]
  exact Nat.div_eq_zero_iff_lt (Nat.two_pow_pos start)

theorem extractLsb'_top_beq_zero_of_le {start len : Nat} {v : BitVec (start + len)} (h : 2 ^ start ≤ v.toNat) :
    (v.extractLsb' start len == 0) = false :=
  beq_eq_false_iff_ne.2 fun hzero => Nat.not_lt_of_le h ((extractLsb'_top_eq_zero_iff v).1 hzero)

theorem beq_zero_of_toNat_ne {arg : Reg32} (h : arg.toNat ≠ 0) : (arg == 0) = false :=
  beq_eq_false_iff_ne.2 fun hzero => h (by rw [hzero]; rfl)

/-! ### Format CMD (R60 to R63) -/

theorem cmdOp_cmdWord (op : BitVec 4) (arg : Reg32) : cmdOp (cmdWord op arg) = op :=
  BitVec.extractLsb'_append_eq_left

theorem cmdArg_cmdWord (op : BitVec 4) (arg : Reg32) : cmdArg (cmdWord op arg) = arg :=
  BitVec.extractLsb'_append_eq_right

theorem cmdWord_cmdOp_cmdArg (w : CmdWord) : cmdWord (cmdOp w) (cmdArg w) = w := by
  apply BitVec.eq_of_toNat_eq
  rw [cmdWord, toNat_append_eq_add, cmdOp, cmdArg]
  simp only [BitVec.extractLsb'_toNat, Nat.shiftRight_eq_div_pow]
  omega

theorem mustBeZero_eq_ok_iff {ok : Bool} {i j : Instr} : mustBeZero ok i = .ok j ↔ ok = true ∧ i = j := by
  cases ok <;> simp [mustBeZero]

theorem mustBeZero_false (i : Instr) : mustBeZero false i = .error .nonzeroMustBeZero := rfl

theorem decodeEncCmd_begin (arg : Reg32) : decodeEncCmd 0 arg = mustBeZero (arg == 0) .encBegin := rfl

theorem decodeEncCmd_unit (arg : Reg32) :
    decodeEncCmd 1 arg = mustBeZero (arg.extractLsb' 16 16 == 0) (.encUnit (arg.extractLsb' 0 16)) := rfl

theorem decodeEncCmd_end (arg : Reg32) : decodeEncCmd 2 arg = mustBeZero (arg == 0) .encEnd := rfl

theorem decodeEncCmd_reserved {op : BitVec 4} (h0 : op.toNat ≠ 0) (h1 : op.toNat ≠ 1) (h2 : op.toNat ≠ 2)
    (arg : Reg32) : decodeEncCmd op arg = .error .reservedOp := by
  unfold decodeEncCmd
  split
  · exact absurd ‹_› h0
  · exact absurd ‹_› h1
  · exact absurd ‹_› h2
  · rfl

theorem decodeDecCmd_prepare (arg : Reg32) : decodeDecCmd 8 arg = .ok (.decPrepare arg) := rfl

theorem decodeDecCmd_byte (arg : Reg32) :
    decodeDecCmd 9 arg =
      mustBeZero (arg.extractLsb' 9 23 == 0) (.decByte (arg.extractLsb' 0 8) (arg.getLsbD 8)) := rfl

theorem decodeDecCmd_finish (arg : Reg32) : decodeDecCmd 10 arg = mustBeZero (arg == 0) .decFinish := rfl

theorem decodeDecCmd_reserved {op : BitVec 4} (h8 : op.toNat ≠ 8) (h9 : op.toNat ≠ 9) (h10 : op.toNat ≠ 10)
    (arg : Reg32) : decodeDecCmd op arg = .error .reservedOp := by
  unfold decodeDecCmd
  split
  · exact absurd ‹_› h8
  · exact absurd ‹_› h9
  · exact absurd ‹_› h10
  · rfl

theorem decodeEncCmd_op {op : BitVec 4} {arg : Reg32} {i : Instr} (h : decodeEncCmd op arg = .ok i) :
    op = 0 ∨ op = 1 ∨ op = 2 := by
  by_contra hop
  simp only [not_or, BitVec.toNat_eq] at hop
  obtain ⟨h0, h1, h2⟩ := hop
  rw [decodeEncCmd_reserved h0 h1 h2] at h
  cases h

theorem decodeDecCmd_op {op : BitVec 4} {arg : Reg32} {i : Instr} (h : decodeDecCmd op arg = .ok i) :
    op = 8 ∨ op = 9 ∨ op = 10 := by
  by_contra hop
  simp only [not_or, BitVec.toNat_eq] at hop
  obtain ⟨h8, h9, h10⟩ := hop
  rw [decodeDecCmd_reserved h8 h9 h10] at h
  cases h

/-- The argument of `ENC_UNIT` is its unit below 16 zeros (R61). -/
theorem encUnit_arg {arg : Reg32} (h : arg.extractLsb' 16 16 = 0) : 0#16 ++ arg.extractLsb' 0 16 = arg := by
  have hlt := (extractLsb'_top_eq_zero_iff (start := 16) (len := 16) arg).1 h
  apply BitVec.eq_of_toNat_eq
  rw [toNat_append_eq_add, BitVec.extractLsb'_toNat, Nat.shiftRight_zero, Nat.mod_eq_of_lt hlt]
  exact Nat.zero_add _

/-- The argument of `DEC_BYTE` is its byte, the mark above it, and zeros (R62). -/
theorem decByte_arg {arg : Reg32} (h : arg.extractLsb' 9 23 = 0) :
    0#23 ++ BitVec.cons (arg.getLsbD 8) (arg.extractLsb' 0 8) = arg := by
  have hlt := (extractLsb'_top_eq_zero_iff (start := 9) (len := 23) arg).1 h
  apply BitVec.eq_of_toNat_eq
  rw [toNat_append_eq_add, BitVec.toNat_cons', BitVec.getLsbD, Nat.toNat_testBit, Nat.shiftLeft_eq,
    BitVec.extractLsb'_toNat, Nat.shiftRight_zero, BitVec.toNat_ofNat]
  omega

theorem encode_of_decodeEncCmd {op : BitVec 4} {arg : Reg32} {i : Instr} (h : decodeEncCmd op arg = .ok i) :
    i.wf = true ∧ encode i = .cmd .enc (cmdWord op arg) := by
  rcases decodeEncCmd_op h with rfl | rfl | rfl
  · obtain ⟨harg, rfl⟩ := mustBeZero_eq_ok_iff.1 (decodeEncCmd_begin arg ▸ h)
    rw [beq_iff_eq.1 harg]
    exact ⟨rfl, rfl⟩
  · obtain ⟨harg, rfl⟩ := mustBeZero_eq_ok_iff.1 (decodeEncCmd_unit arg ▸ h)
    exact ⟨rfl, by rw [encode, encUnit_arg (beq_iff_eq.1 harg)]⟩
  · obtain ⟨harg, rfl⟩ := mustBeZero_eq_ok_iff.1 (decodeEncCmd_end arg ▸ h)
    rw [beq_iff_eq.1 harg]
    exact ⟨rfl, rfl⟩

theorem encode_of_decodeDecCmd {op : BitVec 4} {arg : Reg32} {i : Instr} (h : decodeDecCmd op arg = .ok i) :
    i.wf = true ∧ encode i = .cmd .dec (cmdWord op arg) := by
  rcases decodeDecCmd_op h with rfl | rfl | rfl
  · cases h
    exact ⟨rfl, rfl⟩
  · obtain ⟨harg, rfl⟩ := mustBeZero_eq_ok_iff.1 (decodeDecCmd_byte arg ▸ h)
    exact ⟨rfl, by rw [encode, decByte_arg (beq_iff_eq.1 harg)]⟩
  · obtain ⟨harg, rfl⟩ := mustBeZero_eq_ok_iff.1 (decodeDecCmd_finish arg ▸ h)
    rw [beq_iff_eq.1 harg]
    exact ⟨rfl, rfl⟩

theorem decode_cmdWord_enc (op : BitVec 4) (arg : Reg32) :
    decode (.cmd .enc (cmdWord op arg)) = decodeEncCmd op arg := by
  rw [decode, decodeCmd, cmdOp_cmdWord, cmdArg_cmdWord]

theorem decode_cmdWord_dec (op : BitVec 4) (arg : Reg32) :
    decode (.cmd .dec (cmdWord op arg)) = decodeDecCmd op arg := by
  rw [decode, decodeCmd, cmdOp_cmdWord, cmdArg_cmdWord]

theorem decode_encode_encUnit (u : CodeUnit) : decode (encode (.encUnit u)) = .ok (.encUnit u) := by
  have htop : (0#16 ++ u).extractLsb' 16 16 = 0#16 := BitVec.extractLsb'_append_eq_left
  have hunit : (0#16 ++ u).extractLsb' 0 16 = u := BitVec.extractLsb'_append_eq_right
  rw [encode, decode_cmdWord_enc, decodeEncCmd_unit, mustBeZero_eq_ok_iff]
  exact ⟨beq_iff_eq.2 htop, congrArg Instr.encUnit hunit⟩

theorem decode_encode_decPrepare (n : Reg32) : decode (encode (.decPrepare n)) = .ok (.decPrepare n) := by
  rw [encode, decode_cmdWord_dec, decodeDecCmd_prepare]

theorem decode_encode_decByte (b : Byte) (fin : Bool) : decode (encode (.decByte b fin)) = .ok (.decByte b fin) := by
  have htop : (0#23 ++ BitVec.cons fin b).extractLsb' 9 23 = 0#23 := BitVec.extractLsb'_append_eq_left
  have hbyte : (0#23 ++ BitVec.cons fin b).extractLsb' 0 8 = b := by
    rw [BitVec.extractLsb'_append_eq_of_add_le (by decide)]
    exact BitVec.extractLsb'_append_eq_right
  have hfin : (0#23 ++ BitVec.cons fin b).getLsbD 8 = fin := by
    rw [BitVec.getLsbD_append, if_pos (by decide), BitVec.getLsbD_cons, if_pos rfl]
  rw [encode, decode_cmdWord_dec, decodeDecCmd_byte, mustBeZero_eq_ok_iff]
  exact ⟨beq_iff_eq.2 htop, congrArg₂ Instr.decByte hbyte hfin⟩

/-! ### Format UNIT16 (R64) -/

/-- The value of the code unit that a class and its fields stand for. -/
def unitValue : UnitOp → Nat
  | .nul => 0x0000
  | .bel => 0x0007
  | .bs => 0x0008
  | .ovl raw => raw.toNat
  | .ctl ch => ch.toNat
  | .lit sym => sym.toNat
  | .two hi lo => hi.toNat * 128 + lo.toNat
  | .three hi mid lo => hi.toNat * 16384 + mid.toNat * 128 + lo.toNat
  | .high payload => 0xD800 + payload.toNat
  | .low payload => 0xDC00 + payload.toNat

theorem encodeUnit_toNat (op : UnitOp) : (encodeUnit op).toNat = unitValue op := by
  have hascii (x : Sym) : (0#9 ++ x).toNat = x.toNat := by
    rw [toNat_append_eq_add, BitVec.toNat_zero, Nat.zero_mul, Nat.zero_add]
  cases op with
  | nul => rfl
  | bel => rfl
  | bs => rfl
  | ovl raw => exact hascii raw
  | ctl ch => exact hascii ch
  | lit sym => exact hascii sym
  | two hi lo =>
    have hsum : (0#5 ++ hi ++ lo).toNat = (0 * 2 ^ 4 + hi.toNat) * 2 ^ 7 + lo.toNat := by
      rw [toNat_append_eq_add, toNat_append_eq_add, BitVec.toNat_zero]
    rw [unitValue]
    exact hsum.trans (by omega)
  | three hi mid lo =>
    have hsum : (hi ++ mid ++ lo).toNat = (hi.toNat * 2 ^ 7 + mid.toNat) * 2 ^ 7 + lo.toNat := by
      rw [toNat_append_eq_add, toNat_append_eq_add]
    rw [unitValue]
    exact hsum.trans (by omega)
  | high payload => exact toNat_append_eq_add _ payload
  | low payload => exact toNat_append_eq_add _ payload

/-- The range column of R64. -/
def unitRange (n : Nat) : UnitClass → Prop
  | .nul => n = 0x0000
  | .bel => n = 0x0007
  | .bs => n = 0x0008
  | .ctl => 0x0009 ≤ n ∧ n ≤ 0x000D
  | .lit => 0x0020 ≤ n ∧ n ≤ 0x007E
  | .ovl => (0x0001 ≤ n ∧ n ≤ 0x0006) ∨ (0x000E ≤ n ∧ n ≤ 0x001F) ∨ n = 0x007F
  | .two => 0x0080 ≤ n ∧ n ≤ 0x07FF
  | .three => (0x0800 ≤ n ∧ n < 0xD800) ∨ (0xDFFF < n ∧ n ≤ 0xFFFF)
  | .high => 0xD800 ≤ n ∧ n ≤ 0xDBFF
  | .low => 0xDC00 ≤ n ∧ n ≤ 0xDFFF

/-- A unit cut into the fields of a class, whether it is of that class or not. -/
def unitFields (u : CodeUnit) : UnitClass → UnitOp
  | .nul => .nul
  | .bel => .bel
  | .bs => .bs
  | .ctl => .ctl (u.extractLsb' 0 7)
  | .lit => .lit (u.extractLsb' 0 7)
  | .ovl => .ovl (u.extractLsb' 0 7)
  | .two => .two (u.extractLsb' 7 4) (u.extractLsb' 0 7)
  | .three => .three (u.extractLsb' 14 2) (u.extractLsb' 7 7) (u.extractLsb' 0 7)
  | .high => .high (u.extractLsb' 0 10)
  | .low => .low (u.extractLsb' 0 10)

theorem unitFields_cls (u : CodeUnit) (c : UnitClass) : (unitFields u c).cls = c := by
  cases c <;> rfl

/-- Every unit lies in the range of some class and decodes to its fields. -/
theorem decodeUnit_cases (u : CodeUnit) : ∃ c, unitRange u.toNat c ∧ decodeUnit u = unitFields u c := by
  simp only [decodeUnit]
  split_ifs with hnul hbel hbs hctl hlit hovl htwo hhigh hlow
  · exact ⟨.nul, hnul, rfl⟩
  · exact ⟨.bel, hbel, rfl⟩
  · exact ⟨.bs, hbs, rfl⟩
  · exact ⟨.ctl, hctl, rfl⟩
  · exact ⟨.lit, hlit, rfl⟩
  · exact ⟨.ovl, by simp only [unitRange]; omega, rfl⟩
  · exact ⟨.two, ⟨Nat.le_of_not_lt hovl, htwo⟩, rfl⟩
  · exact ⟨.high, hhigh, rfl⟩
  · exact ⟨.low, hlow, rfl⟩
  · exact ⟨.three, by simp only [unitRange]; omega, rfl⟩

theorem unitRange_decodeUnit (u : CodeUnit) : unitRange u.toNat (decodeUnit u).cls := by
  obtain ⟨c, hrange, hdecode⟩ := decodeUnit_cases u
  rwa [hdecode, unitFields_cls]

/-- The ranges of two classes have no unit in common. -/
theorem unitRange_unique {n : Nat} {c c' : UnitClass} (h : unitRange n c) (h' : unitRange n c') : c = c' := by
  cases c <;> simp only [unitRange] at h <;> cases c' <;> simp only [unitRange] at h'
  any_goals omega
  all_goals rfl

theorem decodeUnit_of_unitRange {u : CodeUnit} {c : UnitClass} (h : unitRange u.toNat c) :
    decodeUnit u = unitFields u c := by
  obtain ⟨c', hrange, hdecode⟩ := decodeUnit_cases u
  rw [hdecode, unitRange_unique hrange h]

/-- The bits that the fields of a class leave out are the same for every unit in its range. -/
theorem unitValue_unitFields {u : CodeUnit} {c : UnitClass} (h : unitRange u.toNat c) :
    unitValue (unitFields u c) = u.toNat := by
  cases c <;> simp only [unitRange] at h <;>
    simp only [unitFields, unitValue, BitVec.extractLsb'_toNat, Nat.shiftRight_eq_div_pow] <;> omega

theorem encodeUnit_decodeUnit (u : CodeUnit) : encodeUnit (decodeUnit u) = u := by
  obtain ⟨c, hrange, hdecode⟩ := decodeUnit_cases u
  apply BitVec.eq_of_toNat_eq
  rw [hdecode, encodeUnit_toNat, unitValue_unitFields hrange]

theorem unitFields_encodeUnit (op : UnitOp) : unitFields (encodeUnit op) op.cls = op := by
  have hfield {start len : Nat} {x : BitVec len} (h : unitValue op / 2 ^ start % 2 ^ len = x.toNat) :
      (encodeUnit op).extractLsb' start len = x :=
    extractLsb'_eq_of_toNat ((encodeUnit_toNat op).symm ▸ h)
  cases op with
  | nul => rfl
  | bel => rfl
  | bs => rfl
  | ovl raw => exact congrArg UnitOp.ovl (hfield (by simp only [unitValue]; omega))
  | ctl ch => exact congrArg UnitOp.ctl (hfield (by simp only [unitValue]; omega))
  | lit sym => exact congrArg UnitOp.lit (hfield (by simp only [unitValue]; omega))
  | two hi lo =>
    have hhi := hfield (start := 7) (x := hi) (by simp only [unitValue]; omega)
    have hlo := hfield (start := 0) (x := lo) (by simp only [unitValue]; omega)
    rw [UnitOp.cls, unitFields, hhi, hlo]
  | three hi mid lo =>
    have hhi := hfield (start := 14) (x := hi) (by simp only [unitValue]; omega)
    have hmid := hfield (start := 7) (x := mid) (by simp only [unitValue]; omega)
    have hlo := hfield (start := 0) (x := lo) (by simp only [unitValue]; omega)
    rw [UnitOp.cls, unitFields, hhi, hmid, hlo]
  | high payload => exact congrArg UnitOp.high (hfield (by simp only [unitValue]; omega))
  | low payload => exact congrArg UnitOp.low (hfield (by simp only [unitValue]; omega))

/-- The operand checks of a class are its range. -/
theorem unitOp_wf_iff (op : UnitOp) : op.toInstr.wf = true ↔ unitRange (unitValue op) op.cls := by
  cases op with
  | two hi lo =>
    simp only [UnitOp.toInstr, Instr.wf, isTwoSymbol, unitRange, UnitOp.cls, unitValue, bne_iff_ne, ne_eq,
      BitVec.toNat_eq, BitVec.ofNat_eq_ofNat, BitVec.toNat_ofNat]
    omega
  | three hi mid lo =>
    simp only [UnitOp.toInstr, Instr.wf, isThreeSymbol, unitRange, UnitOp.cls, unitValue, Bool.and_eq_true,
      Bool.or_eq_true, decide_eq_true_eq]
    omega
  | high payload =>
    simp only [UnitOp.toInstr, Instr.wf, unitRange, UnitOp.cls, unitValue, true_iff]
    omega
  | low payload =>
    simp only [UnitOp.toInstr, Instr.wf, unitRange, UnitOp.cls, unitValue, true_iff]
    omega
  | _ =>
    simp [UnitOp.toInstr, Instr.wf, isOverlongControl, isShiftedControl, isPrintable, unitRange, UnitOp.cls, unitValue,
      or_assoc]

theorem decodeUnit_wf (u : CodeUnit) : (decodeUnit u).toInstr.wf = true := by
  rw [unitOp_wf_iff, ← encodeUnit_toNat, encodeUnit_decodeUnit]
  exact unitRange_decodeUnit u

theorem decodeUnit_encodeUnit {op : UnitOp} (h : op.toInstr.wf = true) : decodeUnit (encodeUnit op) = op := by
  rw [unitOp_wf_iff, ← encodeUnit_toNat] at h
  rw [decodeUnit_of_unitRange h, unitFields_encodeUnit]

theorem encode_unitOp (op : UnitOp) : encode op.toInstr = .unit16 (encodeUnit op) := by
  cases op <;> rfl

theorem decode_encode_unitOp {op : UnitOp} (h : op.toInstr.wf = true) :
    decode (encode op.toInstr) = .ok op.toInstr := by
  rw [encode_unitOp, decode, decodeUnit_encodeUnit h]

/-! ### Format SYM7 (R65, R77) -/

/-- Whether a class of symbols is met inside a code point: the trailer alone (R77). -/
def insideOf : SymOp → Bool
  | .trail _ => true
  | _ => false

theorem encodeSym_decodeSym : ∀ (inside : Bool) (x : Sym), encodeSym (decodeSym inside x) = x := by
  decide

theorem insideOf_decodeSym : ∀ (inside : Bool) (x : Sym), insideOf (decodeSym inside x) = inside := by
  decide

theorem decodeSym_wf : ∀ (inside : Bool) (x : Sym), (decodeSym inside x).toInstr.wf = true := by
  decide

theorem decodeSym_encodeSym {op : SymOp} (h : op.toInstr.wf = true) :
    decodeSym (insideOf op) (encodeSym op) = op := by
  cases op with
  | lead4 => rfl
  | bs => rfl
  | bel => rfl
  | nul => rfl
  | trail payload => rfl
  | lead2 hi => revert hi; decide
  | lead3 hi => revert hi; decide
  | invalid sym => revert sym; decide
  | ctl sym => revert sym; decide
  | lit sym => revert sym; decide

theorem encode_symOp (op : SymOp) : encode op.toInstr = .sym7 (insideOf op) (encodeSym op) := by
  cases op <;> rfl

theorem decode_encode_symOp {op : SymOp} (h : op.toInstr.wf = true) :
    decode (encode op.toInstr) = .ok op.toInstr := by
  rw [encode_symOp, decode, decodeSym_encodeSym h]

/-! ### Format PBYTE8 (R67) -/

theorem pbyteHb_encodePbyte (hb : Bool) (sym : Sym) : pbyteHb (encodePbyte hb sym) = hb := by
  rw [pbyteHb, encodePbyte, BitVec.getLsbD_cons, if_pos rfl]

theorem pbyteSym_encodePbyte (hb : Bool) (sym : Sym) : pbyteSym (encodePbyte hb sym) = sym :=
  BitVec.extractLsb'_append_eq_right

theorem encodePbyte_pbyteHb_pbyteSym : ∀ b : Byte, encodePbyte (pbyteHb b) (pbyteSym b) = b := by
  decide

/-! ### The round trips -/

/-- Settles O1: the commands by their fields, the classes of units by their ranges (`decodeUnit_encodeUnit`), the
classes of symbols by `decodeSym_encodeSym`. -/
theorem decodeInvertsEncode : Obligations.DecodeInvertsEncode := by
  intro i h
  cases i with
  | encBegin => rfl
  | encUnit u => exact decode_encode_encUnit u
  | encEnd => rfl
  | decPrepare n => exact decode_encode_decPrepare n
  | decByte b fin => exact decode_encode_decByte b fin
  | decFinish => rfl
  | eNul => exact decode_encode_unitOp (op := .nul) h
  | eOvl raw => exact decode_encode_unitOp (op := .ovl raw) h
  | eBel => exact decode_encode_unitOp (op := .bel) h
  | eBs => exact decode_encode_unitOp (op := .bs) h
  | eCtl ch => exact decode_encode_unitOp (op := .ctl ch) h
  | eLit sym => exact decode_encode_unitOp (op := .lit sym) h
  | eTwo hi lo => exact decode_encode_unitOp (op := .two hi lo) h
  | eThree hi mid lo => exact decode_encode_unitOp (op := .three hi mid lo) h
  | eHigh payload => exact decode_encode_unitOp (op := .high payload) h
  | eLow payload => exact decode_encode_unitOp (op := .low payload) h
  | dLead2 hi => exact decode_encode_symOp (op := .lead2 hi) h
  | dLead3 hi => exact decode_encode_symOp (op := .lead3 hi) h
  | dLead4 => exact decode_encode_symOp (op := .lead4) h
  | dInvalid sym => exact decode_encode_symOp (op := .invalid sym) h
  | dCtl sym => exact decode_encode_symOp (op := .ctl sym) h
  | dBs => exact decode_encode_symOp (op := .bs) h
  | dBel => exact decode_encode_symOp (op := .bel) h
  | dLit sym => exact decode_encode_symOp (op := .lit sym) h
  | dNul => exact decode_encode_symOp (op := .nul) h
  | dTrail payload => exact decode_encode_symOp (op := .trail payload) h
  | pbyte hb sym => rw [encode, decode, pbyteHb_encodePbyte, pbyteSym_encodePbyte]

/-- Settles O2: one lemma for each format and, for command words, each block. -/
theorem encodeInvertsDecode : Obligations.EncodeInvertsDecode := by
  intro item i h
  cases item with
  | cmd blk w =>
    rw [← cmdWord_cmdOp_cmdArg w]
    cases blk with
    | enc => exact encode_of_decodeEncCmd h
    | dec => exact encode_of_decodeDecCmd h
  | unit16 u =>
    cases h
    exact ⟨decodeUnit_wf u, by rw [encode_unitOp, encodeUnit_decodeUnit]⟩
  | sym7 inside x =>
    cases h
    exact ⟨decodeSym_wf inside x, by rw [encode_symOp, insideOf_decodeSym, encodeSym_decodeSym]⟩
  | pbyte8 b =>
    cases h
    exact ⟨rfl, by rw [encode, encodePbyte_pbyteHb_pbyteSym]⟩

/-- Settles O3, by evaluation of the eight words. -/
theorem sampleWordsDecode : Obligations.SampleWordsDecode := by
  unfold Obligations.SampleWordsDecode
  decide

/-! ### Reserved command words (R63) -/

/-- A step with a word in front that does not decode is refused by the decoder's name. -/
theorem step_reserved {s : State} {blk : Block} {w : CmdWord} {rest : List HostEvent} {why : DecodeError}
    (hpending : s.pending = .cmd blk w :: rest) (h : decodeCmd blk w = .error why) :
    step s = .refused (.reservedEncoding why) := by
  rw [step_of_pending hpending, takeEvent, takeCommand, decode, h]

theorem decodeCmd_enc {w : CmdWord} {op : BitVec 4} (h : (cmdOp w).toNat = op.toNat) :
    decodeCmd .enc w = decodeEncCmd op (cmdArg w) := by
  rw [decodeCmd, BitVec.eq_of_toNat_eq h]

theorem decodeCmd_dec {w : CmdWord} {op : BitVec 4} (h : (cmdOp w).toNat = op.toNat) :
    decodeCmd .dec w = decodeDecCmd op (cmdArg w) := by
  rw [decodeCmd, BitVec.eq_of_toNat_eq h]

/-- Settles O4: the step passes on what the decoder says (`step_reserved`), and the decoder is given op by op. -/
theorem reservedCommandWordsAreRefused : Obligations.ReservedCommandWordsAreRefused := by
  intro s rest w
  refine ⟨fun hpending => ⟨fun ⟨h0, h1, h2⟩ => ?_, fun ⟨hop, harg⟩ => ?_, fun ⟨hop, harg⟩ => ?_⟩,
    fun hpending => ⟨fun ⟨h8, h9, h10⟩ => ?_, fun ⟨hop, harg⟩ => ?_, fun ⟨hop, harg⟩ => ?_⟩⟩ <;>
    refine step_reserved hpending ?_
  · exact decodeEncCmd_reserved h0 h1 h2 _
  · rcases hop with hop | hop
    · rw [decodeCmd_enc (op := 0) hop, decodeEncCmd_begin, beq_zero_of_toNat_ne harg, mustBeZero_false]
    · rw [decodeCmd_enc (op := 2) hop, decodeEncCmd_end, beq_zero_of_toNat_ne harg, mustBeZero_false]
  · rw [decodeCmd_enc (op := 1) hop, decodeEncCmd_unit,
      extractLsb'_top_beq_zero_of_le (start := 16) (len := 16) harg, mustBeZero_false]
  · exact decodeDecCmd_reserved h8 h9 h10 _
  · rw [decodeCmd_dec (op := 10) hop, decodeDecCmd_finish, beq_zero_of_toNat_ne harg, mustBeZero_false]
  · rw [decodeCmd_dec (op := 9) hop, decodeDecCmd_byte,
      extractLsb'_top_beq_zero_of_le (start := 9) (len := 23) harg, mustBeZero_false]

/-! ### The rows of the opcode table

A row is an aligned block of values. The rows of a class that follow one another cover a range of it, so every value
meets a row of its class; and two rows differ in a bit that both look at, so it meets no other. -/

section
variable {w : Nat} {cls : Type}

/-- How many low bits a row leaves open, if its mask keeps the bits above them. -/
def openBits (r : Row w cls) : Nat := Nat.log2 (2 ^ w - r.mask.toNat)

/-- The mask keeps exactly the bits above the open ones, and the pattern is 0 in the open ones. -/
def isBlock (r : Row w cls) : Bool :=
  r.mask == BitVec.allOnes w <<< openBits r && r.pat.toNat % 2 ^ openBits r == 0

theorem matches_of_isBlock {r : Row w cls} {v : BitVec w} (h : isBlock r = true) (hlo : r.pat.toNat ≤ v.toNat)
    (hhi : v.toNat < r.pat.toNat + 2 ^ openBits r) : r.matches v = true := by
  simp only [isBlock, Bool.and_eq_true, beq_iff_eq] at h
  obtain ⟨hmask, halign⟩ := h
  have hpat : r.pat.toNat / 2 ^ openBits r * 2 ^ openBits r = r.pat.toNat :=
    Nat.div_mul_cancel (Nat.dvd_of_mod_eq_zero halign)
  have hdiv : v.toNat / 2 ^ openBits r = r.pat.toNat / 2 ^ openBits r := by
    refine le_antisymm (Nat.le_of_lt_succ (Nat.div_lt_of_lt_mul ?_)) (Nat.div_le_div_right hlo)
    rwa [Nat.mul_succ, mul_comm, hpat]
  have hlow : v &&& r.mask = v >>> openBits r <<< openBits r := by rw [hmask, BitVec.shiftLeft_ushiftRight]
  rw [Row.matches, beq_iff_eq, hlow]
  apply BitVec.eq_of_toNat_eq
  rw [BitVec.toNat_shiftLeft, BitVec.toNat_ushiftRight, Nat.shiftRight_eq_div_pow, Nat.shiftLeft_eq, hdiv, hpat,
    Nat.mod_eq_of_lt r.pat.isLt]

/-- The first rows are blocks that follow one another from a value on and reach `hi`. -/
def tiles (hi : Nat) : Nat → List (Row w cls) → Bool
  | lo, [] => hi ≤ lo
  | lo, r :: rest => hi ≤ lo || (isBlock r && r.pat.toNat == lo && tiles hi (lo + 2 ^ openBits r) rest)

theorem exists_matches_of_tiles {rows : List (Row w cls)} {lo hi : Nat} {v : BitVec w} (h : tiles hi lo rows = true)
    (hlo : lo ≤ v.toNat) (hhi : v.toNat < hi) : ∃ r ∈ rows, r.matches v = true := by
  induction rows generalizing lo with
  | nil =>
    have hle : hi ≤ lo := by simpa [tiles] using h
    omega
  | cons r rest ih =>
    simp only [tiles, Bool.or_eq_true, Bool.and_eq_true, decide_eq_true_eq, beq_iff_eq] at h
    rcases h with hle | ⟨⟨hblock, rfl⟩, hrest⟩
    · omega
    · rcases Nat.lt_or_ge v.toNat (r.pat.toNat + 2 ^ openBits r) with hin | hout
      · exact ⟨r, List.mem_cons_self, matches_of_isBlock hblock hlo hin⟩
      · obtain ⟨r', hmem, hmatch⟩ := ih hrest hout
        exact ⟨r', List.mem_cons_of_mem r hmem, hmatch⟩

/-- The rows of a class from a value on. -/
def rowsFrom [DecidableEq cls] (rows : List (Row w cls)) (c : cls) (lo : Nat) : List (Row w cls) :=
  rows.filter fun r => r.cls = c ∧ lo ≤ r.pat.toNat

theorem exists_row_of_range [DecidableEq cls] {rows : List (Row w cls)} {c : cls} {lo hi : Nat} {v : BitVec w}
    (h : tiles hi lo (rowsFrom rows c lo) = true) (hlo : lo ≤ v.toNat) (hhi : v.toNat < hi) :
    ∃ r ∈ rows, r.matches v = true ∧ r.cls = c := by
  obtain ⟨r, hfrom, hmatch⟩ := exists_matches_of_tiles h hlo hhi
  simp only [rowsFrom, List.mem_filter, decide_eq_true_eq] at hfrom
  obtain ⟨hmem, hcls, -⟩ := hfrom
  exact ⟨r, hmem, hmatch, hcls⟩

/-- Two rows differ in a bit that both look at. -/
def clash (r r' : Row w cls) : Bool := r.pat &&& r'.mask != r'.pat &&& r.mask

theorem clash_comm (r r' : Row w cls) : clash r r' = clash r' r := bne_comm

theorem not_matches_of_clash {r r' : Row w cls} {v : BitVec w} (h : clash r r' = true) (hr : r.matches v = true) :
    r'.matches v = false := by
  rw [Row.matches, beq_iff_eq] at hr
  rw [Row.matches, beq_eq_false_iff_ne]
  intro hr'
  rw [clash, bne_iff_ne, ← hr, ← hr', BitVec.and_assoc, BitVec.and_assoc, BitVec.and_comm r.mask] at h
  exact h rfl

theorem filter_matches_eq_singleton {rows : List (Row w cls)} {r : Row w cls} {v : BitVec w}
    (hclash : rows.Pairwise fun r r' => clash r r' = true) (hmem : r ∈ rows) (hr : r.matches v = true) :
    rows.filter (·.matches v) = [r] := by
  induction rows with
  | nil => cases hmem
  | cons a rest ih =>
    obtain ⟨hfirst, hrest⟩ := List.pairwise_cons.1 hclash
    rcases List.mem_cons.1 hmem with rfl | hin
    · have hnone : rest.filter (·.matches v) = [] :=
        List.filter_eq_nil_iff.2 fun b hb => Bool.not_eq_true _ ▸ not_matches_of_clash (hfirst b hb) hr
      rw [List.filter_cons, if_pos hr, hnone]
    · have ha : a.matches v = false := not_matches_of_clash (clash_comm a r ▸ hfirst r hin) hr
      rw [List.filter_cons, if_neg (Bool.not_eq_true _ ▸ ha), ih hrest hin]

end

theorem unitRows_clash : unitRows.Pairwise fun r r' => clash r r' = true := by
  decide

/-- The rows of each class tile its ranges. -/
theorem exists_unitRow {u : CodeUnit} {c : UnitClass} (h : unitRange u.toNat c) :
    ∃ r ∈ unitRows, r.matches u = true ∧ r.cls = c := by
  cases c with
  | nul => exact exists_row_of_range (by decide) h.ge (Nat.lt_succ_of_le h.le)
  | bel => exact exists_row_of_range (by decide) h.ge (Nat.lt_succ_of_le h.le)
  | bs => exact exists_row_of_range (by decide) h.ge (Nat.lt_succ_of_le h.le)
  | ctl => exact exists_row_of_range (by decide) h.1 (Nat.lt_succ_of_le h.2)
  | lit => exact exists_row_of_range (by decide) h.1 (Nat.lt_succ_of_le h.2)
  | ovl =>
    rcases h with ⟨hlo, hhi⟩ | ⟨hlo, hhi⟩ | hdel
    · exact exists_row_of_range (by decide) hlo (Nat.lt_succ_of_le hhi)
    · exact exists_row_of_range (by decide) hlo (Nat.lt_succ_of_le hhi)
    · exact exists_row_of_range (by decide) hdel.ge (Nat.lt_succ_of_le hdel.le)
  | two => exact exists_row_of_range (by decide) h.1 (Nat.lt_succ_of_le h.2)
  | three =>
    rcases h with ⟨hlo, hhi⟩ | ⟨hlo, hhi⟩
    · exact exists_row_of_range (by decide) hlo hhi
    · exact exists_row_of_range (by decide) hlo (Nat.lt_succ_of_le hhi)
  | high => exact exists_row_of_range (by decide) h.1 (Nat.lt_succ_of_le h.2)
  | low => exact exists_row_of_range (by decide) h.1 (Nat.lt_succ_of_le h.2)

/-- Settles O5: a row of the unit's class matches (`exists_unitRow`), and no other row does (`unitRows_clash`). -/
theorem unitRowsPartitionTheUnits : Obligations.UnitRowsPartitionTheUnits := by
  intro u
  obtain ⟨r, hmem, hmatch, hcls⟩ := exists_unitRow (unitRange_decodeUnit u)
  rw [filter_matches_eq_singleton unitRows_clash hmem hmatch, List.map_singleton, hcls]

/-- Settles O6, by evaluation of the 128 symbols. -/
theorem symbolRowsPartitionTheSymbols : Obligations.SymbolRowsPartitionTheSymbols := by
  unfold Obligations.SymbolRowsPartitionTheSymbols
  decide

/-! ### A run, event by event (R6, R56) -/

theorem inCall_encOutcome_setPending (p : Phase) (s : State) (r : Result Enc) (l : List HostEvent) :
    inCall p (s.setPending l) (encOutcome (s.setPending l) r) =
      mapNext (·.setPending l) (inCall p s (encOutcome s r)) := by
  have hr : encOutcome (s.setPending l) r = mapNext (·.setPending l) (encOutcome s r) := by cases r <;> rfl
  rw [hr]
  exact inCall_mapNext p (·.setPending l) s _

theorem inCall_decOutcome_setPending (p : Phase) (s : State) (r : Result Dec) (l : List HostEvent) :
    inCall p (s.setPending l) (decOutcome (s.setPending l) r) =
      mapNext (·.setPending l) (inCall p s (decOutcome s r)) := by
  have hr : decOutcome (s.setPending l) r = mapNext (·.setPending l) (decOutcome s r) := by cases r <;> rfl
  rw [hr]
  exact inCall_mapNext p (·.setPending l) s _

theorem execEncEnd_setPending (s : State) (l : List HostEvent) :
    execEncEnd (s.setPending l) = mapNext (·.setPending l) (execEncEnd s) := by
  have hr (r : Result Enc) :
      encOutcome (s.setPending l).drawn r = mapNext (·.setPending l) (encOutcome s.drawn r) := by cases r <;> rfl
  rw [execEncEnd, hr]
  exact inCall_mapNext s.enc.phase (·.setPending l) s _

/-- An instruction does not see what the host does next. -/
theorem exec_setPending (i : Instr) (s : State) (l : List HostEvent) :
    exec i (s.setPending l) = mapNext (·.setPending l) (exec i s) := by
  cases hi : isEncInstr i with
  | true =>
    rcases isEncInstr_cases hi with rfl | hunit | rfl
    · rfl
    · obtain ⟨op, hexec⟩ := exec_of_isUnitInstr hunit
      rw [hexec, hexec]
      exact inCall_encOutcome_setPending _ s _ l
    · exact execEncEnd_setPending s l
  | false =>
    rcases not_isEncInstr_cases hi with ⟨n, rfl⟩ | hbyte | rfl
    · rfl
    · obtain ⟨op, fin, hexec⟩ := exec_of_isByteInstr hbyte
      rw [hexec, hexec]
      exact inCall_decOutcome_setPending _ s _ l
    · exact inCall_decOutcome_setPending _ s _ l

/-- An event takes effect alike whatever comes after it. -/
theorem takeEvent_setPending (ev : HostEvent) (s : State) (l : List HostEvent) :
    takeEvent ev (s.setPending l) = mapNext (·.setPending l) (takeEvent ev s) := by
  cases ev with
  | cmd blk w =>
    rw [takeEvent, takeEvent, takeCommand, takeCommand]
    cases decode (.cmd blk w) with
    | ok i => exact exec_setPending i s l
    | error why => rfl
  | rst blk => cases blk <;> rfl
  | readReg blk sel => cases blk <;> rfl
  | readBuf blk idx => cases blk <;> rfl

theorem thenOut_mapNext {β : Type} (o : Out) (f : State → State) (g : State → Host.Outcome β Fault Refusal) :
    thenOut (mapNext f o) g = thenOut o fun s => g (f s) := by
  cases o <;> rfl

/-- A run over events is the first event and then the run over the others. -/
theorem runEvents_cons_eq (ev : HostEvent) (events : List HostEvent) (s : State) :
    runEvents (ev :: events) s = thenOut (takeEvent ev s) (runEvents events) := by
  rw [runEvents_cons, takeEvent_setPending]
  exact thenOut_mapNext (takeEvent ev s) _ _

theorem runEvents_setPending (events l : List HostEvent) (s : State) :
    runEvents events (s.setPending l) = runEvents events s := rfl

/-- A run may be cut anywhere. -/
theorem runEvents_append (a b : List HostEvent) (s : State) :
    runEvents (a ++ b) s = thenOut (runEvents a s) (runEvents b) := by
  induction a generalizing s with
  | nil => exact (runEvents_setPending b [] s).symm
  | cons ev a ih =>
    rw [List.cons_append, runEvents_cons_eq, runEvents_cons_eq, thenOut_assoc]
    congr 1
    funext t
    exact ih t

theorem takeEvent_eventOf_decByte (b : Byte) (fin : Bool) :
    takeEvent (eventOf (.decByte b fin)) = exec (.decByte b fin) :=
  funext (takeEvent_cmd_of_decode (decode_encode_decByte b fin))

theorem runEvents_prepareCommands (n : Reg32) (s : State) :
    runEvents (prepareCommands n) s = .next ((s.setDec (decOpened n)).setPending []) := by
  have htake : takeEvent (eventOf (.decPrepare n)) s = exec (.decPrepare n) s :=
    takeEvent_cmd_of_decode (decode_encode_decPrepare n) s
  rw [prepareCommands, runEvents_cons_eq, htake]
  rfl

theorem runEvents_finishCommands (s : State) :
    runEvents finishCommands s = thenOut (exec .decFinish s) (runEvents []) :=
  runEvents_cons_eq (eventOf .decFinish) [] s

/-! ### The commands of a chunk (R92) -/

theorem chunkCommands_false (chunk : List Byte) :
    chunkCommands chunk false = chunk.map fun b => eventOf (.decByte b false) := by
  induction chunk with
  | nil => rfl
  | cons b rest ih =>
    cases rest with
    | nil => rfl
    | cons c rest => exact congrArg (eventOf (.decByte b false) :: ·) ih

/-- The mark of a final chunk falls on its last part that holds a byte. -/
theorem chunkCommands_append {last : List Byte} (h : last ≠ []) (chunk : List Byte) (final : Bool) :
    chunkCommands (chunk ++ last) final = chunkCommands chunk false ++ chunkCommands last final := by
  rw [chunkCommands_false]
  induction chunk with
  | nil => rfl
  | cons b rest ih =>
    rw [List.cons_append, chunkCommands, ih]
    · rfl
    · simp [h]

theorem flatten_chunkCommands (chunks : List (List Byte)) :
    (chunks.map fun chunk => chunkCommands chunk false).flatten = chunkCommands chunks.flatten false := by
  simp only [chunkCommands_false, List.map_flatten]

theorem mem_chunkCommands {chunk : List Byte} {final : Bool} {ev : HostEvent} (h : ev ∈ chunkCommands chunk final) :
    ∃ b fin, ev = eventOf (.decByte b fin) := by
  rcases List.eq_nil_or_concat chunk with rfl | ⟨front, b, rfl⟩
  · cases h
  · rw [List.concat_eq_append, chunkCommands_append (by simp), chunkCommands_false, List.mem_append, List.mem_map] at h
    rcases h with ⟨c, -, rfl⟩ | h
    · exact ⟨c, false, rfl⟩
    · exact ⟨b, final, List.mem_singleton.1 h⟩

/-! ### A decoding call as one run (R91, R92) -/

/-- A decoding call by its hint and the commands of its bytes. -/
def decodeRun (n : Reg32) (bytes : List HostEvent) (s : State) : CallOut (List CodeUnit) :=
  thenOut (runEvents (prepareCommands n ++ (bytes ++ finishCommands)) s) fun t => .next (readDecResult t)

theorem decodeRun_eq_opened (n : Reg32) (bytes : List HostEvent) (s : State) :
    decodeRun n bytes s =
      thenOut (runEvents (bytes ++ finishCommands) (s.setDec (decOpened n))) fun t => .next (readDecResult t) := by
  rw [decodeRun, runEvents_append, runEvents_prepareCommands, thenOut_next, runEvents_setPending]

theorem runEvents_then_finishDecode (events : List HostEvent) (s : State) :
    thenOut (runEvents events s) finishDecode =
      thenOut (runEvents (events ++ finishCommands) s) fun t => .next (readDecResult t) := by
  rw [runEvents_append, thenOut_assoc]
  rfl

theorem decodeCall_eq_decodeRun (bytes : List Byte) (n : Reg32) (s : State) :
    decodeCall bytes n s = decodeRun n (chunkCommands (bytes.take n.toNat) true) s := by
  rw [decodeRun, runEvents_append, thenOut_assoc]
  simp only [← runEvents_then_finishDecode]
  rfl

/-- The chunks before the last are one run of their bytes. -/
theorem partialChunks_then_runEvents {β : Type} (chunks : List (List Byte)) (events : List HostEvent) (s : State)
    (f : State → Host.Outcome β Fault Refusal) :
    thenOut (partialChunks chunks s) (fun t => thenOut (runEvents events t) f) =
      thenOut (runEvents (chunkCommands chunks.flatten false ++ events) s) f := by
  rw [← flatten_chunkCommands]
  induction chunks generalizing s with
  | nil => rfl
  | cons chunk rest ih =>
    rw [partialChunks, thenOut_assoc, List.map_cons, List.flatten_cons, List.append_assoc, runEvents_append,
      thenOut_assoc]
    simp only [ih]
    rfl

theorem streamDecode_eq_decodeRun (n : Reg32) (chunks : List (List Byte)) (last : List Byte) (s : State) :
    streamDecode n chunks last s =
      decodeRun n (chunkCommands chunks.flatten false ++ chunkCommands last true) s := by
  rw [decodeRun, runEvents_append, thenOut_assoc]
  simp only [← runEvents_then_finishDecode, ← partialChunks_then_runEvents]
  rfl

/-! ### Another hint (R151, log entry 12)

Nothing reads the hint, and every way out of an open call clears it. So changing it in an open call commutes with each
operation of a byte. -/

/-- The decoder with another hint if its call is open. -/
def Dec.hint (n : Reg32) (d : Dec) : Dec := { d with expect := if d.phase = .active then n else d.expect }

@[simp] theorem Dec.hint_rem (n : Reg32) (d : Dec) : (d.hint n).rem = d.rem := rfl
@[simp] theorem Dec.hint_stage (n : Reg32) (d : Dec) : (d.hint n).stage = d.stage := rfl
@[simp] theorem Dec.hint_fin (n : Reg32) (d : Dec) : (d.hint n).fin = d.fin := rfl
@[simp] theorem Dec.hint_bcnt (n : Reg32) (d : Dec) : (d.hint n).bcnt = d.bcnt := rfl
@[simp] theorem Dec.hint_len (n : Reg32) (d : Dec) : (d.hint n).len = d.len := rfl

theorem Dec.hint_of_not_active {d : Dec} (h : d.phase ≠ .active) (n : Reg32) : d.hint n = d := by
  rw [Dec.hint, if_neg h]

/-- A result with the state that it leaves changed. -/
def Result.map {α : Type} (f : α → α) : Result α → Result α
  | .ok a => .ok (f a)
  | .raised a => .raised (f a)
  | .refused why => .refused why

/-- A change that commutes with the rest of the pseudocode may be made after it. -/
theorem Result.map_andThen {α : Type} {f : α → α} {g : α → Result α} (hg : ∀ a, g (f a) = (g a).map f)
    (r : Result α) : (r.map f).andThen g = (r.andThen g).map f := by
  cases r with
  | ok a => exact hg a
  | raised a => rfl
  | refused why => rfl

theorem emitUnit_hint (n : Reg32) (cap : Option Nat) (w : CodeUnit) (d : Dec) :
    emitUnit cap w (d.hint n) = (emitUnit cap w d).map (Dec.hint n) := by
  rw [emitUnit, emitUnit, Dec.hint_len]
  cases overLimit cap (d.len.toNat + 1) <;> rfl

theorem emitCodePoint_hint (n : Reg32) (cap : Option Nat) (c : Reg32) (stolen : Bool) (d : Dec) :
    emitCodePoint cap c stolen (d.hint n) = (emitCodePoint cap c stolen d).map (Dec.hint n) := by
  unfold emitCodePoint
  split_ifs
  · exact emitUnit_hint n cap _ d
  · rw [emitUnit_hint, Result.map_andThen (emitUnit_hint n cap _)]
  · rfl

theorem symTrail_hint (n : Reg32) (cap : Option Nat) (x : Sym) (stolen : Bool) (d : Dec) :
    symTrail cap x stolen (d.hint n) = (symTrail cap x stolen d).map (Dec.hint n) := by
  by_cases hrem : d.rem = 1
  · rw [symTrail, symTrail, Dec.hint_rem, if_pos hrem, if_pos hrem]
    exact emitCodePoint_hint n cap _ stolen { d with ph := false, rem := 0, cp := 0 }
  · rw [symTrail, symTrail, Dec.hint_rem, if_neg hrem, if_neg hrem]
    rfl

theorem symAct_hint (n : Reg32) (cap : Option Nat) (op : SymOp) (stolen : Bool) (d : Dec) :
    symAct cap op stolen (d.hint n) = (symAct cap op stolen d).map (Dec.hint n) := by
  cases op with
  | lead2 h => rfl
  | lead3 h => rfl
  | lead4 => rfl
  | invalid sym => rfl
  | trail payload => exact symTrail_hint n cap payload stolen d
  | _ => exact emitUnit_hint n cap _ { d with ph := false }

theorem processSymbol_hint (n : Reg32) (cap : Option Nat) (x : Sym) (stolen : Bool) (d : Dec) :
    processSymbol cap x stolen (d.hint n) = (processSymbol cap x stolen d).map (Dec.hint n) :=
  symAct_hint n cap (decodeSym (d.rem != 0) x) stolen d

theorem deliverStolen_hint (n : Reg32) (cap : Option Nat) (d : Dec) :
    deliverStolen cap (d.hint n) = (deliverStolen cap d).map (Dec.hint n) := by
  by_cases hstage : d.stage = 7
  · rw [deliverStolen, deliverStolen, Dec.hint_stage, if_pos hstage, if_pos hstage]
    exact processSymbol_hint n cap _ true { d with stolen := 0, stage := 0 }
  · rw [deliverStolen, deliverStolen, Dec.hint_stage, if_neg hstage, if_neg hstage]
    rfl

theorem countByte_hint (n : Reg32) (fin : Bool) (d : Dec) :
    countByte fin (d.hint n) = (countByte fin d).map (Dec.hint n) := by
  by_cases hfull : d.bcnt.toNat = lenMax
  · rw [countByte, countByte, Dec.hint_bcnt, if_pos hfull, if_pos hfull]
    rfl
  · rw [countByte, countByte, Dec.hint_bcnt, if_neg hfull, if_neg hfull]
    rfl

theorem acceptByte_hint (n : Reg32) (cap : Option Nat) (hb fin : Bool) (x : Sym) (d : Dec) :
    acceptByte cap hb fin (processSymbol cap x false) (d.hint n) =
      (acceptByte cap hb fin (processSymbol cap x false) d).map (Dec.hint n) := by
  have hdirect : processSymbol cap x false (gatherBit hb (d.hint n)) =
      (processSymbol cap x false (gatherBit hb d)).map (Dec.hint n) := processSymbol_hint n cap x false (gatherBit hb d)
  cases hfin : d.fin with
  | true =>
    rw [acceptByte, acceptByte, Dec.hint_fin, if_pos hfin, if_pos hfin]
    rfl
  | false =>
    rw [acceptByte, acceptByte, Dec.hint_fin, hfin, if_neg Bool.false_ne_true, if_neg Bool.false_ne_true, unpackByte,
      unpackByte, hdirect, Result.map_andThen (deliverStolen_hint n cap), Result.map_andThen (countByte_hint n fin)]

/-- The machine with another hint in its decoder. -/
def State.hint (n : Reg32) (s : State) : State := s.setDec (s.dec.hint n)

theorem State.hint_of_not_active {s : State} (h : s.dec.phase ≠ .active) (n : Reg32) : s.hint n = s := by
  rw [State.hint, Dec.hint_of_not_active h]
  rfl

theorem decOutcome_hint (n : Reg32) (s : State) (r : Result Dec) :
    decOutcome (s.hint n) (r.map (Dec.hint n)) = mapNext (State.hint n) (decOutcome s r) := by
  cases r <;> rfl

theorem exec_decByte_hint (n : Reg32) (b : Byte) (fin : Bool) (s : State) :
    exec (.decByte b fin) (s.hint n) = mapNext (State.hint n) (exec (.decByte b fin) s) := by
  have hcommand : decOutcome (s.hint n)
      (acceptByte s.caps.decOut (pbyteHb b) fin (processSymbol s.caps.decOut (pbyteSym b) false) (s.dec.hint n)) =
      mapNext (State.hint n) (decOutcome s
        (acceptByte s.caps.decOut (pbyteHb b) fin (processSymbol s.caps.decOut (pbyteSym b) false) s.dec)) := by
    rw [acceptByte_hint, decOutcome_hint]
  exact (congrArg (inCall s.dec.phase (s.hint n)) hcommand).trans (inCall_mapNext _ _ s _)

/-! ### The end of a call sees neither the hint nor the mark of the final byte (R151, R156, R185) -/

/-- What `DEC_FINISH` leaves depends on the decoder through `finishCommand` alone. -/
theorem exec_decFinish_congr {s : State} {d d' : Dec} (hp : d.phase = .active) (hp' : d'.phase = .active)
    (h : finishCommand d' = finishCommand d) : exec .decFinish (s.setDec d') = exec .decFinish (s.setDec d) := by
  have hexec {e : Dec} (he : e.phase = .active) :
      exec .decFinish (s.setDec e) = decOutcome (s.setDec e) (finishCommand e) := inCall_active he _ _
  rw [hexec hp, hexec hp', h]
  cases finishCommand d <;> rfl

theorem exec_decFinish_hint (n : Reg32) (s : State) : exec .decFinish (s.hint n) = exec .decFinish s := by
  by_cases hp : s.dec.phase = .active
  · exact exec_decFinish_congr (s := s) (d' := s.dec.hint n) hp hp rfl
  · rw [State.hint_of_not_active hp]

/-- The symbols of a byte leave its call open if they go on. -/
theorem phase_of_unpacked {cap : Option Nat} {hb : Bool} {x : Sym} {d d' : Dec}
    (h : (processSymbol cap x false (gatherBit hb d)).andThen (deliverStolen cap) = .ok d') : d'.phase = d.phase := by
  obtain ⟨d1, hdirect, hstolen⟩ := Result.andThen_ok h
  obtain ⟨hphase, -⟩ := processSymbol_frame hdirect
  rw [(deliverStolen_frame hstolen).1, hphase, gatherBit_phase]

theorem exec_decByte_after_fin {s : State} (hp : s.dec.phase = .active) (hfin : s.dec.fin = true) (b : Byte)
    (fin : Bool) : exec (.decByte b fin) s = .refused .byteAfterFin := by
  rw [exec, execDecByte, byteCommand, inCall_active hp, acceptByte, if_pos hfin, decOutcome_refused]

theorem countByte_then_finish {s : State} {d : Dec} (hp : d.phase = .active) :
    thenOut (decOutcome s (countByte true d)) (exec .decFinish) =
      thenOut (decOutcome s (countByte false d)) (exec .decFinish) := by
  rw [countByte, countByte]
  split_ifs
  · rfl
  · exact exec_decFinish_congr (d := { d with bcnt := d.bcnt + 1, fin := false }) hp hp rfl

/-- Whether the last byte is marked as the final one makes no difference after `DEC_FINISH`. -/
theorem exec_decByte_then_finish (b : Byte) (s : State) :
    thenOut (exec (.decByte b true) s) (exec .decFinish) = thenOut (exec (.decByte b false) s) (exec .decFinish) := by
  cases hp : s.dec.phase with
  | active =>
    cases hfin : s.dec.fin with
    | true => rw [exec_decByte_after_fin hp hfin, exec_decByte_after_fin hp hfin]
    | false =>
      rw [exec_decByte_active hp hfin, exec_decByte_active hp hfin, unpackByte, unpackByte]
      cases h : (processSymbol s.caps.decOut (pbyteSym b) false (gatherBit (pbyteHb b) s.dec)).andThen
          (deliverStolen s.caps.decOut) with
      | ok d => exact countByte_then_finish ((phase_of_unpacked h).trans hp)
      | raised d => rfl
      | refused why => rfl
  | _ =>
    rw [exec, exec, execDecByte, execDecByte, byteCommand, byteCommand, hp]
    rfl

/-! ### Chunks leave no mark (R92) -/

theorem runEvents_bytes_hint {bytes : List HostEvent} (h : ∀ ev ∈ bytes, ∃ b fin, ev = eventOf (.decByte b fin))
    (n : Reg32) (s : State) :
    runEvents (bytes ++ finishCommands) (s.hint n) = runEvents (bytes ++ finishCommands) s := by
  induction bytes generalizing s with
  | nil => rw [List.nil_append, runEvents_finishCommands, runEvents_finishCommands, exec_decFinish_hint]
  | cons ev rest ih =>
    obtain ⟨b, fin, rfl⟩ := h ev List.mem_cons_self
    rw [List.cons_append, runEvents_cons_eq, runEvents_cons_eq, takeEvent_eventOf_decByte, exec_decByte_hint,
      thenOut_mapNext]
    congr 1
    funext t
    exact ih (fun ev hev => h ev (List.mem_cons_of_mem _ hev)) t

/-- A decoding call is the same under any hint. -/
theorem decodeRun_hint {bytes : List HostEvent} (h : ∀ ev ∈ bytes, ∃ b fin, ev = eventOf (.decByte b fin))
    (m n : Reg32) (s : State) : decodeRun m bytes s = decodeRun n bytes s := by
  have hopened (k : Reg32) : s.setDec (decOpened k) = (s.setDec (decOpened 0)).hint k := rfl
  rw [decodeRun_eq_opened, decodeRun_eq_opened, hopened m, hopened n, runEvents_bytes_hint h, runEvents_bytes_hint h]

/-- A decoding call is the same whether its last byte is marked or not. -/
theorem decodeRun_final (n : Reg32) (bytes : List Byte) (s : State) :
    decodeRun n (chunkCommands bytes true) s = decodeRun n (chunkCommands bytes false) s := by
  rcases List.eq_nil_or_concat bytes with rfl | ⟨front, b, rfl⟩
  · rfl
  · have hlast (fin : Bool) : runEvents (chunkCommands [b] fin ++ finishCommands) =
        fun t => thenOut (thenOut (exec (.decByte b fin) t) (exec .decFinish)) (runEvents []) := by
      funext t
      rw [chunkCommands, List.singleton_append, runEvents_cons_eq, takeEvent_eventOf_decByte, thenOut_assoc]
      congr 1
      funext u
      exact runEvents_finishCommands u
    rw [List.concat_eq_append, chunkCommands_append (by simp), chunkCommands_append (by simp), decodeRun_eq_opened,
      decodeRun_eq_opened, List.append_assoc, List.append_assoc, runEvents_append,
      runEvents_append (chunkCommands front false), hlast, hlast]
    simp only [exec_decByte_then_finish]

/-- Settles O56: both calls are one run of the same bytes; they differ in the hint (`decodeRun_hint`) and, where the
last chunk is empty, in the mark on the last byte (`decodeRun_final`). -/
theorem chunksLeaveNoMark : Obligations.ChunksLeaveNoMark := by
  intro chunks last
  have hcommands (h : last ≠ []) : chunkCommands chunks.flatten false ++ chunkCommands last true =
      chunkCommands (chunks.flatten ++ last) true := (chunkCommands_append h _ _).symm
  refine ⟨fun h => by rw [flatten_chunkCommands, hcommands h], fun hlen n s => ?_⟩
  have hcount : (BitVec.ofNat 32 (chunks.flatten ++ last).length).toNat = (chunks.flatten ++ last).length := by
    rw [BitVec.toNat_ofNat, Nat.mod_eq_of_lt (Nat.lt_of_le_of_lt hlen (by decide))]
  rw [streamDecode_eq_decodeRun, decodeCall_eq_decodeRun, hcount, List.take_length]
  by_cases h : last = []
  · rw [h, chunkCommands, List.append_nil, List.append_nil, decodeRun_final]
    exact decodeRun_hint (fun _ => mem_chunkCommands) _ _ s
  · rw [hcommands h]
    exact decodeRun_hint (fun _ => mem_chunkCommands) _ _ s

/-! ### The end of a call (R42, R43, R46, R90 to R92) -/

/-- The bit above a phase code. -/
theorem getLsbD_two_append {n : Nat} (x : BitVec n) (b : Bool) (code : BitVec 2) :
    (x ++ BitVec.ofBool b ++ code).getLsbD 2 = b := by
  rw [BitVec.getLsbD_append, if_neg (by decide), BitVec.getLsbD_append, if_pos (by decide)]
  exact (BitVec.getLsbD_ofBool b 0).trans (Bool.true_and b)

theorem statusDone_encStatus (e : Enc) : statusDone (encStatus e) = doneFlag e.phase := getLsbD_two_append _ _ _

theorem statusDone_decStatus (d : Dec) : statusDone (decStatus d) = doneFlag d.phase := getLsbD_two_append _ _ _

theorem doneFlag_eq_true_iff {p : Phase} : doneFlag p = true ↔ p = .done := beq_iff_eq

theorem memRead_of_range' {w : Nat} {m : Memory w} {k n i : Nat} (h : m.map Prod.fst = List.range' k n) :
    memRead m (k + i) = (m.map Prod.snd)[i]? := by
  induction m generalizing k n i with
  | nil => rfl
  | cons p t ih =>
    cases n with
    | zero => cases h
    | succ n =>
      obtain ⟨hk, ht⟩ := List.cons.inj h
      cases i with
      | zero => simp [memRead, hk]
      | succ i =>
        rw [memRead, if_neg (by omega), List.map_cons, List.getElem?_cons_succ, ← ih ht]
        congr 1
        omega

/-- The elements of a buffer without gaps lie at their own indexes. -/
theorem memRead_of_dense {w n : Nat} {m : Memory w} (h : dense m n) (i : Nat) :
    memRead m i = (m.map Prod.snd)[i]? := by
  rw [dense, List.range_eq_range'] at h
  rw [← memRead_of_range' h, Nat.zero_add]

theorem length_of_dense {w n : Nat} {m : Memory w} (h : dense m n) : (m.map Prod.snd).length = n := by
  rw [List.length_map, ← List.length_map (f := Prod.fst), h, List.length_range]

theorem bufValue_of_dense {w i : Nat} {p : Phase} {len : Reg32} {m : Memory w} (hp : p = .done)
    (h : dense m len.toNat) (hi : i < len.toNat) (free : BitVec w) :
    bufValue p len (BitVec.ofNat 32 i) m free = (m.map Prod.snd)[i]'(by rwa [length_of_dense h]) := by
  have hidx : (BitVec.ofNat 32 i).toNat = i := by rw [BitVec.toNat_ofNat]; omega
  refine bufValue_of_done hp (by rwa [hidx]) ?_ free
  rw [hidx, memRead_of_dense h]
  exact List.getElem?_eq_getElem _

/-- The reads from an index up to the length find the rest of the result. -/
theorem readEncOut_of_dense {n i : Nat} {s : State} (hp : s.enc.phase = .done) (h : dense s.enc.out s.enc.len.toNat)
    (hn : i + n = s.enc.len.toNat) : (readEncOut n i s).2 = (s.enc.out.map Prod.snd).drop i := by
  induction n generalizing i s with
  | zero => rw [readEncOut, List.drop_eq_nil_of_le (by rw [length_of_dense h]; omega)]
  | succ n ih =>
    have hvalue : encBufData (BitVec.ofNat 32 i) s = _ := bufValue_of_dense hp h (by omega) _
    have hrest : _ = (s.enc.out.map Prod.snd).drop (i + 1) :=
      ih (s := readBuf .enc (BitVec.ofNat 32 i) s) hp h (show i + 1 + n = s.enc.len.toNat by omega)
    rw [readEncOut, List.drop_eq_getElem_cons (by rw [length_of_dense h]; omega), hvalue, hrest]

/-- The reads from an index up to the length find the rest of the text. -/
theorem readDecOut_of_dense {n i : Nat} {s : State} (hp : s.dec.phase = .done) (h : dense s.dec.out s.dec.len.toNat)
    (hn : i + n = s.dec.len.toNat) : (readDecOut n i s).2 = (s.dec.out.map Prod.snd).drop i := by
  induction n generalizing i s with
  | zero => rw [readDecOut, List.drop_eq_nil_of_le (by rw [length_of_dense h]; omega)]
  | succ n ih =>
    have hvalue : decBufData (BitVec.ofNat 32 i) s = _ := bufValue_of_dense hp h (by omega) _
    have hrest : _ = (s.dec.out.map Prod.snd).drop (i + 1) :=
      ih (s := readBuf .dec (BitVec.ofNat 32 i) s) hp h (show i + 1 + n = s.dec.len.toNat by omega)
    rw [readDecOut, List.drop_eq_getElem_cons (by rw [length_of_dense h]; omega), hvalue, hrest]

theorem readEncResult_of_done {s : State} (hp : s.enc.phase = .done) :
    readEncResult s =
      ((readEncOut s.enc.len.toNat 0 (readReg .enc 1 (readReg .enc 0 s))).1,
        some ((readEncOut s.enc.len.toNat 0 (readReg .enc 1 (readReg .enc 0 s))).2, s.enc.len)) := by
  have hdone : statusDone (regData .enc 0 s) = true :=
    (statusDone_encStatus s.enc).trans (doneFlag_eq_true_iff.2 hp)
  rw [readEncResult, if_pos hdone]
  rfl

theorem readEncResult_of_not_done {s : State} (hp : s.enc.phase ≠ .done) :
    readEncResult s = (readReg .enc 0 s, none) := by
  have hdone : ¬ statusDone (regData .enc 0 s) = true :=
    fun h => hp (doneFlag_eq_true_iff.1 ((statusDone_encStatus s.enc).symm.trans h))
  rw [readEncResult, if_neg hdone]

theorem readDecResult_of_done {s : State} (hp : s.dec.phase = .done) :
    readDecResult s =
      ((readDecOut s.dec.len.toNat 0 (readReg .dec 1 (readReg .dec 0 s))).1,
        some (readDecOut s.dec.len.toNat 0 (readReg .dec 1 (readReg .dec 0 s))).2) := by
  have hdone : statusDone (regData .dec 0 s) = true :=
    (statusDone_decStatus s.dec).trans (doneFlag_eq_true_iff.2 hp)
  rw [readDecResult, if_pos hdone]
  rfl

theorem readDecResult_of_not_done {s : State} (hp : s.dec.phase ≠ .done) :
    readDecResult s = (readReg .dec 0 s, none) := by
  have hdone : ¬ statusDone (regData .dec 0 s) = true :=
    fun h => hp (doneFlag_eq_true_iff.1 ((statusDone_decStatus s.dec).symm.trans h))
  rw [readDecResult, if_neg hdone]

theorem readEncResult_frame (s : State) :
    (readEncResult s).1.enc = s.enc ∧ (readEncResult s).1.dec = s.dec ∧ (readEncResult s).1.caps = s.caps := by
  by_cases hp : s.enc.phase = .done
  · obtain ⟨henc, hdec, hcaps, -⟩ := readEncOut_frame s.enc.len.toNat 0 (readReg .enc 1 (readReg .enc 0 s))
    rw [readEncResult_of_done hp]
    exact ⟨henc, hdec, hcaps⟩
  · rw [readEncResult_of_not_done hp]
    exact ⟨rfl, rfl, rfl⟩

theorem readDecResult_frame (s : State) :
    (readDecResult s).1.enc = s.enc ∧ (readDecResult s).1.dec = s.dec ∧ (readDecResult s).1.caps = s.caps := by
  by_cases hp : s.dec.phase = .done
  · obtain ⟨henc, hdec, hcaps, -⟩ := readDecOut_frame s.dec.len.toNat 0 (readReg .dec 1 (readReg .dec 0 s))
    rw [readDecResult_of_done hp]
    exact ⟨henc, hdec, hcaps⟩
  · rw [readDecResult_of_not_done hp]
    exact ⟨rfl, rfl, rfl⟩

/-- Settles O60: the status shows the phase (`statusDone_encStatus`, `statusDone_decStatus`), and the reads from index 0
find the whole buffer (`readEncOut_of_dense`, `readDecOut_of_dense`). -/
theorem callsAnswerTheResultOrNothing : Obligations.CallsAnswerTheResultOrNothing := by
  intro s
  obtain ⟨hencEnc, hencDec, hencCaps⟩ := readEncResult_frame s
  obtain ⟨hdecEnc, hdecDec, hdecCaps⟩ := readDecResult_frame s
  refine ⟨fun hp hdense => ?_, fun hp => by rw [readEncResult_of_not_done hp], fun hp hdense => ?_,
    fun hp => by rw [readDecResult_of_not_done hp], hencEnc, hencDec, hencCaps, hdecEnc, hdecDec, hdecCaps⟩
  · have hbytes := readEncOut_of_dense (s := readReg .enc 1 (readReg .enc 0 s)) hp hdense (Nat.zero_add _)
    rw [readEncResult_of_done hp, ← readReg_enc .enc 0 s, ← readReg_enc .enc 1, hbytes, List.drop_zero]
  · have hunits := readDecOut_of_dense (s := readReg .dec 1 (readReg .dec 0 s)) hp hdense (Nat.zero_add _)
    rw [readDecResult_of_done hp, ← readReg_dec .dec 0 s, ← readReg_dec .dec 1, hunits, List.drop_zero]

end Sys2Proof.Machine

/-! PROOFS, family 40_enc_classifier. What `ENC_UNIT` and each class of units does from an open call: a unit that is
accepted leaves `acceptedEnc` of its symbols, any other unit the error entry. -/

namespace Sys2Proof.Machine

/-! ### ENC_BEGIN (R100) -/

/-- Settles O10: the command does not look at the state, and the rest is evaluated. -/
theorem encBeginOpensACall : Obligations.EncBeginOpensACall :=
  fun _ => ⟨rfl, by decide, by decide⟩

/-! ### An accepted unit (R101, R114) -/

/-- The encoder after a unit that raised no error: its symbols appended, the pending surrogate as the unit left it,
the unit counted. -/
def acceptedEnc (syms : List Sym) (hsv : Bool) (hs : CodeUnit) (e : Enc) : Enc :=
  { e with
    hsv := hsv, hs := hs, ucnt := e.ucnt + 1, spos := e.spos + BitVec.ofNat 32 syms.length,
    scr := memWriteAll e.scr e.spos.toNat syms }

theorem acceptedEnc_nil (hsv : Bool) (hs : CodeUnit) (e : Enc) :
    acceptedEnc [] hsv hs e = { e with hsv := hsv, hs := hs, ucnt := e.ucnt + 1 } := by
  simp [acceptedEnc, memWriteAll]

theorem acceptedEnc_spos_toNat {syms : List Sym} {e : Enc} (h : e.spos.toNat + syms.length ≤ lenMax) (hsv : Bool)
    (hs : CodeUnit) : (acceptedEnc syms hsv hs e).spos.toNat = e.spos.toNat + syms.length := by
  simp only [lenMax] at h
  simp only [acceptedEnc, BitVec.toNat_add, BitVec.toNat_ofNat]
  omega

theorem acceptedEnc_ucnt_toNat {e : Enc} (h : e.ucnt.toNat < lenMax) (syms : List Sym) (hsv : Bool) (hs : CodeUnit) :
    (acceptedEnc syms hsv hs e).ucnt.toNat = e.ucnt.toNat + 1 := by
  simp only [lenMax] at h
  exact BitVec.toNat_add_of_lt (show e.ucnt.toNat + 1 < 2 ^ 32 by omega)

/-- Outside the run of its symbols a unit leaves the scratch area alone (R45). -/
theorem memRead_acceptedEnc_scr {syms : List Sym} {e : Enc} {a : Nat}
    (h : ¬(e.spos.toNat ≤ a ∧ a < e.spos.toNat + syms.length)) (hsv : Bool) (hs : CodeUnit) :
    memRead (acceptedEnc syms hsv hs e).scr a = memRead e.scr a := by
  rw [acceptedEnc, memRead_memWriteAll, if_neg h]

/-! ### The unit command in an open call, by how the unit is met (R101, R111 to R113)

An error ends the command before its count, so only an accepted unit asks for room in the counter (log entry 11). -/

/-- The end of an accepted unit: it is counted (R24). -/
theorem encOutcome_countUnit {s : State} {e : Enc} (hcnt : e.ucnt.toNat < lenMax) :
    encOutcome s (countUnit e) = .next (s.setEnc { e with ucnt := e.ucnt + 1 }) := by
  rw [countUnit_ok hcnt, encOutcome_ok]

section
variable {s : State} (hp : s.enc.phase = .active)
include hp

/-- With nothing pending the unit's class runs, and then the count. -/
theorem unitCommand_not_pending (hsv : s.enc.hsv = false) (u : CodeUnit) (cls : Enc → Result Enc) :
    unitCommand u cls s = encOutcome s ((cls s.enc).andThen countUnit) := by
  rw [unitCommand, inCall_active hp, acceptUnit, if_neg (by simp [hsv])]

/-- A high surrogate waits (R111). -/
theorem unitCommand_high (hsv : s.enc.hsv = false) (hcnt : s.enc.ucnt.toNat < lenMax) (u : CodeUnit) :
    unitCommand u (classHigh u) s = .next (s.setEnc { s.enc with hsv := true, hs := u, ucnt := s.enc.ucnt + 1 }) := by
  rw [unitCommand_not_pending hp hsv, classHigh, Result.ok_andThen]
  exact encOutcome_countUnit hcnt

/-- A low surrogate alone is LONE_LOW (R112). -/
theorem unitCommand_loneLow (hsv : s.enc.hsv = false) (u : CodeUnit) :
    unitCommand u (classLow u) s = .next (s.setEnc (encRaise causeLoneLow u s.enc.ucnt)) := by
  rw [unitCommand_not_pending hp hsv, classLow, Result.raised_andThen, encOutcome_raised]

/-- A low surrogate after a pending unit completes the pair, whatever its class would do (R112). -/
theorem unitCommand_pair {u : CodeUnit} (hsv : s.enc.hsv = true) (hu : isLowSurrogate u = true)
    (hcap : capFits s.caps.encScr (s.enc.spos.toNat + 4) = true) (hlen : s.enc.spos.toNat + 4 ≤ lenMax)
    (hcnt : s.enc.ucnt.toNat < lenMax) (cls : Enc → Result Enc) :
    unitCommand u cls s = .next (s.setEnc (acceptedEnc (symsFour (pairCodePoint s.enc.hs u)) false 0 s.enc)) := by
  rw [unitCommand, inCall_active hp, acceptUnit_of_pair hsv hu, emit_ok hcap hlen, Result.ok_andThen, Result.ok_andThen]
  exact encOutcome_countUnit hcnt

/-- Any other unit after a pending one is HIGH_NOT_LOW, whatever its class would do (R113). -/
theorem unitCommand_highNotLow {u : CodeUnit} (hsv : s.enc.hsv = true) (hu : isLowSurrogate u = false)
    (cls : Enc → Result Enc) : unitCommand u cls s = .next (s.setEnc (encRaise causeHighNotLow u s.enc.ucnt)) := by
  rw [unitCommand, inCall_active hp, acceptUnit, if_pos hsv, if_neg (by simp [hu]), Result.raised_andThen,
    encOutcome_raised]

end

/-- A class with symbols, in a call that is ready for them (R103 to R110). -/
theorem unitCommand_syms {s : State} {op : UnitOp} {syms : List Sym} (hsyms : unitOpSyms op = syms) (hne : syms ≠ [])
    (hready : EncReady s syms.length) (u : CodeUnit) :
    unitCommand u (unitAct s.caps.encScr u op) s =
      .next (s.setEnc (acceptedEnc syms s.enc.hsv s.enc.hs s.enc)) := by
  obtain ⟨hp, hsv, hcap, hlen, hcnt⟩ := hready
  subst hsyms
  rw [unitCommand_not_pending hp hsv, unitAct_of_syms hne, emit_ok hcap hlen, Result.ok_andThen]
  exact encOutcome_countUnit hcnt

/-! ### A class and the unit that carries it (log entry 3) -/

/-- `ENC_UNIT` is the unit command around the class of the decoded unit. -/
theorem exec_encUnit (u : CodeUnit) (s : State) :
    exec (.encUnit u) s = unitCommand u (unitAct s.caps.encScr u (decodeUnit u)) s := by
  rw [← classAct_eq_unitAct]
  rfl

theorem exec_unitOp (op : UnitOp) (s : State) :
    exec op.toInstr s = unitCommand (encodeUnit op) (unitAct s.caps.encScr (encodeUnit op) op) s := by
  cases op <;> rfl

/-- A class with the operands of R64 is the `ENC_UNIT` of its unit. -/
theorem exec_unitOp_eq_encUnit {op : UnitOp} (hwf : op.toInstr.wf = true) (s : State) :
    exec op.toInstr s = exec (.encUnit (encodeUnit op)) s := by
  rw [exec_encUnit, decodeUnit_encodeUnit hwf, exec_unitOp]

/-- A unit instruction is `ENC_UNIT` or a class. -/
theorem isUnitInstr_cases {i : Instr} (h : isUnitInstr i = true) :
    (∃ u, i = .encUnit u) ∨ ∃ op : UnitOp, i = op.toInstr ∧ unitOfInstr i = encodeUnit op := by
  cases i with
  | encUnit u => exact .inl ⟨u, rfl⟩
  | eNul => exact .inr ⟨.nul, rfl, rfl⟩
  | eOvl raw => exact .inr ⟨.ovl raw, rfl, rfl⟩
  | eBel => exact .inr ⟨.bel, rfl, rfl⟩
  | eBs => exact .inr ⟨.bs, rfl, rfl⟩
  | eCtl ch => exact .inr ⟨.ctl ch, rfl, rfl⟩
  | eLit sym => exact .inr ⟨.lit sym, rfl, rfl⟩
  | eTwo hi lo => exact .inr ⟨.two hi lo, rfl, rfl⟩
  | eThree hi mid lo => exact .inr ⟨.three hi mid lo, rfl, rfl⟩
  | eHigh payload => exact .inr ⟨.high payload, rfl, rfl⟩
  | eLow payload => exact .inr ⟨.low payload, rfl, rfl⟩
  | _ => cases h

theorem exec_eq_encUnit {i : Instr} (hi : isUnitInstr i = true) (hwf : i.wf = true) (s : State) :
    exec i s = exec (.encUnit (unitOfInstr i)) s := by
  rcases isUnitInstr_cases hi with ⟨u, rfl⟩ | ⟨op, rfl, hu⟩
  · rfl
  · rw [hu, exec_unitOp_eq_encUnit hwf]

/-! ### The classes with symbols (R103 to R110, R64) -/

theorem add_ctlOffset (ch : Sym) : ch + ctlOffset = BitVec.ofNat 7 (ch.toNat + 16) := by
  rw [BitVec.ofNat_add, BitVec.ofNat_toNat, BitVec.setWidth_eq]
  rfl

theorem symsTwo_eq (hi : BitVec 4) (lo : Sym) : symsTwo hi lo = [BitVec.ofNat 7 hi.toNat, lo] := by
  have hlead : ∀ hi : BitVec 4, tag2 ||| hi.setWidth 7 = BitVec.ofNat 7 hi.toNat := by decide
  rw [symsTwo, hlead]

theorem symsThree_eq (hi : BitVec 2) (mid lo : Sym) :
    symsThree hi mid lo = [BitVec.ofNat 7 (16 + hi.toNat), mid, lo] := by
  have hlead : ∀ hi : BitVec 2, tag3 ||| hi.setWidth 7 = BitVec.ofNat 7 (16 + hi.toNat) := by decide
  rw [symsThree, hlead]

/-- Only the surrogates have no symbols of their own. -/
theorem unitSyms_ne_nil {u : CodeUnit} (hhigh : isHighSurrogate u = false) (hlow : isLowSurrogate u = false) :
    unitSyms u ≠ [] := by
  have hu : ¬(0xD800 ≤ u.toNat ∧ u.toNat ≤ 0xDFFF) := by
    simp only [isHighSurrogate, isLowSurrogate, Bool.and_eq_false_iff, decide_eq_false_iff_not] at hhigh hlow
    omega
  simp only [unitSyms, if_neg hu]
  split_ifs <;> exact List.cons_ne_nil _ _

/-- Settles O11: five classes of one symbol each (`unitCommand_syms`). -/
theorem oneSymbolClassesAppendTheirSymbol : Obligations.OneSymbolClassesAppendTheirSymbol := by
  intro s hready
  refine ⟨fun sym _ => ?_, fun ch _ => ?_, ?_, ?_, ?_⟩
  · exact unitCommand_syms (op := .lit sym) rfl (List.cons_ne_nil _ _) hready _
  · exact unitCommand_syms (op := .ctl ch) (congrArg ([·]) (add_ctlOffset ch)) (List.cons_ne_nil _ _) hready _
  · exact unitCommand_syms (op := .nul) rfl (List.cons_ne_nil _ _) hready _
  · exact unitCommand_syms (op := .bel) rfl (List.cons_ne_nil _ _) hready _
  · exact unitCommand_syms (op := .bs) rfl (List.cons_ne_nil _ _) hready _

/-- Settles O12: two classes of a lead and a trailer each (`unitCommand_syms`). -/
theorem twoSymbolClassesAppendTheirSymbols : Obligations.TwoSymbolClassesAppendTheirSymbols := by
  intro s hready
  refine ⟨fun raw _ => ?_, fun hi lo _ => ?_⟩
  · exact unitCommand_syms (op := .ovl raw) rfl (List.cons_ne_nil _ _) hready _
  · exact unitCommand_syms (op := .two hi lo) (symsTwo_eq hi lo) (List.cons_ne_nil _ _) hready _

/-- Settles O13: the class of a lead and two trailers (`unitCommand_syms`). -/
theorem threeSymbolClassAppendsItsSymbols : Obligations.ThreeSymbolClassAppendsItsSymbols := by
  intro s hi mid lo hready _
  exact unitCommand_syms (op := .three hi mid lo) (symsThree_eq hi mid lo) (List.cons_ne_nil _ _) hready _

/-- Settles O17: the class of the decoded unit has the symbols of the table (`unitOpSyms_decodeUnit`). -/
theorem encUnitAppendsTheSymbolsOfItsUnit : Obligations.EncUnitAppendsTheSymbolsOfItsUnit := by
  intro s u hhigh hlow hready
  rw [exec_encUnit]
  exact unitCommand_syms (unitOpSyms_decodeUnit u) (unitSyms_ne_nil hhigh hlow) hready u

/-! ### Surrogates (R76, R111 to R113) -/

/-- A code unit by its value (R64). -/
theorem encodeUnit_eq_ofNat (op : UnitOp) : encodeUnit op = BitVec.ofNat 16 (unitValue op) := by
  rw [← encodeUnit_toNat, BitVec.ofNat_toNat, BitVec.setWidth_eq]

theorem isLowSurrogate_encodeUnit_low (payload : BitVec 10) : isLowSurrogate (encodeUnit (.low payload)) = true := by
  simp only [isLowSurrogate, encodeUnit_toNat, unitValue, Bool.and_eq_true, decide_eq_true_eq]
  omega

/-- The code point of a pair as a number (R76). -/
theorem pairCodePoint_toNat {h l : CodeUnit} (hh : isHighSurrogate h = true) (hl : isLowSurrogate l = true) :
    (pairCodePoint h l).toNat = 0x10000 + (h.toNat - 0xD800) * 1024 + (l.toNat - 0xDC00) := by
  simp only [isHighSurrogate, isLowSurrogate, Bool.and_eq_true, decide_eq_true_eq] at hh hl
  have hhigh : (h - 0xD800#16).toNat = h.toNat - 0xD800 := BitVec.toNat_sub_of_le (BitVec.le_def.2 hh.1)
  have hlow : (l - 0xDC00#16).toNat = l.toNat - 0xDC00 := BitVec.toNat_sub_of_le (BitVec.le_def.2 hl.1)
  have hsum : pairCodePoint h l =
      0x10000#21 + ((h - 0xD800#16).setWidth 21 <<< 10) + (l - 0xDC00#16).setWidth 21 := rfl
  simp only [hsum, BitVec.toNat_add, BitVec.toNat_shiftLeft, BitVec.toNat_setWidth, BitVec.toNat_ofNat, hhigh, hlow,
    Nat.shiftLeft_eq]
  omega

/-- The four symbols of a pair by value (R72, R76). -/
theorem symsFour_pairCodePoint {h l : CodeUnit} (hh : isHighSurrogate h = true) (hl : isLowSurrogate l = true) :
    symsFour (pairCodePoint h l) = pairSyms h l := by
  have hfield (start k : Nat) (hk : k % 128 = (pairCodePoint h l).toNat / 2 ^ start % 128) :
      (pairCodePoint h l).extractLsb' start 7 = BitVec.ofNat 7 k :=
    extractLsb'_eq_of_toNat (by rw [BitVec.toNat_ofNat]; exact hk.symm)
  simp only [symsFour, pairSyms, ← pairCodePoint_toNat hh hl]
  rw [hfield 14 _ rfl, hfield 7 _ (Nat.mod_mod _ _), hfield 0 ((pairCodePoint h l).toNat % 128) (by omega)]
  rfl

/-- Settles O14: the class waits (`unitCommand_high`), and `ENC_UNIT` of its unit is the class. -/
theorem highSurrogateWaits : Obligations.HighSurrogateWaits := by
  intro s payload hp hsv hcnt
  have hu : encodeUnit (.high payload) = BitVec.ofNat 16 (0xD800 + payload.toNat) := encodeUnit_eq_ofNat _
  rw [← hu]
  have hclass := unitCommand_high hp hsv hcnt (encodeUnit (.high payload))
  exact ⟨hclass, (exec_unitOp_eq_encUnit (op := .high payload) rfl s).symm.trans hclass⟩

/-- Settles O15: the pair completed (`unitCommand_pair`) or LONE_LOW (`unitCommand_loneLow`), and `ENC_UNIT` of the unit
is the class. -/
theorem lowSurrogateCompletesThePairOrFaults : Obligations.LowSurrogateCompletesThePairOrFaults := by
  intro s payload hp
  have hu : encodeUnit (.low payload) = BitVec.ofNat 16 (0xDC00 + payload.toNat) := encodeUnit_eq_ofNat _
  have hlow := isLowSurrogate_encodeUnit_low payload
  have hunit : exec (.encUnit (encodeUnit (.low payload))) s = exec (.eLow payload) s :=
    (exec_unitOp_eq_encUnit (op := .low payload) rfl s).symm
  rw [← hu]
  refine ⟨fun hsv hhigh hcap hlen hcnt => ?_, fun hsv => ?_⟩
  · have hclass := unitCommand_pair hp hsv hlow hcap hlen hcnt (classLow (encodeUnit (.low payload)))
    rw [symsFour_pairCodePoint hhigh hlow] at hclass
    exact ⟨hclass, hunit.trans hclass⟩
  · have hclass := unitCommand_loneLow hp hsv (encodeUnit (.low payload))
    exact ⟨hclass, hunit.trans hclass⟩

/-- Settles O16: the pending surrogate is met before the class (`unitCommand_highNotLow`). -/
theorem unitAfterPendingHighMustBeLow : Obligations.UnitAfterPendingHighMustBeLow := by
  intro s i hi hp hsv hu
  obtain ⟨op, hexec⟩ := exec_of_isUnitInstr hi
  rw [hexec]
  exact unitCommand_highNotLow hp hsv hu _

/-! ### The frame of an accepted unit (R12, R45, R101, R114) -/

/-- A class that goes on appends its symbols, and as a high surrogate becomes the pending one. -/
theorem unitAct_eq_ok {cap : Option Nat} {u : CodeUnit} {op : UnitOp} {e e' : Enc} (h : unitAct cap u op e = .ok e') :
    ∃ hsv hs, e.spos.toNat + (unitOpSyms op).length ≤ lenMax ∧
      { e' with ucnt := e'.ucnt + 1 } = acceptedEnc (unitOpSyms op) hsv hs e := by
  cases op with
  | high payload =>
    cases h
    have hlt := e.spos.isLt
    exact ⟨true, u, by simp only [unitOpSyms, List.length_nil, lenMax]; omega, (acceptedEnc_nil true u e).symm⟩
  | low payload => cases h
  | _ =>
    obtain ⟨hlen, rfl⟩ := emit_eq_ok h
    exact ⟨e.hsv, e.hs, hlen, rfl⟩

/-- A unit that raises no error is accepted, with four symbols as the end of a pair and else with as many as the table
gives it (R64, R72). -/
theorem exec_encUnit_active {u : CodeUnit} {s t : State} (hp : s.enc.phase = .active)
    (h : exec (.encUnit u) s = .next t) (ht : t.enc.phase = .active) :
    ∃ syms hsv hs, syms.length = (if s.enc.hsv then 4 else (unitSyms u).length) ∧
      s.enc.spos.toNat + syms.length ≤ lenMax ∧ s.enc.ucnt.toNat < lenMax ∧
      t = s.setEnc (acceptedEnc syms hsv hs s.enc) := by
  rw [exec_encUnit] at h
  rcases unitCommand_next h with ⟨hf, -⟩ | ⟨-, -, -, rfl⟩ | ⟨-, hsv, -, e, hpair, hcnt, rfl⟩ |
    ⟨-, hsv, ⟨e, hact, rfl⟩ | ⟨e, hact, hcnt, rfl⟩⟩
  · rw [hp] at hf; cases hf
  · cases ht
  · obtain ⟨e, hemit, rfl⟩ := pairComplete_eq_ok hpair
    obtain ⟨hlen, rfl⟩ := emit_eq_ok hemit
    exact ⟨_, false, 0, by rw [if_pos hsv]; rfl, hlen, hcnt, rfl⟩
  · rw [unitAct_raised hact] at ht; cases ht
  · obtain ⟨hsv', hs', hlen, he⟩ := unitAct_eq_ok hact
    rw [unitOpSyms_decodeUnit] at hlen he
    rw [(unitAct_frame hact).2] at hcnt
    exact ⟨_, hsv', hs', by simp [hsv], hlen, hcnt, congrArg s.setEnc he⟩

/-- Settles O19: the next state is `acceptedEnc` of as many symbols as the unit gives (`exec_encUnit_active`). -/
theorem unitCommandFrame : Obligations.UnitCommandFrame := by
  intro i s t hi hwf hp h ht
  rw [exec_eq_encUnit hi hwf] at h
  obtain ⟨syms, hsv, hs, hk, hlen, hcnt, rfl⟩ := exec_encUnit_active hp h ht
  rw [← hk]
  exact ⟨fun a ha => memRead_acceptedEnc_scr ha hsv hs, acceptedEnc_spos_toNat hlen hsv hs,
    acceptedEnc_ucnt_toNat hcnt syms hsv hs, fun _ => rfl, rfl, rfl, rfl, rfl, rfl, rfl, rfl, rfl, rfl⟩

end Sys2Proof.Machine

/-! PROOFS, family 41_enc_packer. What `Pack` does, what `ENC_END` makes of an open call, and the encoding call as a
whole: each unit is taken as the text functions read it, so the call ends as they say. -/

namespace Sys2Proof.Machine

/-! ### Pack (R132 to R135) -/

/-- A byte on the wire as its two fields or-ed together (R67). -/
theorem encodePbyte_eq_or :
    ∀ (hb : Bool) (x : Sym), encodePbyte hb x = x.setWidth 8 ||| ((BitVec.ofBool hb).setWidth 8 <<< 7) := by
  decide

theorem encodePbyte_false (x : Sym) : encodePbyte false x = x.setWidth 8 := by
  rw [encodePbyte_eq_or]
  exact BitVec.or_zero

/-- The formula of R133 for one byte of a full group. -/
theorem groupByte_eq (i : Nat) (x s7 : Sym) :
    groupByte i x s7 = x.setWidth 8 ||| (((s7 >>> (6 - i)) &&& 1).setWidth 8 <<< 7) := by
  have hbit : s7 >>> (6 - i) &&& 1#7 = (BitVec.ofBool (s7.getLsbD (6 - i))).setWidth 7 := by
    rw [BitVec.and_one_eq_setWidth_ofBool_getLsbD, BitVec.getLsbD_ushiftRight, Nat.add_zero]
  have hwiden : ∀ b : Bool, ((BitVec.ofBool b).setWidth 7).setWidth 8 = (BitVec.ofBool b).setWidth 8 := by decide
  rw [groupByte, encodePbyte_eq_or, ← hwiden, ← hbit]
  rfl

/-- Settles O21: a full group by its bytes (`groupByte_eq`), a shorter list as the tail (`pack_of_length_lt`). -/
theorem packCutsGroupsAndTail : Obligations.PackCutsGroupsAndTail := by
  refine ⟨fun g rest s7 hg => ?_, fun S hS => ?_⟩
  · match g, hg with
    | [s0, s1, s2, s3, s4, s5, s6], _ =>
      simp only [List.cons_append, List.nil_append, pack, group, groupByte_eq, List.zipIdx_cons, List.zipIdx_nil,
        List.map_cons, List.map_nil, Nat.zero_add, Nat.reduceAdd]
  · rw [pack_of_length_lt hS, tail, funext encodePbyte_false]

/-- Settles O22 (`length_pack`). -/
theorem packedLength : Obligations.PackedLength := length_pack

/-! ### ENC_END in an open call (R130, R131) -/

/-- The scratch area is the list that its elements spell (R130). -/
theorem scratchSyms_eq {S : List Sym} {e : Enc} (hlen : S.length = e.spos.toNat)
    (h : ∀ j : Nat, j < S.length → memRead e.scr j = S[j]?) (n : Nat) : scratchSyms n e = S := by
  refine List.ext_getElem ((length_scratchSyms n e).trans hlen.symm) fun j _ hj => ?_
  simp only [scratchSyms, List.getElem_map, List.getElem_range, h j hj, List.getElem?_eq_getElem hj, Option.getD_some]

/-- With nothing pending and room for the bytes, `ENC_END` leaves the packed scratch area (R130). -/
theorem exec_encEnd_packed {s : State} (hp : s.enc.phase = .active) (hsv : s.enc.hsv = false)
    (hcap : capFits s.caps.encOut (7 * (s.enc.spos.toNat / 8) + s.enc.spos.toNat % 8) = true) :
    exec .encEnd s = .next (s.drawn.setEnc (packedEnc (pack (scratchSyms s.draws s.enc)) s.enc)) := by
  have hpos := s.enc.spos.isLt
  have hlim : overLimit s.caps.encOut (pack (scratchSyms s.draws s.enc)).length = none := by
    rw [length_pack, length_scratchSyms]
    exact (overLimit_none_iff _ _).2 ⟨hcap, by simp only [lenMax]; omega⟩
  simp only [exec, execEncEnd, inCall_active hp, packCommand, hsv, hlim, Bool.false_eq_true, if_false, encOutcome_ok]

/-- A surrogate still pending is TRAILING_HIGH (R131). -/
theorem exec_encEnd_trailingHigh {s : State} (hp : s.enc.phase = .active) (hsv : s.enc.hsv = true) :
    exec .encEnd s = .next (s.drawn.setEnc (encRaise causeTrailingHigh s.enc.hs (s.enc.ucnt - 1))) := by
  simp only [exec, execEncEnd, inCall_active hp, packCommand, if_pos hsv, encOutcome_raised]

/-- Settles O20: the scratch area spells the symbols (`scratchSyms_eq`) and `ENC_END` packs it (`exec_encEnd_packed`). -/
theorem encEndPacksTheScratchArea : Obligations.EncEndPacksTheScratchArea := by
  intro s S hp hsv hlen hscr hcap
  rw [hlen] at hcap
  rw [exec_encEnd_packed hp hsv hcap, scratchSyms_eq hlen hscr, packedEnc, length_pack]
  rfl

/-- Settles O23 (`exec_encEnd_trailingHigh`). -/
theorem trailingHighSurrogateFaults : Obligations.TrailingHighSurrogateFaults :=
  fun _ hp hsv => exec_encEnd_trailingHigh hp hsv

/-! ### The commands of an encoding call (R90) -/

/-- The commands of a call after its `ENC_BEGIN`. -/
def unitsThenEnd (text : List CodeUnit) : List HostEvent :=
  text.map (fun u => eventOf (.encUnit u)) ++ [eventOf .encEnd]

theorem runEvents_unitsThenEnd_nil (s : State) :
    runEvents (unitsThenEnd []) s = thenOut (exec .encEnd s) (runEvents []) :=
  runEvents_cons_eq (eventOf .encEnd) [] s

theorem runEvents_unitsThenEnd_cons (u : CodeUnit) (rest : List CodeUnit) (s : State) :
    runEvents (unitsThenEnd (u :: rest)) s = thenOut (exec (.encUnit u) s) (runEvents (unitsThenEnd rest)) := by
  have hcommands : unitsThenEnd (u :: rest) = eventOf (.encUnit u) :: unitsThenEnd rest := rfl
  have htake : takeEvent (eventOf (.encUnit u)) s = exec (.encUnit u) s :=
    takeEvent_cmd_of_decode (decode_encode_encUnit u) s
  rw [hcommands, runEvents_cons_eq, htake]

/-- A call does not see what its block was before it. -/
theorem encodeCall_eq_opened (text : List CodeUnit) (s : State) :
    encodeCall text s =
      thenOut (runEvents (unitsThenEnd text) (s.setEnc encOpened)) fun t => .next (readEncResult t) := by
  have hcommands : encodeCommands text = eventOf .encBegin :: unitsThenEnd text := rfl
  have hbegin : takeEvent (eventOf .encBegin) s = .next (s.setEnc encOpened) := rfl
  rw [encodeCall, hcommands, runEvents_cons_eq, hbegin, thenOut_next]

/-- In a failed call the other commands have no effect (R14, R207). -/
theorem runEvents_unitsThenEnd_faulted {s : State} (hp : s.enc.phase = .faulted) (text : List CodeUnit) :
    runEvents (unitsThenEnd text) s = .next (s.setPending []) := by
  induction text with
  | nil => rw [runEvents_unitsThenEnd_nil, exec, execEncEnd, inCall_faulted hp, thenOut_next, runEvents_nil]
  | cons u rest ih =>
    rw [runEvents_unitsThenEnd_cons, exec_encUnit, unitCommand, inCall_faulted hp, thenOut_next, ih]

/-! ### A call as far as it has come (R17, R41, R48) -/

/-- The symbols that a call has produced (R41). -/
def scratchArea (e : Enc) : List Sym := e.scr.map Prod.snd

/-- The high surrogate that waits, if one does (R17). -/
def pendingUnit (e : Enc) : Option CodeUnit := if e.hsv then some e.hs else none

/-- An open call that the capacities do not limit and whose encoder keeps what every step keeps. -/
structure Encoding (s : State) : Prop where
  phase : s.enc.phase = .active
  inv : EncInv s.enc
  bound : EncBound s.enc
  scrUnbounded : s.caps.encScr = none
  outUnbounded : s.caps.encOut = none

theorem encoding_opened {s : State} (hscr : s.caps.encScr = none) (hout : s.caps.encOut = none) :
    Encoding (s.setEnc encOpened) where
  phase := rfl
  inv := encInv_opened
  bound := Nat.zero_le _
  scrUnbounded := hscr
  outUnbounded := hout

theorem Encoding.accepted {s : State} {u : CodeUnit} {syms : List Sym} {hsv : Bool} {hs : CodeUnit} (h : Encoding s)
    (hexec : exec (.encUnit u) s = .next (s.setEnc (acceptedEnc syms hsv hs s.enc))) :
    Encoding (s.setEnc (acceptedEnc syms hsv hs s.enc)) where
  phase := h.phase
  inv := execEncUnit_keeps_encInv h.inv hexec
  bound := execEncUnit_keeps_encBound h.bound hexec
  scrUnbounded := h.scrUnbounded
  outUnbounded := h.outUnbounded

/-- A run of elements written at the end of a buffer follows its elements. -/
theorem map_snd_memWriteAll {w : Nat} (l : List (BitVec w)) {m : Memory w} {n : Nat} (h : dense m n) :
    (memWriteAll m n l).map Prod.snd = m.map Prod.snd ++ l := by
  refine List.ext_getElem? fun j => ?_
  rw [← memRead_of_dense (dense_memWriteAll l h), memRead_memWriteAll, List.getElem?_append, length_of_dense h,
    ← memRead_of_dense h]
  split_ifs with hnew hold hold
  · omega
  · rfl
  · rfl
  · rw [memRead_of_dense h, List.getElem?_eq_none (by rw [length_of_dense h]; omega),
      List.getElem?_eq_none (by omega)]

theorem scratchArea_accepted {e : Enc} (inv : EncInv e) (syms : List Sym) (hsv : Bool) (hs : CodeUnit) :
    scratchArea (acceptedEnc syms hsv hs e) = scratchArea e ++ syms :=
  map_snd_memWriteAll syms inv.scr_dense

theorem scratchSyms_eq_scratchArea {e : Enc} (inv : EncInv e) (n : Nat) : scratchSyms n e = scratchArea e :=
  scratchSyms_eq (length_of_dense inv.scr_dense) (fun j _ => memRead_of_dense inv.scr_dense j) n

/-! ### A unit of a call, as the text functions read it (R101, R102, R116) -/

/-- The symbols column of R64 has at most three. -/
theorem length_unitSyms_le (u : CodeUnit) : (unitSyms u).length ≤ 3 := by
  simp only [unitSyms]
  split_ifs <;> simp only [List.length_cons, List.length_nil] <;> omega

theorem decodeUnit_of_surrogate {u : CodeUnit} (hlo : 0xD800 ≤ u.toNat) (hhi : u.toNat ≤ 0xDFFF) :
    decodeUnit u = if u.toNat ≤ 0xDBFF then .high (u.extractLsb' 0 10) else .low (u.extractLsb' 0 10) := by
  simp only [decodeUnit]
  split_ifs
  any_goals omega
  · rfl
  · rfl

/-- Every high surrogate has the class that waits (R64, R111). -/
theorem classAct_high {u : CodeUnit} (hu : isHighSurrogate u = true) (cap : Option Nat) :
    classAct cap u = classHigh u := by
  simp only [isHighSurrogate, Bool.and_eq_true, decide_eq_true_eq] at hu
  rw [classAct, decodeUnit_of_surrogate (by omega) (by omega), if_pos hu.2]

/-- Every low surrogate has the class that ends a pair (R64, R112). -/
theorem classAct_low {u : CodeUnit} (hu : isLowSurrogate u = true) (cap : Option Nat) :
    classAct cap u = classLow u := by
  simp only [isLowSurrogate, Bool.and_eq_true, decide_eq_true_eq] at hu
  rw [classAct, decodeUnit_of_surrogate (by omega) (by omega), if_neg (by omega)]

/-- The machine takes a unit as the text functions read it: it is accepted with the symbols that `textSyms` gives it
where `wellFormedFrom` goes on behind it, and is an error where `wellFormedFrom` stops. -/
def TakesAsText (s : State) (u : CodeUnit) : Prop :=
  (∃ syms hsv hs, exec (.encUnit u) s = .next (s.setEnc (acceptedEnc syms hsv hs s.enc)) ∧
    ∀ rest, wellFormedFrom s.enc.hsv (u :: rest) = wellFormedFrom hsv rest ∧
      textSyms (pendingUnit s.enc) (u :: rest) =
        syms ++ textSyms (pendingUnit (acceptedEnc syms hsv hs s.enc)) rest) ∨
  ∃ cause, exec (.encUnit u) s = .next (s.setEnc (encRaise cause u s.enc.ucnt)) ∧
    ∀ rest, wellFormedFrom s.enc.hsv (u :: rest) = false

section
variable {s : State} (h : Encoding s) (hroom : 3 * (s.enc.ucnt.toNat + 1) ≤ lenMax)
include h

theorem Encoding.capFits_scr (n : Nat) : capFits s.caps.encScr n = true := by
  rw [h.scrUnbounded]; rfl

theorem Encoding.capFits_out (n : Nat) : capFits s.caps.encOut n = true := by
  rw [h.outUnbounded]; rfl

include hroom

/-- The size bound leaves room for the four symbols of a pair, whose surrogate is counted (R48). -/
theorem Encoding.takesAsText_pending (hsv : s.enc.hsv = true) (u : CodeUnit) : TakesAsText s u := by
  have hbound : s.enc.spos.toNat + 3 ≤ 3 * s.enc.ucnt.toNat := by simpa [EncBound, hsv] using h.bound
  have hhigh := (h.inv.hs_high hsv).2
  cases hlow : isLowSurrogate u with
  | true =>
    have hexec := unitCommand_pair h.phase hsv hlow (h.capFits_scr _) (by omega) (by omega) (classAct s.caps.encScr u)
    rw [symsFour_pairCodePoint hhigh hlow] at hexec
    exact .inl ⟨_, _, _, hexec, fun rest => by simp [wellFormedFrom, textSyms, pendingUnit, acceptedEnc, hsv, hlow]⟩
  | false =>
    exact .inr ⟨_, unitCommand_highNotLow h.phase hsv hlow _, fun rest => by simp [wellFormedFrom, hsv, hlow]⟩

theorem Encoding.takesAsText_not_pending (hsv : s.enc.hsv = false) (u : CodeUnit) : TakesAsText s u := by
  have hbound : s.enc.spos.toNat ≤ 3 * s.enc.ucnt.toNat := by simpa [EncBound, hsv] using h.bound
  cases hhigh : isHighSurrogate u with
  | true =>
    have hexec := unitCommand_high h.phase hsv (by omega) u
    rw [← classAct_high hhigh s.caps.encScr, ← acceptedEnc_nil] at hexec
    exact .inl ⟨_, _, _, hexec, fun rest => by simp [wellFormedFrom, textSyms, pendingUnit, acceptedEnc, hsv, hhigh]⟩
  | false =>
    cases hlow : isLowSurrogate u with
    | true =>
      have hexec := unitCommand_loneLow h.phase hsv u
      rw [← classAct_low hlow s.caps.encScr] at hexec
      exact .inr ⟨_, hexec, fun rest => by simp [wellFormedFrom, hsv, hhigh, hlow]⟩
    | false =>
      have hlen := length_unitSyms_le u
      have hexec : _ = Host.Outcome.next (s.setEnc (acceptedEnc (unitSyms u) s.enc.hsv s.enc.hs s.enc)) :=
        encUnitAppendsTheSymbolsOfItsUnit s u hhigh hlow ⟨h.phase, hsv, h.capFits_scr _, by omega, by omega⟩
      exact .inl ⟨_, _, _, hexec,
        fun rest => by simp [wellFormedFrom, textSyms, pendingUnit, acceptedEnc, hsv, hhigh, hlow]⟩

theorem Encoding.takesAsText (u : CodeUnit) : TakesAsText s u := by
  cases hsv : s.enc.hsv with
  | true => exact h.takesAsText_pending hroom hsv u
  | false => exact h.takesAsText_not_pending hroom hsv u

end

/-! ### A call to its end (R136) -/

/-- How a call ends: with `Pack` of all its symbols, or with an error (R102, R136). -/
structure EncEnded (wellFormed : Bool) (syms : List Sym) (t : State) : Prop where
  inv : EncInv t.enc
  packed : wellFormed = true → t.enc.phase = .done ∧ t.enc.out.map Prod.snd = pack syms
  failed : wellFormed = false → t.enc.phase = .faulted

theorem encEnded_of_faulted {t : State} (inv : EncInv t.enc) (hp : t.enc.phase = .faulted) (syms : List Sym) :
    EncEnded false syms t where
  inv := inv
  packed h := nomatch h
  failed _ := hp

/-- `ENC_END` packs the scratch area, unless a surrogate still waits (R130, R131). -/
theorem Encoding.exec_encEnd {s : State} (h : Encoding s) :
    ∃ t, exec .encEnd s = .next t ∧ EncEnded (!s.enc.hsv) (scratchArea s.enc) t := by
  cases hsv : s.enc.hsv with
  | true =>
    have hexec := exec_encEnd_trailingHigh h.phase hsv
    exact ⟨_, hexec, encEnded_of_faulted (execEncEnd_keeps_encInv h.inv hexec) rfl _⟩
  | false =>
    have hexec := exec_encEnd_packed h.phase hsv (h.capFits_out _)
    have hempty : s.enc.out = [] := by
      have hdense := h.inv.out_dense
      rw [h.inv.len_zero (by rw [h.phase]; decide)] at hdense
      exact List.map_eq_nil_iff.1 hdense
    refine ⟨_, hexec, execEncEnd_keeps_encInv h.inv hexec, fun _ => ⟨rfl, ?_⟩, fun hbad => nomatch hbad⟩
    rw [scratchSyms_eq_scratchArea h.inv, State.setEnc_enc, packedEnc, hempty]
    exact map_snd_memWriteAll _ rfl

/-- The units of a text and then `ENC_END`, from anywhere in a call: by `TakesAsText` unit by unit. -/
theorem Encoding.runEvents_unitsThenEnd {s : State} (h : Encoding s) (text : List CodeUnit)
    (hroom : 3 * (s.enc.ucnt.toNat + text.length) ≤ lenMax) :
    ∃ t, runEvents (unitsThenEnd text) s = .next t ∧
      EncEnded (wellFormedFrom s.enc.hsv text) (scratchArea s.enc ++ textSyms (pendingUnit s.enc) text) t := by
  induction text generalizing s with
  | nil =>
    obtain ⟨t, hexec, inv, hpacked, hfailed⟩ := h.exec_encEnd
    refine ⟨t.setPending [], ?_, inv, ?_, hfailed⟩
    · rw [runEvents_unitsThenEnd_nil, hexec, thenOut_next, runEvents_nil]
    · rwa [textSyms, List.append_nil]
  | cons u rest ih =>
    rw [List.length_cons] at hroom
    rw [runEvents_unitsThenEnd_cons]
    rcases h.takesAsText (by omega) u with ⟨syms, hsv, hs, hexec, htext⟩ | ⟨cause, hexec, htext⟩
    · obtain ⟨hwell, hsyms⟩ := htext rest
      have hucnt := acceptedEnc_ucnt_toNat (e := s.enc) (by omega) syms hsv hs
      obtain ⟨t, hrun, hended⟩ := ih (h.accepted hexec) (by rw [State.setEnc_enc, hucnt]; omega)
      rw [State.setEnc_enc, scratchArea_accepted h.inv, List.append_assoc, ← hsyms] at hended
      rw [hexec, thenOut_next, hwell]
      exact ⟨t, hrun, hended⟩
    · rw [hexec, thenOut_next, runEvents_unitsThenEnd_faulted rfl, htext]
      have inv : EncInv (encRaise cause u s.enc.ucnt) := execEncUnit_keeps_encInv h.inv hexec
      exact ⟨_, rfl, encEnded_of_faulted inv rfl _⟩

/-- Settles O57: the call ends as the text functions say (`Encoding.runEvents_unitsThenEnd`), and its last reads answer
what the buffer then holds (`callsAnswerTheResultOrNothing`). -/
theorem encodeCallPacksTheClassifiedText : Obligations.EncodeCallPacksTheClassifiedText := by
  intro s text hscr hout hlen
  have hopened := encoding_opened hscr hout
  obtain ⟨t, hrun, inv, hpacked, hfailed⟩ := hopened.runEvents_unitsThenEnd text (by simpa using hlen)
  have hcall : encodeCall text s = .next (readEncResult t) := by
    rw [encodeCall_eq_opened, hrun, thenOut_next]
  obtain ⟨hdone, hnone, -, -, hframe, -⟩ := callsAnswerTheResultOrNothing t
  have henc : (readEncResult t).1.enc = t.enc := hframe
  rw [hcall]
  refine ⟨fun hwell => ?_, fun hill => ?_⟩
  · obtain ⟨hp, hbytes⟩ := hpacked hwell
    refine ⟨(readEncResult t).1, _, _, congrArg _ (Prod.ext rfl (hdone hp inv.out_dense)), hbytes, ?_, ?_⟩
    · rw [length_of_dense inv.out_dense]
    · rw [henc]
      exact ⟨hp, rfl, rfl, inv.out_dense⟩
  · have hp := hfailed hill
    refine ⟨(readEncResult t).1, congrArg _ (Prod.ext rfl (hnone (by rw [hp]; decide))), ?_⟩
    rw [henc]
    exact ⟨hp, inv.len_zero (by rw [hp]; decide)⟩

end Sys2Proof.Machine

/-! PROOFS, family 42_dec_unpacker. What `DEC_BYTE` does in an open call: the direct symbol, after the seventh byte of a
group the stolen one, and then the count. A symbol class or a byte on the wire is the `DEC_BYTE` that carries it. -/

namespace Sys2Proof.Machine

/-! ### DEC_PREPARE (R150) -/

/-- No register but `DEC_EXPECT` shows the hint, so `DEC_STATUS` is the one after `DEC_PREPARE 0`. -/
theorem decStatus_opened (n : Reg32) : decStatus (decOpened n) = 1 := by
  have hsame : decStatus (decOpened n) = decStatus (decOpened 0) := rfl
  rw [hsame]
  decide

/-- Settles O31: the command does not look at the state, and leaves `decOpened n`. -/
theorem decPrepareOpensACall : Obligations.DecPrepareOpensACall :=
  fun _ n => ⟨rfl, decStatus_opened n, rfl, rfl⟩

/-! ### The command that carries a class (log entry 3) -/

/-- The argument of a `DEC_BYTE` that is not the last is the byte below zeros (R62). -/
theorem zeros_append_byte : ∀ b : Byte, 0#24 ++ b = 0#23 ++ BitVec.cons false b := by
  decide

theorem zeros_append_sym : ∀ x : Sym, 0#25 ++ x = 0#23 ++ BitVec.cons false (encodePbyte false x) := by
  decide

theorem eventOf_unitOp (op : UnitOp) : eventOf op.toInstr = eventOf (.encUnit (encodeUnit op)) := by
  rw [eventOf, encode_unitOp]
  rfl

theorem eventOf_symOp (op : SymOp) :
    eventOf op.toInstr = eventOf (.decByte (encodePbyte false (encodeSym op)) false) := by
  rw [eventOf, encode_symOp, eventOf, encode, ← zeros_append_sym]

theorem eventOf_pbyte (hb : Bool) (x : Sym) :
    eventOf (.pbyte hb x) = eventOf (.decByte (encodePbyte hb x) false) := by
  rw [eventOf, encode, eventOf, encode, ← zeros_append_byte]

/-- `DEC_BYTE` of a byte given by its fields. -/
theorem exec_decByte_encodePbyte (hb fin : Bool) (x : Sym) (s : State) :
    exec (.decByte (encodePbyte hb x) fin) s = byteCommand hb fin (processSymbol s.caps.decOut x false) s := by
  rw [exec, execDecByte, pbyteHb_encodePbyte, pbyteSym_encodePbyte]

/-- Outside a code point a symbol decodes to the class that it encodes (R65). -/
theorem directOf_encodeSym {op : SymOp} (hwf : op.toInstr.wf = true) (hop : insideOf op = false) (cap : Option Nat) :
    directOf cap (encodeSym op) (symAct cap op false) = processSymbol cap (encodeSym op) false := by
  have hdecode := decodeSym_encodeSym hwf
  rw [hop] at hdecode
  rw [processSymbol_eq_directOf, hdecode]

/-- A class with the operands of R65 is the `DEC_BYTE` of its symbol. -/
theorem exec_symOp_eq_decByte {op : SymOp} (hwf : op.toInstr.wf = true) (s : State) :
    exec op.toInstr s = exec (.decByte (encodePbyte false (encodeSym op)) false) s := by
  rw [exec_decByte_encodePbyte]
  cases op with
  | trail payload => rfl
  | _ => rw [← directOf_encodeSym hwf rfl]; rfl

theorem takeEvent_unitOp {op : UnitOp} (hwf : op.toInstr.wf = true) (s : State) :
    takeEvent (eventOf op.toInstr) s = exec op.toInstr s := by
  rw [eventOf_unitOp, exec_unitOp_eq_encUnit hwf]
  exact takeEvent_cmd_of_decode (decode_encode_encUnit (encodeUnit op)) s

theorem takeEvent_symOp {op : SymOp} (hwf : op.toInstr.wf = true) (s : State) :
    takeEvent (eventOf op.toInstr) s = exec op.toInstr s := by
  rw [eventOf_symOp, exec_symOp_eq_decByte hwf, takeEvent_eventOf_decByte]

/-- Settles O8: a command by its round trip, a class by the command whose event it shares (`takeEvent_unitOp`,
`takeEvent_symOp`). -/
theorem classesRunAsTheCommandThatCarriesThem : Obligations.ClassesRunAsTheCommandThatCarriesThem := by
  intro i s hwf
  cases i with
  | encBegin => exact takeEvent_cmd_of_decode (decodeInvertsEncode .encBegin hwf) s
  | encUnit u => exact takeEvent_cmd_of_decode (decodeInvertsEncode (.encUnit u) hwf) s
  | encEnd => exact takeEvent_cmd_of_decode (decodeInvertsEncode .encEnd hwf) s
  | decPrepare n => exact takeEvent_cmd_of_decode (decodeInvertsEncode (.decPrepare n) hwf) s
  | decByte b fin => exact takeEvent_cmd_of_decode (decodeInvertsEncode (.decByte b fin) hwf) s
  | decFinish => exact takeEvent_cmd_of_decode (decodeInvertsEncode .decFinish hwf) s
  | eNul => exact takeEvent_unitOp (op := .nul) hwf s
  | eOvl raw => exact takeEvent_unitOp (op := .ovl raw) hwf s
  | eBel => exact takeEvent_unitOp (op := .bel) hwf s
  | eBs => exact takeEvent_unitOp (op := .bs) hwf s
  | eCtl ch => exact takeEvent_unitOp (op := .ctl ch) hwf s
  | eLit sym => exact takeEvent_unitOp (op := .lit sym) hwf s
  | eTwo hi lo => exact takeEvent_unitOp (op := .two hi lo) hwf s
  | eThree hi mid lo => exact takeEvent_unitOp (op := .three hi mid lo) hwf s
  | eHigh payload => exact takeEvent_unitOp (op := .high payload) hwf s
  | eLow payload => exact takeEvent_unitOp (op := .low payload) hwf s
  | dLead2 hi => exact takeEvent_symOp (op := .lead2 hi) hwf s
  | dLead3 hi => exact takeEvent_symOp (op := .lead3 hi) hwf s
  | dLead4 => exact takeEvent_symOp (op := .lead4) hwf s
  | dInvalid sym => exact takeEvent_symOp (op := .invalid sym) hwf s
  | dCtl sym => exact takeEvent_symOp (op := .ctl sym) hwf s
  | dBs => exact takeEvent_symOp (op := .bs) hwf s
  | dBel => exact takeEvent_symOp (op := .bel) hwf s
  | dLit sym => exact takeEvent_symOp (op := .lit sym) hwf s
  | dNul => exact takeEvent_symOp (op := .nul) hwf s
  | dTrail payload => exact takeEvent_symOp (op := .trail payload) hwf s
  | pbyte hb sym =>
    rw [eventOf_pbyte, takeEvent_eventOf_decByte, exec_decByte_encodePbyte]
    rfl

/-! ### DEC_BYTE, by how its symbols end (R152, R155)

An error ends the command before its count, so only a byte whose symbols go on asks for room in the counter (log entry
11). -/

theorem countByte_ok {fin : Bool} {d : Dec} (h : d.bcnt.toNat < lenMax) :
    countByte fin d = .ok { d with bcnt := d.bcnt + 1, fin := fin } := by
  rw [countByte, if_neg (by omega)]

section
variable {s : State} {b : Byte} {fin : Bool} {d d2 : Dec} (hp : s.dec.phase = .active) (hfin : s.dec.fin = false)
include hp hfin

/-- The direct symbol raises. -/
theorem exec_decByte_direct_raised
    (h : processSymbol s.caps.decOut (pbyteSym b) false (gatherBit (pbyteHb b) s.dec) = .raised d) :
    exec (.decByte b fin) s = .next (s.setDec d) := by
  rw [exec_decByte_active hp hfin, unpackByte, h, Result.raised_andThen, Result.raised_andThen, decOutcome_raised]

variable (h : processSymbol s.caps.decOut (pbyteSym b) false (gatherBit (pbyteHb b) s.dec) = .ok d)
include h

/-- The stolen symbol raises. -/
theorem exec_decByte_stolen_raised (hstolen : deliverStolen s.caps.decOut d = .raised d2) :
    exec (.decByte b fin) s = .next (s.setDec d2) := by
  rw [exec_decByte_active hp hfin, unpackByte, h, Result.ok_andThen, hstolen, Result.raised_andThen, decOutcome_raised]

/-- Both stretches go on, and the byte is counted. -/
theorem exec_decByte_counted (hstolen : deliverStolen s.caps.decOut d = .ok d2) (hcnt : s.dec.bcnt.toNat < lenMax) :
    exec (.decByte b fin) s = .next (s.setDec { d2 with bcnt := d2.bcnt + 1, fin := fin }) := by
  obtain ⟨-, -, -, -, hbcnt, -⟩ := processSymbol_frame h
  have hroom : d2.bcnt.toNat < lenMax := by rwa [(deliverStolen_frame hstolen).2, hbcnt, gatherBit_bcnt]
  rw [exec_decByte_active hp hfin, unpackByte, h, Result.ok_andThen, hstolen, Result.ok_andThen, countByte_ok hroom,
    decOutcome_ok]

end

/-- Settles O32: the direct symbol, then at stage 6 the stolen one (`deliverStolen_after_seventh`), then the count; each
can end the command (the lemmas `exec_decByte_*`). -/
theorem decByteProcessesDirectThenStolen : Obligations.DecByteProcessesDirectThenStolen := by
  intro s b fin hp hfin
  refine ⟨fun d h => exec_decByte_direct_raised hp hfin h, fun d h => ⟨fun hne hcnt => ?_, fun hsix => ?_⟩⟩
  · exact exec_decByte_counted hp hfin h (deliverStolen_before_seventh h hne) hcnt
  · have hdeliver := deliverStolen_after_seventh h hsix
    exact ⟨fun d2 h2 => exec_decByte_stolen_raised hp hfin h (hdeliver.trans h2),
      fun d2 h2 hcnt => exec_decByte_counted hp hfin h (hdeliver.trans h2) hcnt⟩

/-! ### The final byte (R156) -/

theorem byteCommand_after_fin {s : State} (hp : s.dec.phase = .active) (hfin : s.dec.fin = true) (hb fin : Bool)
    (direct : Dec → Result Dec) : byteCommand hb fin direct s = .refused .byteAfterFin := by
  rw [byteCommand, inCall_active hp, acceptByte, if_pos hfin, decOutcome_refused]

/-- A byte command that leaves its call open has counted its byte and taken its mark. -/
theorem byteCommand_counted {hb fin : Bool} {x : Sym} {op : SymOp} {s t : State}
    (h : byteCommand hb fin (directOf s.caps.decOut x (symAct s.caps.decOut op false)) s = .next t)
    (hp : s.dec.phase = .active) (ht : t.dec.phase = .active) :
    ∃ op' d1 d2, symAct s.caps.decOut op' false (gatherBit hb s.dec) = .ok d1 ∧
      deliverStolen s.caps.decOut d1 = .ok d2 ∧ d2.bcnt.toNat < lenMax ∧
      t = s.setDec { d2 with bcnt := d2.bcnt + 1, fin := fin } := by
  obtain ⟨op', hdirect⟩ := directOf_cases s.caps.decOut x op (gatherBit hb s.dec)
  rcases byteCommand_next h with ⟨hf, -⟩ | ⟨-, -, ⟨d, h1, rfl⟩ | ⟨d1, h1, ⟨d, h2, rfl⟩ | ⟨d2, h2, hcnt, rfl⟩⟩⟩
  · rw [hp] at hf; cases hf
  · rw [hdirect] at h1
    obtain ⟨cause, info, rfl⟩ := symAct_raised h1
    cases ht
  · obtain ⟨cause, info, -, rfl⟩ := deliverStolen_raised h2
    cases ht
  · exact ⟨op', d1, d2, hdirect ▸ h1, h2, hcnt, rfl⟩

/-- The symbols of a byte end its call if one of them raises. -/
theorem phase_of_unpack_raised {cap : Option Nat} {hb : Bool} {x : Sym} {d d' : Dec}
    (h : (processSymbol cap x false (gatherBit hb d)).andThen (deliverStolen cap) = .raised d') :
    d'.phase = .faulted := by
  rcases Result.andThen_raised h with h1 | ⟨d1, -, h2⟩
  · obtain ⟨cause, info, -, rfl⟩ := processSymbol_raised h1
    rfl
  · obtain ⟨cause, info, -, rfl⟩ := deliverStolen_raised h2
    rfl

/-- The machine with its final byte taken, if its call is still open. -/
def State.closed (t : State) : State := if t.dec.phase = .active then t.setDec { t.dec with fin := true } else t

theorem State.closed_of_active {t : State} (h : t.dec.phase = .active) :
    t.closed = t.setDec { t.dec with fin := true } := if_pos h

theorem State.closed_of_not_active {t : State} (h : t.dec.phase ≠ .active) : t.closed = t := if_neg h

theorem countByte_true (s : State) {d : Dec} (hp : d.phase = .active) :
    decOutcome s (countByte true d) = mapNext State.closed (decOutcome s (countByte false d)) := by
  rcases countByte_cases false d with ⟨hcnt, hk⟩ | ⟨hfull, hk⟩
  · rw [hk, countByte_ok hcnt, decOutcome_ok, decOutcome_ok, mapNext, State.closed_of_active (by exact hp)]
    rfl
  · rw [hk, countByte_full hfull]
    rfl

theorem exec_decByte_true {s : State} (hp : s.dec.phase = .active) (b : Byte) :
    exec (.decByte b true) s = mapNext State.closed (exec (.decByte b false) s) := by
  cases hfin : s.dec.fin with
  | true =>
    rw [exec_decByte_after_fin hp hfin, exec_decByte_after_fin hp hfin]
    rfl
  | false =>
    rw [exec_decByte_active hp hfin, exec_decByte_active hp hfin, unpackByte, unpackByte]
    cases h : (processSymbol s.caps.decOut (pbyteSym b) false (gatherBit (pbyteHb b) s.dec)).andThen
        (deliverStolen s.caps.decOut) with
    | ok d => exact countByte_true s ((phase_of_unpacked h).trans hp)
    | raised d =>
      have hne : (s.setDec d).dec.phase ≠ .active := by rw [State.setDec_dec, phase_of_unpack_raised h]; decide
      rw [Result.raised_andThen, Result.raised_andThen, decOutcome_raised, mapNext, State.closed_of_not_active hne]
    | refused why => rfl

/-- Settles O44: the refusal (`byteCommand_after_fin`), the two forms of a byte (`exec_decByte_true`), the mark of a
byte that was counted, and `DEC_FINISH`, which reads other registers (`exec_decFinish_congr`). -/
theorem finalByteClosesTheStream : Obligations.FinalByteClosesTheStream := by
  intro s hp
  refine ⟨fun i hi hfin => ?_, exec_decByte_true hp, fun b fin t h ht => ?_, fun fin => ?_⟩
  · obtain ⟨op, fin, hexec⟩ := exec_of_isByteInstr hi
    rw [hexec, byteCommand_after_fin hp hfin]
  · rw [exec, execDecByte, processSymbol_eq_directOf] at h
    obtain ⟨op', d1, d2, -, -, -, rfl⟩ := byteCommand_counted h hp ht
    rfl
  · exact exec_decFinish_congr (s := s) (d' := { s.dec with fin := fin }) hp hp rfl

/-! ### The frame of a byte (R19, R20, R45, R51, R152, R153) -/

/-- The output buffer has only grown at its end (R45). -/
def Extends (d d' : Dec) : Prop :=
  d.len.toNat ≤ d'.len.toNat ∧ ∀ a, a < d.len.toNat ∨ d'.len.toNat ≤ a → memRead d'.out a = memRead d.out a

theorem Extends.of_same {d d' : Dec} (hout : d'.out = d.out) (hlen : d'.len = d.len) : Extends d d' :=
  ⟨by rw [hlen], fun a _ => by rw [hout]⟩

theorem Extends.trans {d d1 d2 : Dec} (h1 : Extends d d1) (h2 : Extends d1 d2) : Extends d d2 := by
  obtain ⟨hlen1, hread1⟩ := h1
  obtain ⟨hlen2, hread2⟩ := h2
  exact ⟨by omega, fun a ha => (hread2 a (by omega)).trans (hread1 a (by omega))⟩

theorem emitUnit_extends {cap : Option Nat} {w : CodeUnit} {d d' : Dec} (h : emitUnit cap w d = .ok d') :
    Extends d d' := by
  rcases emitUnit_cases cap w d with ⟨hfit, hk⟩ | ⟨why, hk, -⟩ <;> rw [hk] at h <;> cases h
  have hlen := add_one_toNat_of_fits (k := 0) hfit
  refine ⟨by simp only [hlen]; omega, fun a ha => ?_⟩
  simp only [hlen] at ha
  rw [memRead_memWrite, if_neg (by omega)]

theorem emitCodePoint_extends {cap : Option Nat} {c : Reg32} {stolen : Bool} {d d' : Dec}
    (h : emitCodePoint cap c stolen d = .ok d') : Extends d d' := by
  unfold emitCodePoint at h
  split_ifs at h
  · exact emitUnit_extends h
  · obtain ⟨d1, hhigh, hlow⟩ := Result.andThen_ok h
    exact (emitUnit_extends hhigh).trans (emitUnit_extends hlow)

theorem symTrail_extends {cap : Option Nat} {x : Sym} {stolen : Bool} {d d' : Dec}
    (h : symTrail cap x stolen d = .ok d') : Extends d d' := by
  obtain ⟨-, -, ⟨-, -, -, hemit⟩ | ⟨-, rfl⟩⟩ := symTrail_ok h
  · exact emitCodePoint_extends (d := { d with ph := false, rem := 0, cp := 0 }) hemit
  · exact .of_same rfl rfl

/-- A class of symbols that goes on only adds to the text. -/
theorem symAct_extends {cap : Option Nat} {op : SymOp} {stolen : Bool} {d d' : Dec}
    (h : symAct cap op stolen d = .ok d') : Extends d d' := by
  cases op with
  | lead2 hi => cases h; exact .of_same rfl rfl
  | lead3 hi => cases h; exact .of_same rfl rfl
  | lead4 => cases h; exact .of_same rfl rfl
  | invalid sym => cases h
  | trail payload => exact symTrail_extends h
  | _ => exact emitUnit_extends (d := { d with ph := false }) h

/-- A class of symbols accounts for at most one unit, whatever symbol it is run for (R158). -/
theorem symAct_unitsDue_le {cap : Option Nat} {op : SymOp} {stolen : Bool} {d d' : Dec}
    (h : symAct cap op stolen d = .ok d') : d'.unitsDue ≤ d.unitsDue + 1 := by
  cases op with
  | lead2 hi => cases h; exact Dec.unitsDue_le_of_len rfl
  | lead3 hi => cases h; exact Dec.unitsDue_le_of_len rfl
  | lead4 => cases h; exact Dec.unitsDue_le_of_len rfl
  | invalid sym => cases h
  | trail payload => exact symTrail_unitsDue_le h
  | _ => exact (emitUnit_unitsDue (d := { d with ph := false }) h).le

/-- What a stolen symbol that goes on does: it adds to the text at most what it accounts for, and the group starts anew
after the seventh byte. -/
theorem deliverStolen_ok {cap : Option Nat} {d d' : Dec} (h : deliverStolen cap d = .ok d') :
    Extends d d' ∧ d'.unitsDue ≤ d.unitsDue + 1 ∧
      SameGroup { d with
        stage := if d.stage = 7 then 0 else d.stage, stolen := if d.stage = 7 then 0 else d.stolen } d' := by
  rcases deliverStolen_cases cap d with ⟨hseven, hk⟩ | ⟨hne, hk⟩ <;> rw [hk] at h
  · rw [if_pos hseven, if_pos hseven]
    exact ⟨symAct_extends (d := { d with stolen := 0, stage := 0 }) h,
      symAct_unitsDue_le (d := { d with stolen := 0, stage := 0 }) h,
      processSymbol_frame (d := { d with stolen := 0, stage := 0 }) h⟩
  · cases h
    rw [if_neg hne, if_neg hne]
    exact ⟨.of_same rfl rfl, by omega, by simp [SameGroup]⟩

/-- Both symbols of a byte together write at most three units: two more than were due, and one was due at most (R51). -/
theorem len_le_of_unitsDue {d d' : Dec} (h : d'.unitsDue ≤ d.unitsDue + 2) : d'.len.toNat ≤ d.len.toNat + 3 := by
  unfold Dec.unitsDue at h
  split_ifs at h <;> omega

/-- The seventh byte of a group is met at stage 6 (R20). -/
theorem stage_add_one_eq_seven_iff : ∀ stage : BitVec 3, stage + 1 = 7 ↔ stage = 6 := by
  decide

/-- What a byte that was counted has left unchanged, and where its stolen bit went. -/
def ByteFrame (hb : Bool) (d d' : Dec) : Prop :=
  Extends d d' ∧ d'.len.toNat ≤ d.len.toNat + 3 ∧ d'.bcnt.toNat = d.bcnt.toNat + 1 ∧
    d'.expect = d.expect ∧ d'.cause = d.cause ∧ d'.einfo = d.einfo ∧ d'.eidx = d.eidx ∧
    d'.stage = (if d.stage = 6 then 0 else d.stage + 1) ∧
    d'.stolen = (if d.stage = 6 then 0 else shiftStolen d.stolen hb)

theorem byteFrame_of_counted {cap : Option Nat} {hb : Bool} {op : SymOp} {d d1 d2 : Dec}
    (h1 : symAct cap op false (gatherBit hb d) = .ok d1) (h2 : deliverStolen cap d1 = .ok d2)
    (hcnt : d2.bcnt.toNat < lenMax) (fin : Bool) : ByteFrame hb d { d2 with bcnt := d2.bcnt + 1, fin := fin } := by
  obtain ⟨-, hstage1, hstolen1, -, hbcnt1, hexpect1, hcause1, heinfo1, heidx1⟩ := symAct_frame h1
  obtain ⟨hext2, hdue2, -, hstage2, hstolen2, -, hbcnt2, hexpect2, hcause2, heinfo2, heidx2⟩ := deliverStolen_ok h2
  have hext : Extends (gatherBit hb d) d2 := (symAct_extends h1).trans hext2
  have hdue1 : d1.unitsDue ≤ d.unitsDue + 1 := symAct_unitsDue_le (d := gatherBit hb d) h1
  have hsucc : (d2.bcnt + 1).toNat = d.bcnt.toNat + 1 := by
    have hbcnt : d2.bcnt = d.bcnt := hbcnt2.trans hbcnt1
    rw [hbcnt] at hcnt ⊢
    simp only [lenMax] at hcnt
    bv_omega
  have hthree : d2.len.toNat ≤ d.len.toNat + 3 := len_le_of_unitsDue (by omega)
  refine ⟨hext, hthree, hsucc, hexpect2.trans hexpect1, hcause2.trans hcause1, heinfo2.trans heinfo1,
    heidx2.trans heidx1, hstage2.trans ?_, hstolen2.trans ?_⟩
  · simp only [hstage1, gatherBit_stage, stage_add_one_eq_seven_iff]
  · simp only [hstage1, gatherBit_stage, stage_add_one_eq_seven_iff, hstolen1, gatherBit_stolen]

/-- Settles O42: the command has counted its byte (`byteCommand_counted`), and both its symbols leave the frame
(`byteFrame_of_counted`). -/
theorem byteCommandFrame : Obligations.ByteCommandFrame := by
  intro i s t hi hp h ht hb
  have hhb : hb = hbOfInstr i := by cases i <;> rfl
  obtain ⟨op, fin, hexec⟩ := exec_of_isByteInstr hi
  rw [hexec, ← hhb] at h
  obtain ⟨op', d1, d2, h1, h2, hcnt, rfl⟩ := byteCommand_counted h hp ht
  obtain ⟨⟨hlen, hread⟩, hthree, hbcnt, hexpect, hcause, heinfo, heidx, hstage, hstolen⟩ :=
    byteFrame_of_counted h1 h2 hcnt fin
  refine ⟨hread, hlen, hthree, hbcnt, fun hne => ?_, fun hsix => ?_, hexpect, hcause, heinfo, heidx, rfl, rfl, rfl, rfl,
    rfl⟩
  · rw [if_neg hne] at hstage hstolen
    exact ⟨hstage, hstolen⟩
  · rw [if_pos hsix] at hstage hstolen
    exact ⟨hstage, hstolen⟩

/-! ### A full group (R133, R154, R155, R157)

A symbol that goes on neither reads nor writes the unpacker's registers. So the symbols of a group can be followed on
one decoder, and the place in the group put beside them. -/

/-- The decoder at a place of a call before its final byte: so many bytes of the group, their stolen bits, and so many
bytes of the call. -/
def Dec.placed (stage : BitVec 3) (stolen : Byte) (bcnt : Reg32) (d : Dec) : Dec :=
  { d with stage := stage, stolen := stolen, bcnt := bcnt, fin := false }

section
variable {stage : BitVec 3} {stolen : Byte} {n : Reg32} {cap : Option Nat} {flag : Bool} {d d' : Dec}

theorem emitUnit_placed {w : CodeUnit} (h : emitUnit cap w d = .ok d') :
    emitUnit cap w (d.placed stage stolen n) = .ok (d'.placed stage stolen n) := by
  rcases emitUnit_cases cap w d with ⟨hfit, hk⟩ | ⟨why, hk, -⟩ <;> rw [hk] at h <;> cases h
  exact emitUnit_ok (d := d.placed stage stolen n) hfit

theorem emitCodePoint_placed {c : Reg32} (h : emitCodePoint cap c flag d = .ok d') :
    emitCodePoint cap c flag (d.placed stage stolen n) = .ok (d'.placed stage stolen n) := by
  unfold emitCodePoint at h ⊢
  split_ifs at h ⊢
  · exact emitUnit_placed h
  · obtain ⟨d1, hhigh, hlow⟩ := Result.andThen_ok h
    rw [emitUnit_placed hhigh, Result.ok_andThen, emitUnit_placed hlow]

theorem symTrail_placed {x : Sym} (h : symTrail cap x flag d = .ok d') :
    symTrail cap x flag (d.placed stage stolen n) = .ok (d'.placed stage stolen n) := by
  obtain ⟨-, -, ⟨hrem, -, -, hemit⟩ | ⟨hrem, rfl⟩⟩ := symTrail_ok h
  · rw [symTrail_last (d := d.placed stage stolen n) hrem]
    exact emitCodePoint_placed (d := { d with ph := false, rem := 0, cp := 0 }) hemit
  · rw [symTrail]
    exact if_neg hrem

theorem symAct_placed {op : SymOp} (h : symAct cap op flag d = .ok d') :
    symAct cap op flag (d.placed stage stolen n) = .ok (d'.placed stage stolen n) := by
  cases op with
  | lead2 hi => cases h; rfl
  | lead3 hi => cases h; rfl
  | lead4 => cases h; rfl
  | invalid sym => cases h
  | trail payload => exact symTrail_placed h
  | _ => exact emitUnit_placed (d := { d with ph := false }) h

/-- A symbol that goes on does so at any place. -/
theorem processSymbol_placed {x : Sym} (h : processSymbol cap x flag d = .ok d') :
    processSymbol cap x flag (d.placed stage stolen n) = .ok (d'.placed stage stolen n) :=
  symAct_placed h

end

theorem Dec.placed_of_eq {stage : BitVec 3} {stolen : Byte} {d : Dec} (hstage : d.stage = stage)
    (hstolen : d.stolen = stolen) (hfin : d.fin = false) (n : Reg32) :
    d.placed stage stolen n = { d with bcnt := n } := by
  rw [Dec.placed, ← hstage, ← hstolen, ← hfin]

/-- Symbols that go on leave the unpacker's registers alone (R170). -/
theorem feedSyms_frame {cap : Option Nat} {l : List (Sym × Bool)} {d d' : Dec} (h : feedSyms cap l d = .ok d') :
    SameGroup d d' := by
  induction l generalizing d with
  | nil => cases h; simp [SameGroup]
  | cons p rest ih =>
    obtain ⟨d1, h1, h2⟩ := Result.andThen_ok h
    have hfirst := processSymbol_frame h1
    have hrest := ih h2
    simp only [SameGroup] at *
    simp only [hrest, hfirst, and_self]

theorem feedSyms_append {cap : Option Nat} {a b : List (Sym × Bool)} {d d' : Dec}
    (h : feedSyms cap (a ++ b) d = .ok d') : ∃ d1, feedSyms cap a d = .ok d1 ∧ feedSyms cap b d1 = .ok d' := by
  induction a generalizing d with
  | nil => exact ⟨d, rfl, h⟩
  | cons p rest ih =>
    obtain ⟨d0, h0, h⟩ := Result.andThen_ok h
    obtain ⟨d1, h1, h2⟩ := ih h
    exact ⟨d1, by rw [feedSyms, h0, Result.ok_andThen, h1], h2⟩

section
variable {s : State} {stage : BitVec 3} {stolen : Byte} {n : Reg32} {b : Byte} {d d1 : Dec} (hp : d.phase = .active)
  (hcnt : n.toNat < lenMax) (h : processSymbol s.caps.decOut (pbyteSym b) false d = .ok d1)
include hp hcnt h

/-- A byte before the seventh moves its symbol on by one place (R152). -/
theorem exec_decByte_placed (hne : stage ≠ 6) :
    exec (.decByte b false) (s.setDec (d.placed stage stolen n)) =
      .next (s.setDec (d1.placed (stage + 1) (shiftStolen stolen (pbyteHb b)) (n + 1))) := by
  have hdirect : processSymbol s.caps.decOut (pbyteSym b) false (gatherBit (pbyteHb b) (d.placed stage stolen n)) =
      .ok (d1.placed (stage + 1) (shiftStolen stolen (pbyteHb b)) n) := processSymbol_placed (d := d) h
  exact exec_decByte_counted (s := s.setDec (d.placed stage stolen n)) (fin := false) hp rfl hdirect
    (deliverStolen_before_seventh (s := s.setDec (d.placed stage stolen n)) hdirect hne) hcnt

/-- The seventh byte moves its symbol and the stolen one on to the next group (R155). -/
theorem exec_decByte_placed_seventh {d2 : Dec}
    (hstolen : processSymbol s.caps.decOut (stolenSym (shiftStolen stolen (pbyteHb b))) true d1 = .ok d2) :
    exec (.decByte b false) (s.setDec (d.placed 6 stolen n)) = .next (s.setDec (d2.placed 0 0 (n + 1))) := by
  have hdirect : processSymbol s.caps.decOut (pbyteSym b) false (gatherBit (pbyteHb b) (d.placed 6 stolen n)) =
      .ok (d1.placed 7 (shiftStolen stolen (pbyteHb b)) n) := processSymbol_placed (d := d) h
  have hdeliver : deliverStolen s.caps.decOut (d1.placed 7 (shiftStolen stolen (pbyteHb b)) n) =
      .ok (d2.placed 0 0 n) := processSymbol_placed (d := d1) hstolen
  exact exec_decByte_counted (s := s.setDec (d.placed 6 stolen n)) (fin := false) hp rfl hdirect hdeliver hcnt

end

/-- Bytes of one group before its seventh feed their symbols and gather their stolen bits (R152, R154). -/
theorem runEvents_bytes_placed {s : State} {stage : BitVec 3} {stolen : Byte} {n : Reg32} {bytes : List Byte}
    {d d' : Dec} (hp : d.phase = .active) (hstage : stage.toNat + bytes.length ≤ 6)
    (hcnt : n.toNat + bytes.length ≤ lenMax)
    (h : feedSyms s.caps.decOut (bytes.map fun b => (pbyteSym b, false)) d = .ok d') :
    runEvents (bytes.map fun b => eventOf (.decByte b false)) (s.setDec (d.placed stage stolen n)) =
      .next ((s.setPending []).setDec (d'.placed (stage + BitVec.ofNat 3 bytes.length)
        ((bytes.map pbyteHb).foldl shiftStolen stolen) (n + BitVec.ofNat 32 bytes.length))) := by
  induction bytes generalizing stage stolen n d with
  | nil =>
    cases h
    simp only [List.map_nil, List.length_nil, List.foldl_nil, BitVec.add_zero, runEvents_nil]
    rfl
  | cons b rest ih =>
    obtain ⟨d1, h1, h2⟩ := Result.andThen_ok h
    simp only [List.length_cons, lenMax] at hstage hcnt
    have hp1 : d1.phase = .active := (processSymbol_frame h1).1.trans hp
    have hstep := exec_decByte_placed (stage := stage) (stolen := stolen) (n := n) hp
      (by simp only [lenMax]; omega) h1 (by bv_omega)
    have hstage1 : stage + BitVec.ofNat 3 (rest.length + 1) = stage + 1 + BitVec.ofNat 3 rest.length := by bv_omega
    have hn1 : n + BitVec.ofNat 32 (rest.length + 1) = n + 1 + BitVec.ofNat 32 rest.length := by bv_omega
    rw [List.map_cons, runEvents_cons_eq, takeEvent_eventOf_decByte, hstep, thenOut_next,
      ih hp1 (by bv_omega) (by simp only [lenMax]; bv_omega) h2, List.length_cons, hstage1, hn1]
    rfl

/-- Seven bytes from a group's boundary feed their seven symbols and then the stolen one that their high bits spell
(R154, R155). -/
theorem runEvents_seven_bytes {s : State} {front : List Byte} {b : Byte} {x : Sym} {n : Reg32} {d d' : Dec}
    (hp : d.phase = .active) (hlen : front.length = 6) (hcnt : n.toNat + 7 ≤ lenMax)
    (hx : stolenSym (((front ++ [b]).map pbyteHb).foldl shiftStolen 0) = x)
    (h : feedSyms s.caps.decOut (front.map (fun b => (pbyteSym b, false)) ++ [(pbyteSym b, false), (x, true)]) d =
      .ok d') :
    runEvents ((front ++ [b]).map fun b => eventOf (.decByte b false)) (s.setDec (d.placed 0 0 n)) =
      .next ((s.setPending []).setDec (d'.placed 0 0 (n + 7))) := by
  obtain ⟨d6, hfront, hback⟩ := feedSyms_append h
  obtain ⟨d7, hseventh, hback⟩ := Result.andThen_ok hback
  obtain ⟨d8, hstolen, hnil⟩ := Result.andThen_ok hback
  cases hnil
  simp only [lenMax] at hcnt
  have hp6 : d6.phase = .active := (feedSyms_frame hfront).1.trans hp
  have hsix := runEvents_bytes_placed (stage := 0) (stolen := 0) (n := n) hp (by simp [hlen])
    (by simp only [lenMax]; omega) hfront
  rw [hlen] at hsix
  rw [List.map_append, List.map_singleton, List.foldl_append, List.foldl_cons, List.foldl_nil] at hx
  subst hx
  have hlast := exec_decByte_placed_seventh (s := s.setPending []) (n := n + 6) hp6
    (by simp only [lenMax]; bv_omega) hseventh hstolen
  have hn : n + 6 + 1 = n + 7 := by bv_omega
  rw [hn] at hlast
  rw [List.map_append, List.map_singleton, runEvents_append, hsix, thenOut_next, runEvents_cons_eq,
    takeEvent_eventOf_decByte]
  exact congrArg (thenOut · (runEvents [])) hlast

/-- The fields of a group's byte (R133). -/
theorem pbyteSym_groupByte (i : Nat) (x s7 : Sym) : pbyteSym (groupByte i x s7) = x :=
  pbyteSym_encodePbyte _ x

theorem pbyteHb_groupByte (i : Nat) (x s7 : Sym) : pbyteHb (groupByte i x s7) = s7.getLsbD (6 - i) :=
  pbyteHb_encodePbyte _ x

/-- The high bits of a group's bytes spell its eighth symbol (R133, R155). -/
theorem stolenSym_group : ∀ s0 s1 s2 s3 s4 s5 s6 s7 : Sym,
    stolenSym (((group s0 s1 s2 s3 s4 s5 s6 s7).map pbyteHb).foldl shiftStolen 0) = s7 := by
  have hbits : ∀ s7 : Sym, stolenSym (([6, 5, 4, 3, 2, 1, 0].map s7.getLsbD).foldl shiftStolen 0) = s7 := by decide
  intro s0 s1 s2 s3 s4 s5 s6 s7
  simpa only [group, List.map_cons, List.map_nil, pbyteHb_groupByte] using hbits s7

/-- A packed group fed from a boundary is its eight symbols (R157). -/
theorem runEvents_group {s : State} {s0 s1 s2 s3 s4 s5 s6 s7 : Sym} {n : Reg32} {d d' : Dec} (hp : d.phase = .active)
    (hcnt : n.toNat + 7 ≤ lenMax)
    (h : feedSyms s.caps.decOut ([s0, s1, s2, s3, s4, s5].map (·, false) ++ [(s6, false), (s7, true)]) d = .ok d') :
    runEvents ((group s0 s1 s2 s3 s4 s5 s6 s7).map fun b => eventOf (.decByte b false)) (s.setDec (d.placed 0 0 n)) =
      .next ((s.setPending []).setDec (d'.placed 0 0 (n + 7))) := by
  refine runEvents_seven_bytes (front := (group s0 s1 s2 s3 s4 s5 s6 s7).dropLast) hp rfl hcnt
    (stolenSym_group s0 s1 s2 s3 s4 s5 s6 s7) ?_
  simpa only [group, List.dropLast, List.map_cons, List.map_nil, pbyteSym_groupByte] using h

/-- Settles O43: the group is fed from the boundary where the call stands (`runEvents_group`), and leaves the decoder at
the next one (`feedSyms_frame`). -/
theorem fullGroupFeedsItsEightSymbols : Obligations.FullGroupFeedsItsEightSymbols := by
  intro s s0 s1 s2 s3 s4 s5 s6 s7 d hp hfin hstage hstolen hcnt h
  obtain ⟨-, hstage', hstolen', hfin', -⟩ := feedSyms_frame h
  have hrun := runEvents_group (s := s) (d := s.dec) hp hcnt h
  rwa [Dec.placed_of_eq hstage hstolen hfin,
    Dec.placed_of_eq (hstage'.trans hstage) (hstolen'.trans hstolen) (hfin'.trans hfin)] at hrun

end Sys2Proof.Machine

/-! PROOFS, family 43_dec_accumulator. What each symbol does, direct or stolen, and the byte that carries it; and the
round trip of a text, whose symbols the accumulator reads back unit by unit. -/

namespace Sys2Proof.Machine

/-! ### The error record (R202) -/

/-- The record by its fields. -/
theorem decInfo_toNat (value : BitVec 21) (stolen : Bool) (rem : BitVec 2) :
    (decInfo value stolen rem).toNat = value.toNat + stolen.toNat * 2 ^ 24 + rem.toNat * 2 ^ 28 := by
  simp only [decInfo, toNat_append_eq_add, BitVec.toNat_ofBool, BitVec.toNat_zero]
  omega

theorem decInfo_eq (value : BitVec 21) (stolen : Bool) (rem : BitVec 2) :
    decInfo value stolen rem =
      BitVec.ofNat 32 (value.toNat + (if stolen then 2 ^ 24 else 0) + rem.toNat * 2 ^ 28) := by
  rw [← bit_toNat_mul, ← decInfo_toNat, BitVec.ofNat_toNat, BitVec.setWidth_eq]

/-- The record of an error that a symbol raises (R180, R184). -/
theorem decInfo_symbol (value : BitVec 21) (stolen : Bool) :
    decInfo value stolen 0 = BitVec.ofNat 32 (value.toNat + if stolen then 2 ^ 24 else 0) := by
  have hrem : (0 : BitVec 2).toNat = 0 := rfl
  rw [decInfo_eq, hrem, Nat.zero_mul, Nat.add_zero]

/-- The low 21 bits of a code point register, as a record takes them. -/
theorem extractLsb'_value_toNat (c : Reg32) : (c.extractLsb' 0 21).toNat = c.toNat % 2 ^ 21 := by
  rw [BitVec.extractLsb'_toNat, Nat.shiftRight_zero]

/-! ### Units written (R189) -/

/-- The decoder with units appended to its text. -/
def Dec.wrote (ws : List CodeUnit) (d : Dec) : Dec :=
  { d with out := memWriteAll d.out d.len.toNat ws, len := d.len + BitVec.ofNat 32 ws.length }

theorem Dec.wrote_nil (d : Dec) : d.wrote [] = d := by
  simp [wrote, memWriteAll]

theorem memWriteAll_append {w : Nat} (a b : List (BitVec w)) (m : Memory w) (i : Nat) :
    memWriteAll m i (a ++ b) = memWriteAll (memWriteAll m i a) (i + a.length) b := by
  induction a generalizing m i with
  | nil => rfl
  | cons v t ih => rw [List.cons_append, memWriteAll, ih, List.length_cons, Nat.add_right_comm, Nat.add_assoc]; rfl

theorem Dec.wrote_len_toNat {ws : List CodeUnit} {d : Dec} (h : d.len.toNat + ws.length ≤ lenMax) :
    (d.wrote ws).len.toNat = d.len.toNat + ws.length := by
  simp only [lenMax] at h
  simp only [wrote, BitVec.toNat_add, BitVec.toNat_ofNat]
  omega

theorem Dec.wrote_wrote {a : List CodeUnit} {d : Dec} (h : d.len.toNat + a.length ≤ lenMax) (b : List CodeUnit) :
    (d.wrote a).wrote b = d.wrote (a ++ b) := by
  have hlen := wrote_len_toNat h
  rw [wrote, hlen]
  simp only [wrote, memWriteAll_append, List.length_append, BitVec.ofNat_add, BitVec.add_assoc]

/-! ### A symbol that is classified (R65, R170) -/

/-- Met outside a code point, the symbol of a class runs that class. -/
theorem processSymbol_encodeSym {op : SymOp} {d : Dec} (hwf : op.toInstr.wf = true) (hop : insideOf op = false)
    (hrem : d.rem = 0) (cap : Option Nat) (stolen : Bool) :
    processSymbol cap (encodeSym op) stolen d = symAct cap op stolen d := by
  have hdecode := decodeSym_encodeSym hwf
  rw [hop] at hdecode
  rw [processSymbol_classified cap _ stolen d hrem, hdecode]

/-- The code unit that a class of R172 to R176 stands for, 0 for any other class. -/
def unitOfSym : SymOp → CodeUnit
  | .lit sym => BitVec.ofNat 16 sym.toNat
  | .ctl sym => BitVec.ofNat 16 (sym.toNat - 0x10)
  | .nul => 0x0000
  | .bel => 0x0007
  | .bs => 0x0008
  | .lead2 _ => 0
  | .lead3 _ => 0
  | .lead4 => 0
  | .invalid _ => 0
  | .trail _ => 0

theorem sub_ctlOffset_setWidth {sym : Sym} (h : isControlSymbol sym = true) :
    (sym - ctlOffset).setWidth 16 = BitVec.ofNat 16 (sym.toNat - 0x10) := by
  simp only [isControlSymbol, Bool.and_eq_true, decide_eq_true_eq] at h
  have hle : ctlOffset ≤ sym := BitVec.le_def.2 (show 0x10 ≤ sym.toNat by omega)
  have hsub : (sym - ctlOffset).toNat = sym.toNat - 0x10 := BitVec.toNat_sub_of_le hle
  rw [← hsub, BitVec.ofNat_toNat]

/-- A class that writes one unit writes the unit it stands for (R172 to R176). -/
theorem symAct_writesUnit {op : SymOp} {cap : Option Nat} {d : Dec} (hop : writesUnit op = true)
    (hwf : op.toInstr.wf = true) (hfit : UnitsFit cap d 1) (stolen : Bool) :
    symAct cap op stolen d = .ok (Dec.wrote [unitOfSym op] { d with ph := false }) := by
  have hact : symAct cap op stolen d = emitUnit cap (unitOfSym op) { d with ph := false } := by
    cases op with
    | lit sym => simp only [symAct, symLit, unitOfSym, BitVec.ofNat_toNat]
    | ctl sym => rw [symAct, symCtl, sub_ctlOffset_setWidth hwf, unitOfSym]
    | nul => rfl
    | bel => rfl
    | bs => rfl
    | lead2 hi => cases hop
    | lead3 hi => cases hop
    | lead4 => cases hop
    | invalid sym => cases hop
    | trail payload => cases hop
  rw [hact]
  exact emitUnit_ok (d := { d with ph := false }) hfit

theorem insideOf_of_writesUnit {op : SymOp} (hop : writesUnit op = true) : insideOf op = false := by
  cases op with
  | trail payload => cases hop
  | _ => rfl

/-- The symbol of such a class, direct or stolen. -/
theorem processSymbol_writesUnit {op : SymOp} {cap : Option Nat} {d : Dec} (hop : writesUnit op = true)
    (hwf : op.toInstr.wf = true) (hrem : d.rem = 0) (hfit : UnitsFit cap d 1) (stolen : Bool) :
    processSymbol cap (encodeSym op) stolen d = .ok (Dec.wrote [unitOfSym op] { d with ph := false }) := by
  rw [processSymbol_encodeSym hwf (insideOf_of_writesUnit hop) hrem, symAct_writesUnit hop hwf hfit]

/-- Settles O33: five classes that write the unit they stand for (`processSymbol_writesUnit`). -/
theorem singleSymbolsEmitTheirUnit : Obligations.SingleSymbolsEmitTheirUnit := by
  intro cap stolen d hrem hfit
  refine ⟨fun x hx => ?_, fun x hx => ?_, ?_, ?_, ?_⟩
  · exact processSymbol_writesUnit (op := .lit x) rfl hx hrem hfit stolen
  · exact processSymbol_writesUnit (op := .ctl x) rfl hx hrem hfit stolen
  · exact processSymbol_writesUnit (op := .nul) rfl rfl hrem hfit stolen
  · exact processSymbol_writesUnit (op := .bel) rfl rfl hrem hfit stolen
  · exact processSymbol_writesUnit (op := .bs) rfl rfl hrem hfit stolen

/-! ### Leads (R177 to R179) -/

theorem seedTwo_eq (h : BitVec 4) : seedTwo h = BitVec.ofNat 32 (h.toNat * 2 ^ 7) := by
  rw [← seedTwo_toNat, BitVec.ofNat_toNat, BitVec.setWidth_eq]

theorem seedThree_eq (h : BitVec 2) : seedThree h = BitVec.ofNat 32 (h.toNat * 2 ^ 14) := by
  rw [← seedThree_toNat, BitVec.ofNat_toNat, BitVec.setWidth_eq]

section
variable {d : Dec} (hrem : d.rem = 0) (cap : Option Nat) (stolen : Bool)
include hrem

theorem processSymbol_lead2 (h : BitVec 4) :
    processSymbol cap (encodeSym (.lead2 h)) stolen d =
      .ok { d with
        ph := phantomFlag stolen (encodeSym (.lead2 h)), rem := 1, cp := BitVec.ofNat 32 (h.toNat * 2 ^ 7) } := by
  rw [processSymbol_encodeSym rfl rfl hrem, symAct, symLead2, seedTwo_eq]

theorem processSymbol_lead3 (h : BitVec 2) :
    processSymbol cap (encodeSym (.lead3 h)) stolen d =
      .ok { d with ph := false, rem := 2, cp := BitVec.ofNat 32 (h.toNat * 2 ^ 14) } := by
  rw [processSymbol_encodeSym rfl rfl hrem, symAct, symLead3, seedThree_eq]

theorem processSymbol_lead4 :
    processSymbol cap (encodeSym .lead4) stolen d = .ok { d with ph := false, rem := 3, cp := 0 } := by
  rw [processSymbol_encodeSym rfl rfl hrem, symAct, symLead4]

end

/-- The symbols of the two-symbol leads (R65). -/
theorem exists_lead2 : ∀ x : Sym, x.toNat ≤ 0x0F → ∃ h : BitVec 4, encodeSym (.lead2 h) = x ∧ h.toNat = x.toNat := by
  decide

/-- The symbols of the three-symbol leads (R65). -/
theorem exists_lead3 : ∀ x : Sym, 0x10 ≤ x.toNat → x.toNat ≤ 0x13 →
    ∃ h : BitVec 2, encodeSym (.lead3 h) = x ∧ h.toNat = x.toNat - 0x10 := by
  decide

/-- Settles O34: each range is the symbols of one class of leads (`exists_lead2`, `exists_lead3`), which opens its code
point (`processSymbol_lead2`, `processSymbol_lead3`, `processSymbol_lead4`). -/
theorem leadSymbolsOpenACodePoint : Obligations.LeadSymbolsOpenACodePoint := by
  intro cap stolen d x hrem
  refine ⟨fun hx => ?_, fun hlo hhi => ?_, ?_⟩
  · obtain ⟨h, rfl, hvalue⟩ := exists_lead2 x hx
    rw [processSymbol_lead2 hrem, hvalue, phantomFlag]
  · obtain ⟨h, rfl, hvalue⟩ := exists_lead3 x hlo hhi
    rw [processSymbol_lead3 hrem, hvalue]
  · rintro rfl
    exact processSymbol_lead4 hrem cap stolen

/-! ### Invalid symbols (R180) -/

/-- Settles O35: the class raises, and its record is the symbol and the stolen flag (`decInfo_symbol`). -/
theorem invalidSymbolRaises : Obligations.InvalidSymbolRaises := by
  intro cap stolen d x hrem hx
  have hinfo : decInfo (x.setWidth 21) stolen 0 = BitVec.ofNat 32 (x.toNat + if stolen then 2 ^ 24 else 0) := by
    rw [decInfo_symbol, BitVec.toNat_setWidth_of_le (by decide)]
  have hraise := processSymbol_encodeSym (op := .invalid x) hx rfl hrem cap stolen
  rw [symAct, symInvalid, hinfo] at hraise
  exact hraise

/-! ### Trailers (R181 to R184) -/

/-- The code units of a code point (R182, R183). -/
def codePointUnits (c : Nat) : List CodeUnit :=
  if c < 0x10000 then [BitVec.ofNat 16 c]
  else [BitVec.ofNat 16 (0xD800 + (c - 0x10000) / 1024), BitVec.ofNat 16 (0xDC00 + (c - 0x10000) % 1024)]

theorem codePointUnits_bmp {c : Nat} (h : c < 0x10000) : codePointUnits c = [BitVec.ofNat 16 c] := if_pos h

theorem codePointUnits_pair {c : Nat} (h : 0x10000 ≤ c) :
    codePointUnits c =
      [BitVec.ofNat 16 (0xD800 + (c - 0x10000) / 1024), BitVec.ofNat 16 (0xDC00 + (c - 0x10000) % 1024)] :=
  if_neg (by omega)

section
variable {c : Reg32} (hlo : 0x10000 ≤ c.toNat) (hhi : c.toNat ≤ 0x10FFFF)
include hlo

theorem sub_bmp_toNat : (c - 0x10000#32).toNat = c.toNat - 0x10000 :=
  BitVec.toNat_sub_of_le (BitVec.le_def.2 hlo)

/-- The low surrogate as a number (R183). -/
theorem lowOf_eq : lowOf c = BitVec.ofNat 16 (0xDC00 + (c.toNat - 0x10000) % 1024) := by
  have hfield : ((c - 0x10000#32).extractLsb' 0 10).toNat = (c.toNat - 0x10000) % 1024 := by
    rw [BitVec.extractLsb'_toNat, Nat.shiftRight_zero, sub_bmp_toNat hlo]
  rw [BitVec.ofNat_add, ← hfield, BitVec.ofNat_toNat]
  rfl

include hhi

/-- The high surrogate as a number (R183). -/
theorem highOf_eq : highOf c = BitVec.ofNat 16 (0xD800 + (c.toNat - 0x10000) / 1024) := by
  have hfield : ((c - 0x10000#32).extractLsb' 10 10).toNat = (c.toNat - 0x10000) / 1024 := by
    rw [BitVec.extractLsb'_toNat, Nat.shiftRight_eq_div_pow, sub_bmp_toNat hlo]
    omega
  rw [BitVec.ofNat_add, ← hfield, BitVec.ofNat_toNat]
  rfl

end

/-- A code point with room for its units is written (R182, R183). -/
theorem emitCodePoint_ok {cap : Option Nat} {c : Reg32} {d : Dec} (hc : c.toNat ≤ 0x10FFFF)
    (hfit : UnitsFit cap d (codePointUnits c.toNat).length) (stolen : Bool) :
    emitCodePoint cap c stolen d = .ok (d.wrote (codePointUnits c.toNat)) := by
  by_cases hbmp : c.toNat < 0x10000
  · rw [codePointUnits_bmp hbmp] at hfit ⊢
    rw [emitCodePoint, if_pos hbmp]
    exact emitUnit_ok hfit
  · have hlo : 0x10000 ≤ c.toNat := by omega
    rw [codePointUnits_pair hlo] at hfit ⊢
    have hone : (d.len + 1).toNat = d.len.toNat + 1 := add_one_toNat_of_fits (k := 1) hfit
    have hhigh := emitUnit_ok (w := highOf c) (hfit.mono (show 1 ≤ 2 by omega))
    rw [emitCodePoint, if_neg hbmp, if_pos hc, hhigh, Result.ok_andThen,
      emitUnit_ok (hfit.after_emitUnit (k := 1) hhigh), ← highOf_eq hlo hc, ← lowOf_eq hlo, hone, BitVec.add_assoc]
    rfl

/-- A trailer that is not the last one (R181). -/
theorem processSymbol_trail_more {d : Dec} (hrem : d.rem ≠ 0) (hmore : d.rem ≠ 1) (cap : Option Nat) (x : Sym)
    (stolen : Bool) :
    processSymbol cap x stolen d = .ok { d with ph := false, rem := d.rem - 1, cp := gather d.cp d.rem x } := by
  rw [processSymbol_trail cap x stolen d hrem, symTrail]
  exact if_neg hmore

/-- The last trailer writes the code point (R182, R183). -/
theorem processSymbol_trail_last {cap : Option Nat} {d : Dec} {x : Sym} (hrem : d.rem = 1)
    (hc : (gather d.cp d.rem x).toNat ≤ 0x10FFFF)
    (hfit : UnitsFit cap d (codePointUnits (gather d.cp d.rem x).toNat).length) (stolen : Bool) :
    processSymbol cap x stolen d =
      .ok (Dec.wrote (codePointUnits (gather d.cp d.rem x).toNat) { d with ph := false, rem := 0, cp := 0 }) := by
  rw [processSymbol_last hrem]
  exact emitCodePoint_ok (d := { d with ph := false, rem := 0, cp := 0 }) hc hfit stolen

/-- The last trailer of a value above 0x10FFFF raises (R184). -/
theorem processSymbol_trail_range {d : Dec} {x : Sym} (hrem : d.rem = 1)
    (hc : 0x10FFFF < (gather d.cp d.rem x).toNat) (cap : Option Nat) (stolen : Bool) :
    processSymbol cap x stolen d =
      .raised (decRaise causeCpRange (decInfo ((gather d.cp d.rem x).extractLsb' 0 21) stolen 0) d) := by
  rw [processSymbol_last hrem, emitCodePoint, if_neg (by omega), if_neg (by omega)]
  rfl

/-- Settles O36: a trailer that goes on (`processSymbol_trail_more`), the last one by the units of its value
(`processSymbol_trail_last`), without room for both surrogates (`symbolsWithoutRoomAreRefused`), and above the range
(`processSymbol_trail_range`). -/
theorem trailersGatherAndEmit : Obligations.TrailersGatherAndEmit := by
  intro cap stolen d x hopen c v
  have hgather : gather d.cp d.rem x = c := rfl
  refine ⟨fun hmore => processSymbol_trail_more hopen hmore cap x stolen, fun hrem hbmp hfit => ?_,
    fun hrem hlo hhi hfit => ?_, fun hrem hlo hhi hfull hlen => ?_, fun hrem hc => ?_⟩
  · have hunits : codePointUnits (gather d.cp d.rem x).toNat = _ := codePointUnits_bmp hbmp
    have hrun := processSymbol_trail_last (cap := cap) hrem (by rw [hgather]; omega) (by rw [hunits]; exact hfit) stolen
    rw [hunits] at hrun
    exact hrun
  · have hunits : codePointUnits (gather d.cp d.rem x).toNat = _ := codePointUnits_pair hlo
    have hrun := processSymbol_trail_last (cap := cap) hrem hhi (by rw [hunits]; exact hfit) stolen
    rw [hunits] at hrun
    exact hrun
  · obtain ⟨-, -, hpair, -, -⟩ := symbolsWithoutRoomAreRefused cap stolen d x
    exact hpair ⟨hrem, hlo, hhi⟩ (.inr ⟨hfull, by omega⟩)
  · have hinfo : decInfo (c.extractLsb' 0 21) stolen 0 =
        BitVec.ofNat 32 (c.toNat % 2 ^ 21 + if stolen then 2 ^ 24 else 0) := by
      rw [decInfo_symbol, extractLsb'_value_toNat]
    rw [processSymbol_trail_range hrem hc, hgather, hinfo]
    rfl

/-! ### Bytes before the seventh of a group (R152) -/

/-- The direct symbol of a byte given by its fields. -/
theorem processSymbol_encodePbyte (cap : Option Nat) (hb : Bool) (x : Sym) (d : Dec) :
    processSymbol cap (pbyteSym (encodePbyte hb x)) false (gatherBit (pbyteHb (encodePbyte hb x)) d) =
      processSymbol cap x false (gatherBit hb d) := by
  rw [pbyteSym_encodePbyte, pbyteHb_encodePbyte]

section
variable {s : State} {k : Nat} (hready : DecReady s k) (hstage : s.dec.stage.toNat < 6)
include hready hstage

/-- A byte whose symbol goes on is counted, and no stolen symbol follows. -/
theorem exec_decByte_before_seventh {hb : Bool} {x : Sym} {d : Dec}
    (h : processSymbol s.caps.decOut x false (gatherBit hb s.dec) = .ok d) (fin : Bool) :
    exec (.decByte (encodePbyte hb x) fin) s = .next (s.setDec { d with bcnt := d.bcnt + 1, fin := fin }) := by
  obtain ⟨hp, hfin, -, hcnt⟩ := hready
  rw [← processSymbol_encodePbyte] at h
  exact exec_decByte_counted hp hfin h (deliverStolen_before_seventh h (by bv_omega)) hcnt

/-- A class whose symbol goes on leaves `dec.fin` as it was, 0. -/
theorem exec_symOp_before_seventh {op : SymOp} {d : Dec} (hwf : op.toInstr.wf = true)
    (h : processSymbol s.caps.decOut (encodeSym op) false (gatherBit false s.dec) = .ok d) :
    exec op.toInstr s = .next (s.setDec { d with bcnt := d.bcnt + 1 }) := by
  obtain ⟨-, -, -, hsame, -⟩ := processSymbol_frame h
  have ⟨_, hfin, _, _⟩ := hready
  have hdfin : d.fin = false := hsame.trans hfin
  rw [exec_symOp_eq_decByte hwf, exec_decByte_before_seventh hready hstage h, ← hdfin]

end

/-- Settles O37: the byte of a class that writes a unit (`processSymbol_writesUnit`); the class is its `DEC_BYTE`. -/
theorem singleSymbolBytesEmitTheirUnit : Obligations.SingleSymbolBytesEmitTheirUnit := by
  intro s hready hrem hstage after
  have ⟨_, _, hfit, _⟩ := hready
  have hbyte {op : SymOp} (hop : writesUnit op = true) (hwf : op.toInstr.wf = true) (hb fin : Bool) :
      exec (.decByte (encodePbyte hb (encodeSym op)) fin) s = after hb fin (unitOfSym op) :=
    exec_decByte_before_seventh hready hstage
      (processSymbol_writesUnit (d := gatherBit hb s.dec) hop hwf hrem hfit false) fin
  have hclass {op : SymOp} (hop : writesUnit op = true) (hwf : op.toInstr.wf = true) :
      exec op.toInstr s = after false false (unitOfSym op) :=
    (exec_symOp_eq_decByte hwf s).trans (hbyte hop hwf false false)
  have hpbyte (hb : Bool) (sym : Sym) : exec (.pbyte hb sym) s = exec (.decByte (encodePbyte hb sym) false) s :=
    (exec_decByte_encodePbyte hb false sym s).symm
  refine ⟨fun sym hsym => ⟨hclass (op := .lit sym) rfl hsym, fun hb fin => ⟨?_, ?_⟩⟩, fun sym hsym => ?_, ?_, ?_, ?_⟩
  · exact (hpbyte hb sym).trans (hbyte (op := .lit sym) rfl hsym hb false)
  · exact hbyte (op := .lit sym) rfl hsym hb fin
  · exact hclass (op := .ctl sym) rfl hsym
  · exact hclass (op := .nul) rfl rfl
  · exact hclass (op := .bel) rfl rfl
  · exact hclass (op := .bs) rfl rfl

/-- Settles O38: a direct lead opens its code point and is no phantom. -/
theorem leadBytesOpenACodePoint : Obligations.LeadBytesOpenACodePoint := by
  intro s hready hrem hstage after
  have hopen : (gatherBit false s.dec).rem = 0 := hrem
  refine ⟨fun h => ?_, fun h => ?_, ?_⟩
  · exact exec_symOp_before_seventh (op := .lead2 h) hready hstage rfl (processSymbol_lead2 hopen _ false h)
  · exact exec_symOp_before_seventh (op := .lead3 h) hready hstage rfl (processSymbol_lead3 hopen _ false h)
  · exact exec_symOp_before_seventh (op := .lead4) hready hstage rfl (processSymbol_lead4 hopen _ false)

/-- Settles O39: the direct trailer of each kind, by what it does as a symbol (`trailersGatherAndEmit`). -/
theorem trailerBytesGatherAndEmit : Obligations.TrailerBytesGatherAndEmit := by
  intro s p hready hopen hstage c v begun
  have hclass {d : Dec} : processSymbol s.caps.decOut p false (gatherBit false s.dec) = .ok d →
      exec (.dTrail p) s = .next (s.setDec { d with bcnt := d.bcnt + 1 }) :=
    exec_symOp_before_seventh (op := .trail p) hready hstage rfl
  have ⟨_, _, hroom, _⟩ := hready
  have hfit : UnitsFit s.caps.decOut (gatherBit false s.dec) 2 := hroom
  obtain ⟨hmore, hunit, hpair, -, -⟩ := trailersGatherAndEmit s.caps.decOut false (gatherBit false s.dec) p hopen
  exact ⟨fun hrem => hclass (hmore hrem),
    fun hrem hbmp => hclass (hunit hrem hbmp (hfit.mono (by omega))),
    fun hrem hlo hhi => hclass (hpair hrem hlo hhi hfit)⟩

/-- Settles O40: the error of the direct symbol ends the command (`exec_decByte_direct_raised`). -/
theorem invalidSymbolByteFaults : Obligations.InvalidSymbolByteFaults := by
  intro s x hp hfin hrem hx
  have hraise := invalidSymbolRaises s.caps.decOut false (gatherBit false s.dec) x hrem hx
  rw [if_neg Bool.false_ne_true, Nat.add_zero, ← processSymbol_encodePbyte] at hraise
  exact (exec_symOp_eq_decByte (op := .invalid x) hx s).trans (exec_decByte_direct_raised hp hfin hraise)

/-! ### DEC_FINISH (R185) -/

theorem exec_decFinish_active {s : State} (hp : s.dec.phase = .active) :
    exec .decFinish s = decOutcome s (finishCommand s.dec) := inCall_active hp _ _

/-- With nothing owed, or only the phantom lead, the text is the result (R185). -/
theorem exec_decFinish_delivers {s : State} (hp : s.dec.phase = .active) (h : s.dec.rem = 0 ∨ s.dec.ph = true) :
    exec .decFinish s = .next (s.setDec (finishedDec s.dec)) := by
  have hnot : ¬(s.dec.rem ≠ 0 ∧ s.dec.ph = false) := by
    rcases h with h | h <;> simp [h]
  rw [exec_decFinish_active hp, finishCommand, if_neg hnot, decOutcome_ok]

/-- Settles O45: the text (`exec_decFinish_delivers`), or TRUNCATED with its record (`decInfo_eq`). -/
theorem decFinishDeliversOrTruncates : Obligations.DecFinishDeliversOrTruncates := by
  intro s hp
  refine ⟨exec_decFinish_delivers hp, fun hopen => ?_⟩
  have hinfo : decInfo (s.dec.cp.extractLsb' 0 21) false s.dec.rem =
      BitVec.ofNat 32 (s.dec.cp.toNat % 2 ^ 21 + s.dec.rem.toNat * 2 ^ 28) := by
    rw [decInfo_eq, extractLsb'_value_toNat, if_neg Bool.false_ne_true, Nat.add_zero]
  rw [exec_decFinish_active hp, finishCommand, if_pos hopen, hinfo, decOutcome_raised]
  rfl

/-! ### A code point's symbols, one after another (R73, R75, R154)

The accumulator does not ask which of a code point's symbols were stolen, so they are followed under any flags. -/

theorem feedSyms_append_eq (cap : Option Nat) (a b : List (Sym × Bool)) (d : Dec) :
    feedSyms cap (a ++ b) d = (feedSyms cap a d).andThen (feedSyms cap b) := by
  induction a generalizing d with
  | nil => rfl
  | cons p rest ih =>
    rw [List.cons_append, feedSyms, feedSyms]
    cases processSymbol cap p.1 p.2 d with
    | ok d1 => exact ih d1
    | raised d1 => rfl
    | refused why => rfl

/-- The value of a code point whose lead gives `k`, seven bits a trailer (R73). -/
def trailersValue (k : Nat) (trailers : List Sym) : Nat := trailers.foldl (fun c x => c * 128 + x.toNat) k

theorem mul_pow_le_trailersValue (k : Nat) (trailers : List Sym) :
    k * 2 ^ (7 * trailers.length) ≤ trailersValue k trailers := by
  induction trailers generalizing k with
  | nil => exact (Nat.mul_one k).le
  | cons x rest ih =>
    calc k * 2 ^ (7 * (rest.length + 1)) = k * 128 * 2 ^ (7 * rest.length) := by ring
      _ ≤ (k * 128 + x.toNat) * 2 ^ (7 * rest.length) := Nat.mul_le_mul_right _ (by omega)
      _ ≤ trailersValue k (x :: rest) := ih _

/-- A trailer moves the value gathered so far up by its seven bits and fills them (R73). -/
theorem gather_ofNat {k r : Nat} {rem : BitVec 2} (hrem : rem.toNat = r + 1) (hk : k * 2 ^ (7 * (r + 1)) < 2 ^ 32)
    (x : Sym) :
    (gather (BitVec.ofNat 32 (k * 2 ^ (7 * (r + 1)))) rem x).toNat = (k * 128 + x.toNat) * 2 ^ (7 * r) := by
  have hx : x.toNat * 2 ^ (7 * r) < 2 ^ (7 * (r + 1)) := by
    calc x.toNat * 2 ^ (7 * r) < 2 ^ 7 * 2 ^ (7 * r) := Nat.mul_lt_mul_of_pos_right x.isLt (by positivity)
      _ = 2 ^ (7 * (r + 1)) := by ring
  rw [gather_toNat, BitVec.toNat_ofNat, Nat.mod_eq_of_lt hk, hrem, Nat.add_sub_cancel, Nat.mul_comm k,
    ← Nat.two_pow_add_eq_or_of_lt hx]
  ring

/-- The trailers that a lead asked for write its code point. -/
theorem feedSyms_trailers {cap : Option Nat} {l : List (Sym × Bool)} {k : Nat} {d : Dec} (hne : l ≠ [])
    (hrem : d.rem.toNat = l.length) (hcp : d.cp = BitVec.ofNat 32 (k * 2 ^ (7 * l.length)))
    (hc : trailersValue k (l.map Prod.fst) ≤ 0x10FFFF)
    (hfit : UnitsFit cap d (codePointUnits (trailersValue k (l.map Prod.fst))).length) :
    feedSyms cap l d =
      .ok (Dec.wrote (codePointUnits (trailersValue k (l.map Prod.fst)))
        { d with ph := false, rem := 0, cp := 0 }) := by
  induction l generalizing k d with
  | nil => exact absurd rfl hne
  | cons p rest ih =>
    obtain ⟨x, stolen⟩ := p
    have hgather : (gather d.cp d.rem x).toNat = (k * 128 + x.toNat) * 2 ^ (7 * rest.length) := by
      have hle := mul_pow_le_trailersValue k (((x, stolen) :: rest).map Prod.fst)
      rw [List.length_map, List.length_cons] at hle
      rw [hcp]
      exact gather_ofNat hrem (by omega) x
    by_cases hlast : rest = []
    · subst hlast
      have hvalue : (gather d.cp d.rem x).toNat = trailersValue k ([(x, stolen)].map Prod.fst) :=
        hgather.trans (Nat.mul_one _)
      have hone : d.rem = 1 := BitVec.eq_of_toNat_eq hrem
      rw [← hvalue] at hc hfit ⊢
      rw [feedSyms, processSymbol_trail_last hone hc hfit]
      rfl
    · have hpos := List.length_pos_iff.2 hlast
      rw [List.length_cons] at hrem
      have hcp' : gather d.cp d.rem x = BitVec.ofNat 32 ((k * 128 + x.toNat) * 2 ^ (7 * rest.length)) := by
        rw [← hgather, BitVec.ofNat_toNat, BitVec.setWidth_eq]
      rw [feedSyms, processSymbol_trail_more (by bv_omega) (by bv_omega), Result.ok_andThen]
      exact ih (d := { d with ph := false, rem := d.rem - 1, cp := gather d.cp d.rem x }) hlast
        (show (d.rem - 1).toNat = rest.length by bv_omega) hcp' hc hfit

/-- Between code points nothing is owed and no phantom is held (R18, R22). -/
structure Dec.Between (d : Dec) : Prop where
  rem : d.rem = 0
  cp : d.cp = 0
  ph : d.ph = false

theorem Dec.Between.eq_self {d : Dec} (h : d.Between) : { d with ph := false, rem := 0, cp := 0 } = d := by
  rw [← h.rem, ← h.cp, ← h.ph]

theorem Dec.Between.eq_clear_ph {d : Dec} (h : d.Between) : { d with ph := false } = d := by
  rw [← h.ph]

theorem Dec.Between.wrote {d : Dec} (h : d.Between) (ws : List CodeUnit) : (d.wrote ws).Between :=
  ⟨h.rem, h.cp, h.ph⟩

theorem UnitsFit.after_wrote {cap : Option Nat} {d : Dec} {ws : List CodeUnit} {k : Nat}
    (h : UnitsFit cap d (ws.length + k)) : UnitsFit cap (d.wrote ws) k := by
  obtain ⟨hcap, hmax⟩ := h
  have hlen := Dec.wrote_len_toNat (d := d) (ws := ws) (by omega)
  rw [UnitsFit, hlen, Nat.add_assoc]
  exact ⟨hcap, hmax⟩

theorem codePointUnits_toNat (u : CodeUnit) : codePointUnits u.toNat = [u] := by
  rw [codePointUnits_bmp u.isLt, BitVec.ofNat_toNat, BitVec.setWidth_eq]

/-- The code point of a surrogate pair is written as the pair (R76, R183). -/
theorem codePointUnits_of_pair {hs ls : CodeUnit} (hhigh : isHighSurrogate hs = true)
    (hlow : isLowSurrogate ls = true) :
    codePointUnits (0x10000 + (hs.toNat - 0xD800) * 1024 + (ls.toNat - 0xDC00)) = [hs, ls] := by
  simp only [isHighSurrogate, isLowSurrogate, Bool.and_eq_true, decide_eq_true_eq] at hhigh hlow
  have hself (u : CodeUnit) {n : Nat} (h : n = u.toNat) : BitVec.ofNat 16 n = u := by
    rw [h, BitVec.ofNat_toNat, BitVec.setWidth_eq]
  rw [codePointUnits_pair (by omega), hself hs (by omega), hself ls (by omega)]

/-- The shifted controls are the control symbols, `CTL_OFFSET` lower (R104, R173). -/
theorem controlSymbol_of_shiftedControl : ∀ ch : Sym, isShiftedControl ch = true →
    isControlSymbol (ch + ctlOffset) = true ∧ (ch + ctlOffset).toNat - 0x10 = ch.toNat := by
  decide

section
variable {cap : Option Nat} {l : List (Sym × Bool)} {d : Dec} (hd : d.Between)
include hd

/-- The symbol of a class that writes a unit, under either flag. -/
theorem feedSyms_single {op : SymOp} (hop : writesUnit op = true) (hwf : op.toInstr.wf = true)
    (hl : l.map Prod.fst = [encodeSym op]) (hfit : UnitsFit cap d 1) :
    feedSyms cap l d = .ok (d.wrote [unitOfSym op]) := by
  obtain ⟨⟨x, stolen⟩, rest, rfl, rfl, hnil⟩ := List.map_eq_cons_iff.1 hl
  obtain rfl := List.map_eq_nil_iff.1 hnil
  have hrun := processSymbol_writesUnit hop hwf hd.rem hfit stolen
  rw [hd.eq_clear_ph] at hrun
  rw [feedSyms, hrun]
  rfl

/-- A lead and its trailers, under any flags. -/
theorem feedSyms_codePoint {x : Sym} {trailers : List Sym} {r : BitVec 2} {k c : Nat}
    (hl : l.map Prod.fst = x :: trailers)
    (hlead : ∀ stolen, ∃ ph, processSymbol cap x stolen d =
      .ok { d with ph := ph, rem := r, cp := BitVec.ofNat 32 (k * 2 ^ (7 * r.toNat)) })
    (hr : r.toNat = trailers.length) (hne : trailers ≠ []) (hvalue : trailersValue k trailers = c) (hc : c ≤ 0x10FFFF)
    (hfit : UnitsFit cap d (codePointUnits c).length) :
    feedSyms cap l d = .ok (d.wrote (codePointUnits c)) := by
  obtain ⟨⟨x, stolen⟩, rest, rfl, rfl, rfl⟩ := List.map_eq_cons_iff.1 hl
  obtain ⟨ph, hopen⟩ := hlead stolen
  subst hvalue
  rw [List.length_map] at hr
  rw [hr] at hopen
  rw [feedSyms, hopen, Result.ok_andThen,
    feedSyms_trailers (d := { d with ph := ph, rem := r, cp := BitVec.ofNat 32 (k * 2 ^ (7 * rest.length)) })
      (fun h => hne (by rw [h]; rfl)) hr rfl hc hfit]
  exact congrArg (fun d => Result.ok (Dec.wrote _ d)) hd.eq_self

/-- The two-symbol form, overlong or not (R70). -/
theorem feedSyms_two {hi : BitVec 4} {lo : Sym} {u : CodeUnit} (hl : l.map Prod.fst = [encodeSym (.lead2 hi), lo])
    (hvalue : hi.toNat * 128 + lo.toNat = u.toNat) (hfit : UnitsFit cap d 1) :
    feedSyms cap l d = .ok (d.wrote [u]) := by
  rw [← codePointUnits_toNat u]
  exact feedSyms_codePoint hd hl (fun stolen => ⟨_, processSymbol_lead2 hd.rem cap stolen hi⟩) rfl
    (List.cons_ne_nil _ _) hvalue (by omega) (by rwa [codePointUnits_toNat])

/-- The three-symbol form (R71). -/
theorem feedSyms_three {hi : BitVec 2} {mid lo : Sym} {u : CodeUnit}
    (hl : l.map Prod.fst = [encodeSym (.lead3 hi), mid, lo])
    (hvalue : hi.toNat * 16384 + mid.toNat * 128 + lo.toNat = u.toNat) (hfit : UnitsFit cap d 1) :
    feedSyms cap l d = .ok (d.wrote [u]) := by
  have hsum : trailersValue hi.toNat [mid, lo] = u.toNat := by
    rw [← hvalue, trailersValue, List.foldl_cons, List.foldl_cons, List.foldl_nil]
    omega
  rw [← codePointUnits_toNat u]
  exact feedSyms_codePoint hd hl (fun stolen => ⟨_, processSymbol_lead3 hd.rem cap stolen hi⟩) rfl
    (List.cons_ne_nil _ _) hsum (by omega) (by rwa [codePointUnits_toNat])

/-- The symbols of a class of units are read back as the unit (R187). -/
theorem feedSyms_unitOp {op : UnitOp} (hwf : op.toInstr.wf = true) (hne : unitOpSyms op ≠ [])
    (hl : l.map Prod.fst = unitOpSyms op) (hfit : UnitsFit cap d 1) :
    feedSyms cap l d = .ok (d.wrote [encodeUnit op]) := by
  have hvalue := encodeUnit_toNat op
  cases op with
  | nul => exact feedSyms_single hd (op := .nul) rfl rfl hl hfit
  | bel => exact feedSyms_single hd (op := .bel) rfl rfl hl hfit
  | bs => exact feedSyms_single hd (op := .bs) rfl rfl hl hfit
  | lit sym =>
    rw [encodeUnit_eq_ofNat]
    exact feedSyms_single hd (op := .lit sym) rfl hwf hl hfit
  | ctl ch =>
    obtain ⟨hctl, hunit⟩ := controlSymbol_of_shiftedControl ch hwf
    rw [encodeUnit_eq_ofNat, unitValue, ← hunit]
    exact feedSyms_single hd (op := .ctl (ch + ctlOffset)) rfl hctl hl hfit
  | ovl raw => exact feedSyms_two hd (hi := 0) hl (by rw [hvalue, unitValue]; exact Nat.zero_add _) hfit
  | two hi lo => exact feedSyms_two hd hl hvalue.symm hfit
  | three hi mid lo => exact feedSyms_three hd hl hvalue.symm hfit
  | high payload => exact absurd rfl hne
  | low payload => exact absurd rfl hne

/-- The symbols that R64 gives a unit outside the surrogates are read back as the unit (R187). -/
theorem feedSyms_unitSyms {u : CodeUnit} (hhigh : isHighSurrogate u = false) (hlow : isLowSurrogate u = false)
    (hl : l.map Prod.fst = unitSyms u) (hfit : UnitsFit cap d 1) : feedSyms cap l d = .ok (d.wrote [u]) := by
  have hne := unitSyms_ne_nil hhigh hlow
  rw [← unitOpSyms_decodeUnit] at hl hne
  rw [feedSyms_unitOp hd (decodeUnit_wf u) hne hl hfit, encodeUnit_decodeUnit]

/-- The four-symbol form (R72). -/
theorem feedSyms_four {c : Nat} (hc : c ≤ 0x10FFFF)
    (hl : l.map Prod.fst =
      [encodeSym .lead4, BitVec.ofNat 7 (c / 16384), BitVec.ofNat 7 (c / 128 % 128), BitVec.ofNat 7 (c % 128)])
    (hfit : UnitsFit cap d (codePointUnits c).length) : feedSyms cap l d = .ok (d.wrote (codePointUnits c)) := by
  have hseed : BitVec.ofNat 32 (0 * 2 ^ (7 * (3 : BitVec 2).toNat)) = 0 := by rw [Nat.zero_mul]; rfl
  refine feedSyms_codePoint hd hl
    (fun stolen => ⟨false, (processSymbol_lead4 hd.rem cap stolen).trans (by rw [hseed])⟩) rfl
    (List.cons_ne_nil _ _) ?_ hc hfit
  simp only [trailersValue, List.foldl_cons, List.foldl_nil, BitVec.toNat_ofNat]
  omega

/-- The four symbols of a surrogate pair are read back as the pair (R187). -/
theorem feedSyms_pairSyms {hs ls : CodeUnit} (hhigh : isHighSurrogate hs = true) (hlow : isLowSurrogate ls = true)
    (hl : l.map Prod.fst = pairSyms hs ls) (hfit : UnitsFit cap d 2) :
    feedSyms cap l d = .ok (d.wrote [hs, ls]) := by
  have hunits := codePointUnits_of_pair hhigh hlow
  have hrange : 0x10000 + (hs.toNat - 0xD800) * 1024 + (ls.toNat - 0xDC00) ≤ 0x10FFFF := by
    simp only [isHighSurrogate, isLowSurrogate, Bool.and_eq_true, decide_eq_true_eq] at hhigh hlow
    omega
  rw [← hunits]
  exact feedSyms_four hd hrange hl (by rwa [hunits])

end

/-! ### A text, unit by unit (R116, R187) -/

/-- The symbols of a well-formed text are read back as the text, whichever of them were stolen. `pending` is a high
surrogate whose symbols come with those of the next unit. -/
theorem feedSyms_textSyms {cap : Option Nat} {text : List CodeUnit} {pending : Option CodeUnit}
    {l : List (Sym × Bool)} {d : Dec} (hd : d.Between) (hhigh : ∀ hs ∈ pending, isHighSurrogate hs = true)
    (hwell : wellFormedFrom pending.isSome text = true) (hl : l.map Prod.fst = textSyms pending text)
    (hfit : UnitsFit cap d (pending.toList ++ text).length) :
    feedSyms cap l d = .ok (d.wrote (pending.toList ++ text)) := by
  induction text generalizing pending l d with
  | nil =>
    cases pending with
    | some hs => cases hwell
    | none =>
      obtain rfl := List.map_eq_nil_iff.1 hl
      exact congrArg Result.ok d.wrote_nil.symm
  | cons u rest ih =>
    have hnone : ∀ hs ∈ (none : Option CodeUnit), isHighSurrogate hs = true := fun _ h => nomatch h
    have hcut {ws : List CodeUnit} {l₁ l₂ : List (Sym × Bool)} (hws : pending.toList ++ u :: rest = ws ++ rest)
        (hfirst : feedSyms cap l₁ d = .ok (d.wrote ws)) (hwell' : wellFormedFrom false rest = true)
        (hl₂ : l₂.map Prod.fst = textSyms none rest) :
        feedSyms cap (l₁ ++ l₂) d = .ok (d.wrote (pending.toList ++ u :: rest)) := by
      rw [hws, List.length_append] at hfit
      have hlen := hfit.2
      have hrest : feedSyms cap l₂ (d.wrote ws) = .ok ((d.wrote ws).wrote rest) :=
        ih (hd.wrote ws) hnone hwell' hl₂ hfit.after_wrote
      rw [feedSyms_append_eq, hfirst, Result.ok_andThen, hrest, hws, Dec.wrote_wrote (by omega)]
    cases pending with
    | some hs =>
      simp only [Option.isSome_some, wellFormedFrom, if_true, Bool.and_eq_true] at hwell
      obtain ⟨l₁, l₂, rfl, hl₁, hl₂⟩ := List.map_eq_append_iff.1 hl
      exact hcut (ws := [hs, u]) rfl
        (feedSyms_pairSyms hd (hhigh hs rfl) hwell.1 hl₁ (hfit.mono (by simp))) hwell.2 hl₂
    | none =>
      cases hu : isHighSurrogate u with
      | true =>
        simp only [Option.isSome_none, wellFormedFrom, hu, Bool.false_eq_true, if_false, if_true] at hwell
        simp only [textSyms, hu, if_true] at hl
        exact ih (pending := some u) hd (by rintro _ ⟨⟩; exact hu) hwell hl hfit
      | false =>
        simp only [Option.isSome_none, wellFormedFrom, hu, Bool.false_eq_true, if_false, Bool.and_eq_true,
          Bool.not_eq_true'] at hwell
        simp only [textSyms, hu, Bool.false_eq_true, if_false] at hl
        obtain ⟨l₁, l₂, rfl, hl₁, hl₂⟩ := List.map_eq_append_iff.1 hl
        exact hcut (ws := [u]) rfl
          (feedSyms_unitSyms hd hu hwell.1 hl₁ (hfit.mono (by simp))) hwell.2 hl₂

/-! ### Packed bytes (R132 to R135, R157) -/

/-- The symbols of a packed result in the order in which the bytes deliver them, each with whether it was stolen. -/
def packOrder : List Sym → List (Sym × Bool)
  | s0 :: s1 :: s2 :: s3 :: s4 :: s5 :: s6 :: s7 :: rest =>
    ([s0, s1, s2, s3, s4, s5].map (·, false) ++ [(s6, false), (s7, true)]) ++ packOrder rest
  | l => l.map (·, false)

/-- Unpacking keeps the order of the symbols (R157). -/
theorem map_fst_packOrder (syms : List Sym) : (packOrder syms).map Prod.fst = syms := by
  induction syms using packOrder.induct with
  | case1 s0 s1 s2 s3 s4 s5 s6 s7 rest ih => rw [packOrder, List.map_append, ih]; rfl
  | case2 l hshort => rw [packOrder, List.map_map]; exacts [List.map_id l, hshort]

/-- A list that is packed as the partial group is shorter than a group (R134). -/
theorem length_lt_of_pack_eq_tail {l : List Sym} (h : pack l = tail l) : l.length < 8 := by
  have hlen := length_pack l
  rw [h, tail, List.length_map] at hlen
  omega

/-- The bytes of the partial group carry no stolen bits (R135). -/
theorem foldl_shiftStolen_tail (l : List Sym) : ((tail l).map pbyteHb).foldl shiftStolen 0 = 0 := by
  induction l with
  | nil => rfl
  | cons x rest ih =>
    have hzero : shiftStolen 0 (pbyteHb (encodePbyte false x)) = 0 := by rw [pbyteHb_encodePbyte]; rfl
    rw [tail, List.map_cons, List.map_cons, List.foldl_cons, hzero]
    exact ih

theorem map_pbyteSym_tail (l : List Sym) : (tail l).map (fun b => (pbyteSym b, false)) = l.map (·, false) := by
  rw [tail, List.map_map]
  exact List.map_congr_left fun x _ => congrArg (·, false) (pbyteSym_encodePbyte false x)

/-- A decoder that `DEC_FINISH` turns into the text of another: the same text, and nothing owed but the phantom lead
(R185). -/
structure Dec.Delivers (d e : Dec) : Prop where
  phase : e.phase = .active
  owed : e.rem = 0 ∨ e.ph = true
  out : e.out = d.out
  len : e.len = d.len

/-- The decoder after the phantom lead (R186). -/
def Dec.withPhantom (d : Dec) : Dec := { d with ph := true, rem := 1, cp := 0 }

theorem processSymbol_phantom {d : Dec} (hrem : d.rem = 0) (cap : Option Nat) :
    processSymbol cap 0 true d = .ok d.withPhantom :=
  processSymbol_lead2 hrem cap true 0

/-- The bytes of the partial group from a group's boundary. Seven of them end in a stolen 0x00, the phantom lead (R154,
R186). -/
theorem runEvents_tail {s : State} {l : List Sym} {n : Reg32} {d d' : Dec} (hp : d.phase = .active)
    (hlen : l.length < 8) (hcnt : n.toNat + l.length ≤ lenMax)
    (h : feedSyms s.caps.decOut (l.map (·, false)) d = .ok d') (hrem : d'.rem = 0) :
    ∃ e, d'.Delivers e ∧ runEvents ((tail l).map fun b => eventOf (.decByte b false)) (s.setDec (d.placed 0 0 n)) =
      .next ((s.setPending []).setDec e) := by
  have hp' : d'.phase = .active := (feedSyms_frame h).1.trans hp
  have htail (l : List Sym) : (tail l).length = l.length := List.length_map _
  have hstolen := foldl_shiftStolen_tail l
  rw [← map_pbyteSym_tail] at h
  rcases Nat.lt_or_ge l.length 7 with hshort | hlong
  · have hzero : (0 : BitVec 3).toNat = 0 := rfl
    have hrun := runEvents_bytes_placed (stage := 0) (stolen := 0) hp (by rw [htail]; omega) (by rwa [htail]) h
    refine ⟨_, ?_, hrun⟩
    exact ⟨hp', .inl hrem, rfl, rfl⟩
  · obtain ⟨front, x, rfl⟩ := (List.eq_nil_or_concat' l).resolve_left fun hnil => by simp [hnil] at hlong
    have hsplit : tail (front ++ [x]) = tail front ++ [encodePbyte false x] := List.map_append
    have hfront : (tail front).length = 6 := by
      rw [List.length_append, List.length_singleton] at hlong hlen
      rw [htail]
      omega
    have hfeed : feedSyms s.caps.decOut ((tail front).map (fun b => (pbyteSym b, false)) ++
        [(pbyteSym (encodePbyte false x), false), (0, true)]) d = .ok d'.withPhantom := by
      rw [hsplit, List.map_append, List.map_singleton] at h
      rw [List.append_cons, feedSyms_append_eq, h, Result.ok_andThen, feedSyms, processSymbol_phantom hrem]
      rfl
    rw [hsplit] at hstolen ⊢
    have hrun := runEvents_seven_bytes (n := n) hp hfront (by omega) (by rw [hstolen]; rfl) hfeed
    refine ⟨_, ?_, hrun⟩
    exact ⟨hp', .inr rfl, rfl, rfl⟩

/-- A packed result from a group's boundary: group by group (`runEvents_group`), and then the partial group. -/
theorem runEvents_pack {s : State} {syms : List Sym} {n : Reg32} {d d' : Dec} (hp : d.phase = .active)
    (hcnt : n.toNat + (pack syms).length ≤ lenMax) (h : feedSyms s.caps.decOut (packOrder syms) d = .ok d')
    (hrem : d'.rem = 0) :
    ∃ e, d'.Delivers e ∧ runEvents ((pack syms).map fun b => eventOf (.decByte b false)) (s.setDec (d.placed 0 0 n)) =
      .next ((s.setPending []).setDec e) := by
  induction syms using pack.induct generalizing s n d with
  | case1 s0 s1 s2 s3 s4 s5 s6 s7 rest ih =>
    rw [packOrder] at h
    obtain ⟨d1, hgroup, hrest⟩ := feedSyms_append h
    have hp1 : d1.phase = .active := (feedSyms_frame hgroup).1.trans hp
    have hsum : (pack (s0 :: s1 :: s2 :: s3 :: s4 :: s5 :: s6 :: s7 :: rest)).length = (pack rest).length + 7 := by
      rw [pack, List.length_append, Nat.add_comm]; rfl
    rw [hsum] at hcnt
    have hn : (n + 7).toNat = n.toNat + 7 := by simp only [lenMax] at hcnt; bv_omega
    obtain ⟨e, hdelivers, hrun⟩ := ih (s := s.setPending []) (n := n + 7) hp1 (by omega) hrest
    rw [pack, List.map_append, runEvents_append, runEvents_group hp (by omega) hgroup, thenOut_next]
    exact ⟨e, hdelivers, hrun⟩
  | case2 l hshort =>
    have hpack : pack l = tail l := by rw [pack]; exact hshort
    have horder : packOrder l = l.map (·, false) := by rw [packOrder]; exact hshort
    rw [hpack, tail, List.length_map] at hcnt
    rw [horder] at h
    rw [hpack]
    exact runEvents_tail hp (length_lt_of_pack_eq_tail hpack) hcnt h hrem

/-! ### A decoding call of a packed result (R91, R187) -/

/-- A decoding call delivers what the accumulator makes of the packed symbols, and does not look past the bytes that it
is told of. -/
theorem decodeCall_pack {s : State} {syms : List Sym} {len : Reg32} {d : Dec} (after : List Byte)
    (hlen : (pack syms).length = len.toNat)
    (h : feedSyms s.caps.decOut (packOrder syms) (decOpened len) = .ok d) (hrem : d.rem = 0)
    (hdense : dense d.out d.len.toNat) :
    ∃ u, decodeCall (pack syms ++ after) len s = .next (u, some (d.out.map Prod.snd)) ∧ u.dec.phase = .done ∧
      u.dec.len = d.len := by
  have hcnt : (0 : Reg32).toNat + (pack syms).length ≤ lenMax := by
    have hlt := len.isLt
    have hzero : (0 : Reg32).toNat = 0 := rfl
    rw [hzero, hlen, lenMax]
    omega
  obtain ⟨e, ⟨hp, howed, hout, hlen'⟩, hrun⟩ := runEvents_pack (n := 0) rfl hcnt h hrem
  have hopened : decOpened len = (decOpened len).placed 0 0 0 := rfl
  have hfinish := exec_decFinish_delivers (s := (s.setPending []).setDec e) hp howed
  have hcall : decodeCall (pack syms ++ after) len s =
      .next (readDecResult ((s.setPending []).setDec (finishedDec e))) := by
    rw [decodeCall_eq_decodeRun, ← hlen, List.take_left, decodeRun_final, chunkCommands_false, decodeRun_eq_opened,
      runEvents_append, hopened, hrun, thenOut_next, runEvents_finishCommands,
      hfinish]
    rfl
  obtain ⟨-, -, hresult, -, -, -, -, -, hframe, -⟩ :=
    callsAnswerTheResultOrNothing ((s.setPending []).setDec (finishedDec e))
  have hread := hresult rfl (by simpa [hout, hlen'] using hdense)
  rw [hcall]
  refine ⟨_, congrArg _ (Prod.ext rfl (hread.trans ?_)), ?_, ?_⟩
  · simp [hout]
  · rw [hframe]; rfl
  · rw [hframe]; exact hlen'

/-! ### What a run leaves of the host's side (R3) -/

/-- An event leaves the capacities alone. -/
theorem takeEvent_caps {ev : HostEvent} {s t : State} (h : takeEvent ev s = .next t) : t.caps = s.caps := by
  cases ev with
  | cmd blk w =>
    obtain ⟨i, -, hexec⟩ := takeEvent_cmd_next h
    exact (instructionsLeaveTheHostSideAlone i s t hexec).1
  | rst blk => cases h; cases blk <;> rfl
  | readReg blk sel => cases h; exact readReg_caps blk sel s
  | readBuf blk idx => cases h; exact readBuf_caps blk idx s

theorem runEvents_caps {events : List HostEvent} {s t : State} (h : runEvents events s = .next t) :
    t.caps = s.caps := by
  induction events generalizing s with
  | nil => cases h; rfl
  | cons ev rest ih =>
    rw [runEvents_cons_eq] at h
    cases hev : takeEvent ev s with rw [hev] at h
    | next s1 => exact (ih h).trans (takeEvent_caps hev)
    | fault r => cases h
    | refused r => cases h

theorem encodeCall_caps {text : List CodeUnit} {s t : State} {r : Option (List Byte × Reg32)}
    (h : encodeCall text s = .next (t, r)) : t.caps = s.caps := by
  rw [encodeCall] at h
  cases hrun : runEvents (encodeCommands text) s with rw [hrun] at h
  | next u =>
    have ht : (readEncResult u).1 = t := congrArg Prod.fst (Host.Outcome.next.inj h)
    obtain ⟨-, -, hcaps⟩ := readEncResult_frame u
    rw [← ht, hcaps, runEvents_caps hrun]
  | fault r => cases h
  | refused r => cases h

/-- Settles O58: the bytes are the packed symbols of the text (`encodeCallPacksTheClassifiedText`), the decoder gets the
symbols in their order (`decodeCall_pack`), and they are read back unit by unit (`feedSyms_textSyms`). -/
theorem decodeOfEncodeIsTheText : Obligations.DecodeOfEncodeIsTheText := by
  intro s text after hcaps hwell hlen
  obtain ⟨t, bytes, len, hencode, rfl, hcount, -⟩ :=
    (encodeCallPacksTheClassifiedText s text (by rw [hcaps]; rfl) (by rw [hcaps]; rfl) hlen).1 hwell
  have hroom : UnitsFit t.caps.decOut (decOpened len) text.length := by
    rw [encodeCall_caps hencode, hcaps]
    exact ⟨rfl, by simp; omega⟩
  have hfeed : feedSyms t.caps.decOut (packOrder (textSyms none text)) (decOpened len) =
      .ok ((decOpened len).wrote text) :=
    feedSyms_textSyms (pending := none) ⟨rfl, rfl, rfl⟩ (fun _ h => nomatch h) hwell (map_fst_packOrder _) hroom
  have hwritten : ((decOpened len).wrote text).len.toNat = text.length := by
    rw [Dec.wrote_len_toNat hroom.2]; exact Nat.zero_add _
  have htext : ((decOpened len).wrote text).out.map Prod.snd = text := map_snd_memWriteAll text (m := []) (n := 0) rfl
  have hdense : dense ((decOpened len).wrote text).out ((decOpened len).wrote text).len.toNat := by
    rw [Dec.wrote_len_toNat hroom.2]
    exact dense_memWriteAll text (m := []) (n := 0) rfl
  obtain ⟨u, hdecode, hdone, hulen⟩ := decodeCall_pack after hcount.symm hfeed rfl hdense
  rw [htext] at hdecode
  exact ⟨t, u, _, len, hencode, hcount.symm, hdecode, hdone, by rw [hulen, hwritten]⟩

end Sys2Proof.Machine

/-! PROOFS, family 60_exceptions. Which commands raise and what the error entry of each records; and that a block
changes by a command on its own port or by its own reset alone. -/

namespace Sys2Proof.Machine

/-! ### Encoder commands that raise (R111 to R113, R131, R201) -/

/-- The class in the middle of a unit instruction, as `exec_of_isUnitInstr` says it, is that of the low surrogates only
if the unit is one. -/
theorem exec_of_isUnitInstr_low {i : Instr} (h : isUnitInstr i = true) :
    ∃ op, (∀ s, exec i s = unitCommand (unitOfInstr i) (unitAct s.caps.encScr (unitOfInstr i) op) s) ∧
      ∀ payload, op = .low payload → isLowSurrogate (unitOfInstr i) = true := by
  rcases isUnitInstr_cases h with ⟨u, rfl⟩ | ⟨op, rfl, hu⟩
  · exact ⟨decodeUnit u, exec_encUnit u, fun _ => decodeUnit_low⟩
  · rw [hu]
    exact ⟨op, exec_unitOp op, fun payload hop => hop ▸ isLowSurrogate_encodeUnit_low payload⟩

/-- No class raises but that of the low surrogates (R112). -/
theorem op_low_of_unitAct_raised {cap : Option Nat} {u : CodeUnit} {op : UnitOp} {e e' : Enc}
    (h : unitAct cap u op e = .raised e') : ∃ payload, op = .low payload := by
  rcases unitAct_cases cap u op with ⟨syms, -, hk⟩ | ⟨-, hk⟩ | ⟨hop, -⟩
  · exact absurd (hk ▸ h) emit_ne_raised
  · rw [hk] at h; cases h
  · exact hop

/-- The two errors that a unit raises, at the unit itself (R112, R113). -/
theorem exec_unit_faulted {i : Instr} {s t : State} (hi : isUnitInstr i = true) (h : exec i s = .next t)
    (hs : s.enc.phase ≠ .faulted) (ht : t.enc.phase = .faulted) :
    ∃ cause, t.enc = encRaise cause (unitOfInstr i) s.enc.ucnt ∧
      ((cause = causeHighNotLow ∧ s.enc.hsv = true ∧ isLowSurrogate (unitOfInstr i) = false) ∨
        (cause = causeLoneLow ∧ s.enc.hsv = false ∧ isLowSurrogate (unitOfInstr i) = true)) := by
  obtain ⟨op, hexec, hlow⟩ := exec_of_isUnitInstr_low hi
  rw [hexec] at h
  rcases unitCommand_next h with ⟨hf, -⟩ | ⟨-, hsv, hu, rfl⟩ | ⟨-, -, -, e, hpair, -, rfl⟩ |
    ⟨-, hsv, ⟨e, hact, rfl⟩ | ⟨e, hact, -, rfl⟩⟩
  · exact absurd hf hs
  · exact ⟨causeHighNotLow, rfl, .inl ⟨rfl, hsv, hu⟩⟩
  · exact absurd ((pairComplete_frame hpair).1.symm.trans ht) hs
  · obtain ⟨payload, hop⟩ := op_low_of_unitAct_raised hact
    exact ⟨causeLoneLow, unitAct_raised hact, .inr ⟨rfl, hsv, hlow payload hop⟩⟩
  · exact absurd ((unitAct_frame hact).1.symm.trans ht) hs

/-- The error that `ENC_END` raises, at the pending surrogate (R131). -/
theorem execEncEnd_faulted {s t : State} (h : execEncEnd s = .next t) (hs : s.enc.phase ≠ .faulted)
    (ht : t.enc.phase = .faulted) :
    s.enc.hsv = true ∧ t.enc = encRaise causeTrailingHigh s.enc.hs (s.enc.ucnt - 1) := by
  rcases inCall_next h with ⟨-, hrun⟩ | ⟨hf, -⟩
  · rcases packCommand_cases s.caps.encOut s.draws s.enc with ⟨hsv, hk⟩ | ⟨-, hk⟩ | ⟨why, -, hk, -⟩ <;>
      rw [hk] at hrun <;> cases hrun
    · exact ⟨hsv, rfl⟩
    · cases ht
  · exact absurd hf hs

/-- Settles O27: the error entry of a unit (`exec_unit_faulted`) or of the end (`execEncEnd_faulted`); a begin opens a
call, and a decoder instruction leaves the encoder alone. -/
theorem encodingErrorsAreEnteredAndRecorded : Obligations.EncodingErrorsAreEnteredAndRecorded := by
  intro i s t h hs ht
  cases hi : isEncInstr i with
  | false =>
    obtain ⟨d, rfl⟩ := exec_dec_next hi h
    exact absurd ht hs
  | true =>
    rcases isEncInstr_cases hi with rfl | hunit | rfl
    · cases h; cases ht
    · obtain ⟨cause, henc, hcause⟩ := exec_unit_faulted hunit h hs ht
      rw [henc]
      exact ⟨rfl, .inl ⟨hunit, rfl, rfl, hcause⟩⟩
    · obtain ⟨hsv, henc⟩ := execEncEnd_faulted h hs ht
      rw [henc]
      exact ⟨rfl, .inr ⟨rfl, rfl, hsv, rfl, rfl⟩⟩

/-! ### The symbol that raises (R180, R184, R202) -/

/-- What a symbol that raises was and what its error records: an invalid symbol met outside a code point, or the last
trailer of a value above the range. -/
theorem processSymbol_raised_record {cap : Option Nat} {x : Sym} {stolen : Bool} {d d' : Dec}
    (hcp : d.cp.toNat < 2 ^ 21) (h : processSymbol cap x stolen d = .raised d') :
    ∃ cause info, d' = decRaise cause info d ∧
      ((cause = causeInvalidSymbol ∧ d.rem = 0 ∧ isInvalidSymbol x = true ∧
          info.toNat = x.toNat + if stolen then 2 ^ 24 else 0) ∨
        (cause = causeCpRange ∧ d.rem = 1 ∧ 0x10FFFF < (gather d.cp d.rem x).toNat ∧
          info.toNat = (gather d.cp d.rem x).toNat + if stolen then 2 ^ 24 else 0)) := by
  have hinfo (value : BitVec 21) : (decInfo value stolen 0).toNat = value.toNat + if stolen then 2 ^ 24 else 0 := by
    have hzero : (0 : BitVec 2).toNat = 0 := rfl
    rw [decInfo_toNat, bit_toNat_mul, hzero, Nat.zero_mul, Nat.add_zero]
  by_cases hclosed : d.rem = 0
  · rw [processSymbol_classified cap x stolen d hclosed] at h
    have hsym := encodeSym_decodeSym false x
    have hwf := decodeSym_wf false x
    cases hop : decodeSym false x with rw [hop] at h hsym hwf
    | invalid sym =>
      cases h
      obtain rfl : sym = x := hsym
      refine ⟨_, _, rfl, .inl ⟨rfl, hclosed, hwf, ?_⟩⟩
      rw [hinfo, BitVec.toNat_setWidth_of_le (by decide)]
    | trail payload => exact nomatch decodeSym_trail hop
    | lead2 hi => cases h
    | lead3 hi => cases h
    | lead4 => cases h
    | _ => exact absurd h emitUnit_not_raised
  · by_cases hlast : d.rem = 1
    · rw [processSymbol_last hlast] at h
      rcases emitCodePoint_cases cap (gather d.cp d.rem x) stolen { d with ph := false, rem := 0, cp := 0 } with
        ⟨-, -, hk⟩ | ⟨-, -, -, hk⟩ | ⟨hrange, hk⟩ | ⟨-, why, hk⟩ <;> rw [hk] at h <;> cases h
      refine ⟨_, _, rfl, .inr ⟨rfl, hlast, hrange, ?_⟩⟩
      rw [hinfo, extractLsb'_value_toNat, Nat.mod_eq_of_lt (gather_lt hcp d.rem x)]
    · rw [processSymbol_trail_more hclosed hlast] at h
      cases h

/-- A symbol that leaves one trailer owed was the last but one, or a lead of two, whose code point is below 0x800. -/
theorem processSymbol_owes_one {cap : Option Nat} {x : Sym} {stolen : Bool} {d d' : Dec}
    (h : processSymbol cap x stolen d = .ok d') (hone : d'.rem = 1) :
    (d.rem = 2 ∧ d'.cp = gather d.cp d.rem x) ∨ d'.cp.toNat < 2 ^ 11 := by
  by_cases hclosed : d.rem = 0
  · rw [processSymbol_classified cap x stolen d hclosed] at h
    cases hop : decodeSym false x with rw [hop] at h
    | lead2 hi =>
      cases h
      have hseed : (seedTwo hi).toNat < 2 ^ 11 := by rw [seedTwo_toNat]; omega
      exact .inr hseed
    | lead3 hi => cases h; cases hone
    | lead4 => cases h; cases hone
    | invalid sym => cases h
    | trail payload => exact nomatch decodeSym_trail hop
    | _ =>
      obtain ⟨-, hrem, -⟩ := emitUnit_frame h
      rw [hrem, hclosed] at hone
      cases hone
  · rw [processSymbol_trail cap x stolen d hclosed] at h
    obtain ⟨-, -, ⟨-, hrem, -⟩ | ⟨-, rfl⟩⟩ := symTrail_ok h
    · rw [hrem] at hone; cases hone
    · exact .inl ⟨by bv_omega, rfl⟩

/-- The last trailer is or-ed in without a shift (R73). -/
theorem gather_one (cp : Reg32) (x : Sym) : gather cp 1 x = cp ||| x.setWidth 32 :=
  congrArg (cp ||| ·) (BitVec.shiftLeft_zero _)

/-- The last trailer of a lead of two is in the range (R70). -/
theorem gather_one_lt {cp : Reg32} (hcp : cp.toNat < 2 ^ 11) (x : Sym) : (gather cp 1 x).toNat < 2 ^ 11 := by
  rw [gather_one, BitVec.toNat_or, BitVec.toNat_setWidth_of_le (by decide)]
  exact Nat.or_lt_two_pow hcp (by omega)

/-! ### The byte whose symbol raises (R152, R155) -/

/-- The error entry takes nothing but the byte count from the decoder (R206). -/
theorem decRaise_congr {d d' : Dec} (h : d.bcnt = d'.bcnt) (cause : BitVec 3) (info : Reg32) :
    decRaise cause info d = decRaise cause info d' := by
  rw [decRaise, h]
  rfl

/-- The error of a direct symbol. -/
theorem direct_raised_record {cap : Option Nat} {hb : Bool} {x : Sym} {d d' : Dec} (inv : DecInv d)
    (h : processSymbol cap x false (gatherBit hb d) = .raised d') :
    ∃ cause info, d' = decRaise cause info d ∧
      ((cause = causeInvalidSymbol ∧ d.rem = 0 ∧ isInvalidSymbol x = true ∧ info.toNat = x.toNat) ∨
        (cause = causeCpRange ∧ d.rem = 1 ∧ 0x10FFFF < (gather d.cp d.rem x).toNat ∧
          info.toNat = (gather d.cp d.rem x).toNat)) :=
  processSymbol_raised_record (d := gatherBit hb d) inv.cp_bound h

/-- The error of a stolen symbol, after a direct one that went on. A value above the range took its last two trailers
from this byte: a direct lead opens no such value. -/
theorem stolen_raised_record {cap : Option Nat} {hb : Bool} {x : Sym} {d d1 d' : Dec} (inv : DecInv d)
    (hp : d.phase = .active) (h1 : processSymbol cap x false (gatherBit hb d) = .ok d1)
    (h2 : processSymbol cap (stolenSym d1.stolen) true { d1 with stolen := 0, stage := 0 } = .raised d') :
    ∃ cause info, d' = decRaise cause info d ∧
      ((cause = causeInvalidSymbol ∧ isInvalidSymbol (stolenSym (shiftStolen d.stolen hb)) = true ∧
          info.toNat = (stolenSym (shiftStolen d.stolen hb)).toNat + 2 ^ 24) ∨
        (cause = causeCpRange ∧ d.rem = 2 ∧
          0x10FFFF < (gather (gather d.cp d.rem x) 1 (stolenSym (shiftStolen d.stolen hb))).toNat ∧
          info.toNat = (gather (gather d.cp d.rem x) 1 (stolenSym (shiftStolen d.stolen hb))).toNat + 2 ^ 24)) := by
  have hcp : d1.cp.toNat < 2 ^ 21 := (processSymbol_keeps_symInv (inv.symInv hp hb) h1).cp_bound
  obtain ⟨-, -, hstolen, -, hbcnt, -⟩ := processSymbol_frame h1
  rw [hstolen, gatherBit_stolen] at h2
  obtain ⟨cause, info, rfl, ⟨hcause, -, hinvalid, hinfo⟩ | ⟨hcause, hone, hrange, hinfo⟩⟩ :=
    processSymbol_raised_record (d := { d1 with stolen := 0, stage := 0 }) hcp h2
  · exact ⟨cause, info, decRaise_congr hbcnt cause info, .inl ⟨hcause, hinvalid, hinfo⟩⟩
  · rw [hone] at hrange hinfo
    rcases processSymbol_owes_one h1 hone with ⟨htwo, hgather⟩ | hlead
    · rw [hgather] at hrange hinfo
      exact ⟨cause, info, decRaise_congr hbcnt cause info, .inr ⟨hcause, htwo, hrange, hinfo⟩⟩
    · have habove : 0x10FFFF < (gather d1.cp 1 (stolenSym (shiftStolen d.stolen hb))).toNat := hrange
      have hbelow := gather_one_lt hlead (stolenSym (shiftStolen d.stolen hb))
      omega

/-! ### Decoder commands that raise (R180, R184, R185) -/

/-- A byte instruction is `DEC_BYTE`, a byte on the wire, or a class. -/
theorem isByteInstr_cases {i : Instr} (h : isByteInstr i = true) :
    (∃ b fin, i = .decByte b fin) ∨ (∃ hb sym, i = .pbyte hb sym) ∨
      ∃ op : SymOp, i = op.toInstr ∧ symOfInstr i = encodeSym op ∧ hbOfInstr i = false := by
  cases i with
  | decByte b fin => exact .inl ⟨b, fin, rfl⟩
  | pbyte hb sym => exact .inr (.inl ⟨hb, sym, rfl⟩)
  | dLead2 hi => exact .inr (.inr ⟨.lead2 hi, rfl, rfl, rfl⟩)
  | dLead3 hi => exact .inr (.inr ⟨.lead3 hi, rfl, rfl, rfl⟩)
  | dLead4 => exact .inr (.inr ⟨.lead4, rfl, rfl, rfl⟩)
  | dInvalid sym => exact .inr (.inr ⟨.invalid sym, rfl, rfl, rfl⟩)
  | dCtl sym => exact .inr (.inr ⟨.ctl sym, rfl, rfl, rfl⟩)
  | dBs => exact .inr (.inr ⟨.bs, rfl, rfl, rfl⟩)
  | dBel => exact .inr (.inr ⟨.bel, rfl, rfl, rfl⟩)
  | dLit sym => exact .inr (.inr ⟨.lit sym, rfl, rfl, rfl⟩)
  | dNul => exact .inr (.inr ⟨.nul, rfl, rfl, rfl⟩)
  | dTrail payload => exact .inr (.inr ⟨.trail payload, rfl, rfl, rfl⟩)
  | _ => cases h

/-- With the operands of its class every byte instruction processes its symbol (log entry 3). -/
theorem exec_of_isByteInstr_wf {i : Instr} (hi : isByteInstr i = true) (hwf : i.wf = true) :
    ∃ fin, ∀ s, exec i s =
      byteCommand (hbOfInstr i) fin (processSymbol s.caps.decOut (symOfInstr i) false) s := by
  rcases isByteInstr_cases hi with ⟨b, fin, rfl⟩ | ⟨hb, sym, rfl⟩ | ⟨op, rfl, hsym, hhb⟩
  · exact ⟨fin, fun _ => rfl⟩
  · exact ⟨false, fun _ => rfl⟩
  · rw [hsym, hhb]
    exact ⟨false, fun s => (exec_symOp_eq_decByte hwf s).trans (exec_decByte_encodePbyte false false _ s)⟩

/-- A byte that takes the decoder into FAULTED: its direct symbol raised, or at stage 6 its stolen one. -/
theorem exec_byte_faulted {i : Instr} {s t : State} (hi : isByteInstr i = true) (hwf : i.wf = true)
    (h : exec i s = .next t) (hs : s.dec.phase ≠ .faulted) (ht : t.dec.phase = .faulted) :
    processSymbol s.caps.decOut (symOfInstr i) false (gatherBit (hbOfInstr i) s.dec) = .raised t.dec ∨
      s.dec.phase = .active ∧ s.dec.stage = 6 ∧
        ∃ d1, processSymbol s.caps.decOut (symOfInstr i) false (gatherBit (hbOfInstr i) s.dec) = .ok d1 ∧
          processSymbol s.caps.decOut (stolenSym d1.stolen) true { d1 with stolen := 0, stage := 0 } =
            .raised t.dec := by
  obtain ⟨fin, hexec⟩ := exec_of_isByteInstr_wf hi hwf
  rw [hexec] at h
  rcases byteCommand_next h with ⟨hf, -⟩ | ⟨hp, -, ⟨d, h1, rfl⟩ | ⟨d1, h1, ⟨d, h2, rfl⟩ | ⟨d2, h2, -, rfl⟩⟩⟩
  · exact absurd hf hs
  · exact .inl h1
  · obtain ⟨-, hstage, -⟩ := processSymbol_frame h1
    rw [gatherBit_stage] at hstage
    rcases deliverStolen_cases s.caps.decOut d1 with ⟨hseven, hk⟩ | ⟨-, hk⟩ <;> rw [hk] at h2
    · exact .inr ⟨hp, by bv_omega, d1, h1, h2⟩
    · cases h2
  · obtain ⟨hphase2, -⟩ := deliverStolen_frame h2
    obtain ⟨hphase1, -⟩ := processSymbol_frame h1
    exact absurd ((hphase2.trans hphase1).symm.trans ht) hs

/-- The error that `DEC_FINISH` raises, at the code point in progress (R185). -/
theorem execDecFinish_faulted {s t : State} (h : execDecFinish s = .next t) (hs : s.dec.phase ≠ .faulted)
    (ht : t.dec.phase = .faulted) :
    s.dec.rem ≠ 0 ∧ s.dec.ph = false ∧
      t.dec = decRaise causeTruncated (decInfo (s.dec.cp.extractLsb' 0 21) false s.dec.rem) s.dec := by
  rcases inCall_next h with ⟨-, hrun⟩ | ⟨hf, -⟩
  · rcases finishCommand_cases s.dec with ⟨hrem, hph, hk⟩ | ⟨-, hk⟩ <;> rw [hk] at hrun <;> cases hrun
    · exact ⟨hrem, hph, rfl⟩
    · cases ht
  · exact absurd hf hs

/-- Settles O28: the error entry of the direct symbol (`direct_raised_record`), of the stolen one
(`stolen_raised_record`), or of the end (`execDecFinish_faulted`). That the direct symbol went on is what keeps the
clauses of the two symbols apart. -/
theorem decodingErrorsAreEnteredAndRecorded : Obligations.DecodingErrorsAreEnteredAndRecorded := by
  intro i s t hwf inv h hs ht direct stolen c c2
  cases hi : isEncInstr i with
  | true =>
    obtain ⟨e, rfl | ⟨-, rfl⟩⟩ := exec_enc_next hi h <;> exact absurd ht hs
  | false =>
    rcases not_isEncInstr_cases hi with ⟨n, rfl⟩ | hbyte | rfl
    · cases h; cases ht
    · rcases exec_byte_faulted hbyte hwf h hs ht with h1 | ⟨hp, hsix, d1, h1, h2⟩
      · obtain ⟨cause, info, hdec, ⟨hcause, hrem, hinvalid, hinfo⟩ | ⟨hcause, hrem, hrange, hinfo⟩⟩ :=
          direct_raised_record inv h1
        · rw [hdec]
          exact ⟨rfl, .inl ⟨hbyte, hcause, by rw [if_pos ⟨hrem, hinvalid⟩]; exact hinfo⟩⟩
        · rw [hdec]
          exact ⟨rfl, .inr (.inl ⟨hbyte, hcause, by rw [if_pos hrem]; exact ⟨hrange, hinfo⟩⟩)⟩
      · obtain ⟨cause, info, hdec, ⟨hcause, hinvalid, hinfo⟩ | ⟨hcause, hrem, hrange, hinfo⟩⟩ :=
          stolen_raised_record inv hp h1 h2
        · have hvalid : ¬(s.dec.rem = 0 ∧ isInvalidSymbol direct = true) := by
            rintro ⟨hrem, hdirect⟩
            have hraise := invalidSymbolRaises s.caps.decOut false (gatherBit (hbOfInstr i) s.dec) direct hrem hdirect
            exact nomatch hraise.symm.trans h1
          rw [hdec]
          exact ⟨rfl, .inl ⟨hbyte, hcause, by rw [if_neg hvalid]; exact ⟨hsix, hinvalid, hinfo⟩⟩⟩
        · rw [gather_one] at hrange hinfo
          have hne : s.dec.rem ≠ 1 := by rw [hrem]; decide
          rw [hdec]
          exact ⟨rfl, .inr (.inl ⟨hbyte, hcause, by rw [if_neg hne]; exact ⟨hsix, hrem, hrange, hinfo⟩⟩)⟩
    · obtain ⟨hrem, hph, hdec⟩ := execDecFinish_faulted h hs ht
      have hinfo : (decInfo (s.dec.cp.extractLsb' 0 21) false s.dec.rem).toNat =
          s.dec.cp.toNat + s.dec.rem.toNat * 2 ^ 28 := by
        rw [decInfo_toNat, extractLsb'_value_toNat, Nat.mod_eq_of_lt inv.cp_bound, Bool.toNat_false, Nat.zero_mul,
          Nat.add_zero]
      rw [hdec]
      exact ⟨rfl, .inr (.inr ⟨rfl, rfl, hrem, hph, hinfo⟩)⟩

/-! ### What changes a block (R6, R215) -/

/-- The instruction of a command word belongs to the block of its port (R61, R62). -/
theorem isEncInstr_of_decodeCmd {blk : Block} {w : CmdWord} {i : Instr} (h : decodeCmd blk w = .ok i) :
    isEncInstr i = (blk == .enc) := by
  cases blk with
  | enc => rcases decodeEncCmd_cases h with rfl | ⟨u, rfl⟩ | rfl <;> rfl
  | dec => rcases decodeDecCmd_cases h with ⟨n, rfl⟩ | ⟨b, fin, rfl⟩ | rfl <;> rfl

/-- The events that can change the encoder. -/
theorem takeEvent_enc_changed {ev : HostEvent} {s t : State} (h : takeEvent ev s = .next t) (hne : t.enc ≠ s.enc) :
    (∃ w, ev = .cmd .enc w) ∨ ev = .rst .enc := by
  cases ev with
  | cmd blk w =>
    cases blk with
    | enc => exact .inl ⟨w, rfl⟩
    | dec =>
      obtain ⟨i, hdecode, hexec⟩ := takeEvent_cmd_next h
      obtain ⟨d, rfl⟩ := exec_dec_next (isEncInstr_of_decodeCmd hdecode) hexec
      exact absurd rfl hne
  | rst blk =>
    cases blk with
    | enc => exact .inr rfl
    | dec => cases h; exact absurd rfl hne
  | readReg blk sel => cases h; exact absurd rfl hne
  | readBuf blk idx => cases h; exact absurd (readBuf_enc blk idx s) hne

/-- The events that can change the decoder. -/
theorem takeEvent_dec_changed {ev : HostEvent} {s t : State} (h : takeEvent ev s = .next t) (hne : t.dec ≠ s.dec) :
    (∃ w, ev = .cmd .dec w) ∨ ev = .rst .dec := by
  cases ev with
  | cmd blk w =>
    cases blk with
    | enc =>
      obtain ⟨i, hdecode, hexec⟩ := takeEvent_cmd_next h
      obtain ⟨e, rfl | ⟨-, rfl⟩⟩ := exec_enc_next (isEncInstr_of_decodeCmd hdecode) hexec <;> exact absurd rfl hne
    | dec => exact .inl ⟨w, rfl⟩
  | rst blk =>
    cases blk with
    | enc => cases h; exact absurd rfl hne
    | dec => exact .inr rfl
  | readReg blk sel => cases h; exact absurd rfl hne
  | readBuf blk idx => cases h; exact absurd (readBuf_dec blk idx s) hne

/-- Settles O51: a step is the first of the coming events (`takeEvent_of_step`), and the event tells which block can
change (`takeEvent_enc_changed`, `takeEvent_dec_changed`). -/
theorem onlyCommandsAndResetChangeAnInstance : Obligations.OnlyCommandsAndResetChangeAnInstance := by
  intro s
  refine ⟨fun hnone => by rw [step, hnone], fun t h => ?_⟩
  rcases takeEvent_of_step h with rfl | ⟨ev, rest, hpending, hev⟩
  · exact ⟨fun hne => absurd rfl hne, fun hne => absurd rfl hne⟩
  · rw [hpending]
    refine ⟨fun hne => ?_, fun hne => ?_⟩
    · rcases takeEvent_enc_changed hev hne with ⟨w, rfl⟩ | rfl
      · exact ⟨w, rest, .inl rfl⟩
      · exact ⟨0, rest, .inr rfl⟩
    · rcases takeEvent_dec_changed hev hne with ⟨w, rfl⟩ | rfl
      · exact ⟨w, rest, .inl rfl⟩
      · exact ⟨0, rest, .inr rfl⟩

end Sys2Proof.Machine

/-! PROOFS, family 70_reset_and_hazards. What `rst` leaves of a block, and which instructions have a meaning while no
call is open. -/

namespace Sys2Proof.Machine

/-! ### Reset (R230) -/

/-- Settles O46: `rst` is taken from the queue like any event (R53), and its effect is the replacement of one block. -/
theorem resetClearsOneInstance : Obligations.ResetClearsOneInstance :=
  ⟨rfl, rfl, fun _ _ => ⟨fun h => step_of_pending h, fun h => step_of_pending h⟩⟩

/-! ### Instructions while no call is open (R14, R232) -/

/-- In the phases that are outside a call, an instruction opens a call or is refused by the frame of its block. -/
theorem exec_idle_or_done {s : State} (henc : s.enc.phase = .idle ∨ s.enc.phase = .done)
    (hdec : s.dec.phase = .idle ∨ s.dec.phase = .done) (i : Instr) :
    (i = .encBegin ∨ ∃ n, i = .decPrepare n) ∨ exec i s = .refused .outsideCall := by
  cases hi : isEncInstr i with
  | true =>
    rcases isEncInstr_cases hi with hbegin | hdata
    · exact .inl (.inl hbegin)
    · obtain ⟨command, hexec⟩ := exec_enc_inCall hdata s
      exact .inr (hexec.trans (inCall_idle_or_done henc s command))
  | false =>
    rcases not_isEncInstr_cases hi with hprepare | hdata
    · exact .inl (.inr hprepare)
    · obtain ⟨command, hexec⟩ := exec_dec_inCall hdata s
      exact .inr (hexec.trans (inCall_idle_or_done hdec s command))

/-- An instruction that opens a call answers in every state (R100, R151). -/
theorem exec_opening_answers {i : Instr} (hi : i = .encBegin ∨ ∃ n, i = .decPrepare n) (s : State) :
    ∃ t, exec i s = .next t := by
  rcases hi with rfl | ⟨n, rfl⟩
  · exact ⟨s.setEnc encOpened, rfl⟩
  · exact ⟨s.setDec (decOpened n), rfl⟩

/-- Settles O47: after reset both blocks are in IDLE, where an instruction opens a call (`exec_opening_answers`) or is
refused (`exec_idle_or_done`). -/
theorem afterResetOnlyBeginsHaveAMeaning : Obligations.AfterResetOnlyBeginsHaveAMeaning := by
  intro i s henc hdec
  have henc_idle : s.enc.phase = .idle := congrArg Enc.phase henc
  have hdec_idle : s.dec.phase = .idle := congrArg Dec.phase hdec
  rcases exec_idle_or_done (.inl henc_idle) (.inl hdec_idle) i with hopens | hrefused
  · have hanswers := exec_opening_answers hopens s
    exact ⟨iff_of_true hanswers hopens, fun hnone => absurd hanswers (not_exists.mpr hnone)⟩
  · have hsilent : ¬ ∃ t, exec i s = .next t := fun ⟨_, ht⟩ => nomatch hrefused.symm.trans ht
    exact ⟨iff_of_false hsilent fun hopens => hsilent (exec_opening_answers hopens s), fun _ => hrefused⟩

end Sys2Proof.Machine

/-! PROOFS, family other. A row of the opcode table at the machine: what is presented is the command of the instruction
that the row decodes to, and presenting it changes nothing but the queue and, for a class, the phase of its block. -/

namespace Sys2Proof.Machine

/-! ### A row of the opcode table at the ports (log entries 3 to 5) -/

/-- Opening a call leaves the queue alone, so taking the presented event back gives the opened state itself. -/
theorem openFor_setPending_pending (item : Item) (s : State) :
    (openFor item s).setPending s.pending = openFor item s := by
  cases item <;> rfl

theorem step_present (item : Item) (s : State) :
    step (present item s) = takeEvent (presentItem item) (openFor item s) := by
  have hpending : (present item s).pending = presentItem item :: s.pending := rfl
  have hrest : (present item s).setPending s.pending = (openFor item s).setPending s.pending := rfl
  rw [step_of_pending hpending, hrest, openFor_setPending_pending]

/-- An item is presented as the event of the instruction that is written as the item: a unit, a symbol and a byte as the
command that carries it (log entry 3). -/
theorem presentItem_encode (i : Instr) : presentItem (encode i) = eventOf i := by
  rw [eventOf]
  cases encode i with
  | cmd blk w => rfl
  | unit16 u => rfl
  | sym7 inside x => rw [presentItem, eventOf, encode, ← zeros_append_sym]
  | pbyte8 b => rw [presentItem, eventOf, encode, ← zeros_append_byte]

/-- A presented item runs as the instruction it decodes to, which is well-formed and written as the item (O2) and runs
as the command that carries it (O8). -/
theorem step_present_of_decode {item : Item} {i : Instr} (h : decode item = .ok i) (s : State) :
    step (present item s) = exec i (openFor item s) := by
  obtain ⟨hwf, hencode⟩ := encodeInvertsDecode item i h
  rw [step_present, ← classesRunAsTheCommandThatCarriesThem i (openFor item s) hwf, ← presentItem_encode, hencode]

theorem withFetchWord_of_tableItem {nbits w : Nat} {item : Item} (h : tableItem nbits w = some item) (s : State) :
    s.withFetchWord nbits w = present item s := by
  rw [State.withFetchWord, h]

/-- Settles O9: the row is presented as its item, and a presented item runs as what it decodes to
(`step_present_of_decode`). -/
theorem tableWordsRunAtTheNextStep : Obligations.TableWordsRunAtTheNextStep := by
  intro nbits w item i s hitem hdecode
  rw [withFetchWord_of_tableItem hitem, step_present_of_decode hdecode]

end Sys2Proof.Machine
